-- ==== Sys2Proof/Word.lean ====
section
/-! DEFINITION. The widths the block works with: the bit and the byte (spec/00_scope.md R6, R8). -/

namespace Sys2Proof

/-- A bit, 0 or 1 (R8). Flags and fields of one bit are of this type. -/
abbrev Bit := Bool

/-- A level read from or written to a pin: `true` is the high logic level, `false` the low one (R8). -/
abbrev Level := Bool

/-- An 8-bit value: the counter, a bus value, a trace byte, an operation word (R6, R57). Bit 7 is the most significant. -/
abbrev Byte := BitVec 8

end Sys2Proof
end

