-- ==== Sys2Proof/Syntax.lean ====
section
/-! DEFINITION. The operations of the block and of its environment as syntax: one constructor per row of
spec/opcode_table.json. "Instruction" stands for the spec's word "operation" (spec/00_scope.md R10, spec/INDEX.md). -/

namespace Sys2Proof

/-- The ten GPIO lines and the six reserved indices, as spec/20_memory.md R38 lists them. -/
inductive Line where
  /-- index 0..7: the bus line `L[i]`, configurable. -/
  | bus (i : Fin 8)
  /-- index 8: the clock input. -/
  | clk
  /-- index 9: the enable input. -/
  | en
  /-- index 10 + n: reserved. -/
  | reserved (n : Fin 6)
  deriving DecidableEq, Repr

/-- The three modes of a CFGDIR request (spec/30_encoding.md R59). -/
inductive PinMode where
  | input
  | output
  | inputPullup
  deriving DecidableEq, Repr

/-- What the outside applies to a line: nothing, a low, a high (spec/10_state.md R19). -/
inductive Drive where
  | z
  | d0
  | d1
  deriving DecidableEq, Repr, Inhabited

/-- The four interfaces a word can stand on (spec/30_encoding.md R57). The interface, not the bits, tells the formats apart. -/
inductive Iface where
  /-- the block's own control: which operation of the block happens. -/
  | s
  /-- block to GPIO bank. -/
  | p
  /-- block to trace sink. -/
  | t
  /-- environment to pins. -/
  | e
  deriving DecidableEq, Repr

/-- The operations. An argument `sb` or `db` is the `s` or `d` bit of a format S word (R58): a copy of state, which the
decoder keeps so that a word whose copy disagrees with the state can be told from one that agrees. -/
inductive Instr where
  /-- INIT, `000000sd` (R114). -/
  | init (sb db : Bit)
  /-- MC.SAMPLE, `001000sd` (R66). -/
  | mcSample (sb db : Bit)
  /-- MC.COMMIT.NOP with `s = 0`, `d = 0`: the row `01000000` (R69). -/
  | mcCommitNopSense
  /-- MC.COMMIT.NOP with `s = 1`, `d = 1`: the row `01000011` (R69). -/
  | mcCommitNopDrive
  /-- MC.COMMIT.DRV, `01000010` (R70). -/
  | mcCommitDrv
  /-- MC.COMMIT.SNS, `01000001` (R71). -/
  | mcCommitSns
  /-- EH.R, `011000s0` (R77). -/
  | ehR (sb : Bit)
  /-- EH.W, `011000s1` (R76). -/
  | ehW (sb : Bit)
  /-- MC.CFG, `100lllsd` (R72). -/
  | mcCfg (ln : Fin 8) (sb db : Bit)
  /-- MC.FLAG, `101000sd` (R73). -/
  | mcFlag (sb db : Bit)
  /-- CFGDIR, `00llllmm` (R82). -/
  | cfgdir (ln : Line) (md : PinMode)
  /-- RDLVL, `01llll00` (R83). -/
  | rdlvl (ln : Line)
  /-- WRLVL, `10llll0b` (R84). -/
  | wrlvl (ln : Line) (b : Bit)
  /-- TRPUT, `bbbbbbbb` (R85). -/
  | trput (b : Byte)
  /-- ENV.SET, `00lllldd` (R90). -/
  | envSet (ln : Line) (x : Drive)
  deriving DecidableEq, Repr

/-- The interface an operation's word stands on (the table's "format" column). -/
def Instr.iface : Instr → Iface
  | .init _ _ => .s
  | .mcSample _ _ => .s
  | .mcCommitNopSense => .s
  | .mcCommitNopDrive => .s
  | .mcCommitDrv => .s
  | .mcCommitSns => .s
  | .ehR _ => .s
  | .ehW _ => .s
  | .mcCfg _ _ _ => .s
  | .mcFlag _ _ => .s
  | .cfgdir _ _ => .p
  | .rdlvl _ => .p
  | .wrlvl _ _ => .p
  | .trput _ => .t
  | .envSet _ _ => .e

end Sys2Proof
end

