-- ==== Sys2Proof/Config.lean ====
section
/-! DEFINITION. The parameters of the block (spec/00_scope.md R6) and the free values: draws and the schedule
(spec/10_state.md R24, R29). A constant without a body is a free value: no proof can see what it is. -/

namespace Sys2Proof

/-- `MC_GRANULARITY` (R6): whether a commit that changes the direction is one atomic operation or nine. -/
inductive Granularity where
  | group
  | perLine
  deriving DecidableEq, Repr

/-- The OPEN parameters of R6 that some rule reads. They are fixed for a launch: no step writes them (log 2). -/
structure Params where
  /-- `MC_GRANULARITY`. -/
  granularity : Granularity
  /-- `CNT_INIT`, the counter after start-up. -/
  cntInit : Byte
  /-- `OLAT_INIT`, the output latches after start-up, read as a bus byte. -/
  olatInit : Byte
  /-- `NL`, the bytes that end a trace line. -/
  nl : List Byte
  deriving DecidableEq, Repr

/-- The parameters `State.reset` carries. `group` is the spec's default (R6); the other three are the test vectors'
choices, DESIGN CHOICE, unsafe (log 2): no statement of the package rests on them. -/
def Params.default : Params :=
  { granularity := .group, cntInit := 0x00, olatInit := 0x00, nl := [0x0A] }

/-- The agents of the transition system (R7). Start-up belongs to the block, so either block agent stands for it while `RUN = 0`. -/
inductive Agent where
  | modeController
  | edgeHandler
  | environment
  deriving DecidableEq, Repr, Inhabited

/-- One act of the environment, among those that have a legal word (spec/30_encoding.md R61): the clock is always driven. -/
inductive EnvAct where
  | bus (i : Fin 8) (x : Drive)
  | clk (high : Level)
  | en (x : Drive)
  deriving DecidableEq, Repr, Inhabited

/-- A draw (R24): the n-th free bit. Free value (log 5). -/
opaque Config.freeBit : Nat → Bit

/-- The agent that takes the n-th step of the free schedule (R29, R44, R100). Free value (log 6). -/
opaque Config.freeAgent : Nat → Agent

/-- What the environment does if it takes the n-th step of the free schedule (R89). Free value (log 6). -/
opaque Config.freeEnv : Nat → EnvAct

/-- `BAUD` (R6). No rule depends on it (log 22). -/
opaque Config.baud : Nat

/-- `PINMAP` (R6, R38): the physical pin of the line with this index. No rule depends on it (log 22). -/
opaque Config.pinMap : Fin 10 → Nat

end Sys2Proof
end

