-- ==== Sys2Proof/WellFormed.lean ====
section
/-! DEFINITION. Which operations have a legal word: the "legal" columns of spec/30_encoding.md R58 to R62. -/

namespace Sys2Proof

/-- CFGDIR (R59): `ln` 0..7 with `IN` or `OUT`; 8 with `IN`; 9 with `IN_PULLUP`. -/
def legalCfg : Line → PinMode → Bool
  | .bus _, .input => true
  | .bus _, .output => true
  | .bus _, .inputPullup => false
  | .clk, md => md == .input
  | .en, md => md == .inputPullup
  | .reserved _, _ => false

/-- RDLVL (R59): `ln` 0..7 or 9. -/
def legalRead : Line → Bool
  | .bus _ => true
  | .clk => false
  | .en => true
  | .reserved _ => false

/-- WRLVL (R59): `ln` 0..7. -/
def legalWrite : Line → Bool
  | .bus _ => true
  | .clk => false
  | .en => false
  | .reserved _ => false

/-- TRPUT (R60): the ten printing characters of R55 and the bytes of `NL`. -/
def legalTraceByte (nl : List Byte) (b : Byte) : Bool :=
  [0x30, 0x31, 0x20, 0x77, 0x72, 0x52, 0x55, 0x4E, 0x49, 0x47].contains b || nl.contains b

/-- ENV.SET (R61): `ln` 0..9; the clock is never released. -/
def legalEnv : Line → Drive → Bool
  | .bus _, _ => true
  | .clk, x => x != .z
  | .en, _ => true
  | .reserved _, _ => false

/-- The operation has a legal word under these parameters (R62). -/
def Instr.wellFormed (p : Params) : Instr → Bool
  | .init _ _ => true
  | .mcSample _ _ => true
  | .mcCommitNopSense => true
  | .mcCommitNopDrive => true
  | .mcCommitDrv => true
  | .mcCommitSns => true
  | .ehR _ => true
  | .ehW _ => true
  | .mcCfg _ _ _ => p.granularity == .perLine
  | .mcFlag _ _ => p.granularity == .perLine
  | .cfgdir ln md => legalCfg ln md
  | .rdlvl ln => legalRead ln
  | .wrlvl ln _ => legalWrite ln
  | .trput b => legalTraceByte p.nl b
  | .envSet ln x => legalEnv ln x

end Sys2Proof
end

