-- ==== Sys2Proof/Decode.lean ====
section
/-! DEFINITION. The decoder of spec/30_encoding.md R57 to R62, total on every byte of every interface, rejecting by name;
after it the encoder, written from the same tables. -/

namespace Sys2Proof

/-- Why a word is reserved (R62), one name per clause of the rule. -/
inductive Reject where
  /-- format S with `ev` = 110 or 111. -/
  | reservedEvent
  /-- format S with `ln != 0` and `ev != 100`. -/
  | lineFieldNotZero
  /-- format S with `ev` = 100 or 101 under `MC_GRANULARITY = group`. -/
  | perLineOnly
  /-- format P with `pr` = 11. -/
  | reservedPrimitive
  /-- format P: CFGDIR with `arg` = 11. -/
  | reservedMode
  /-- format P: a non-zero `arg` on RDLVL, or bit 1 set on WRLVL. -/
  | reservedArgument
  /-- format P or E: `ln` > 9. -/
  | reservedLine
  /-- format P: a line and mode pair outside the legal column. -/
  | illegalPair
  /-- format T: a byte outside the legal set. -/
  | reservedByte
  /-- format E with bits 7:6 non-zero. -/
  | reservedPrefix
  /-- format E with `dd` = 11. -/
  | reservedDrive
  /-- format E: the clock released. -/
  | clockReleased
  deriving DecidableEq, Repr

/-! ## Fields -/

/-- The line with this index (spec/20_memory.md R38). -/
def lineOfIndex (n : BitVec 4) : Line :=
  if h : n.toNat < 8 then .bus ⟨n.toNat, h⟩
  else if n.toNat = 8 then .clk
  else if n.toNat = 9 then .en
  else .reserved ⟨n.toNat - 10, by omega⟩

/-- The index of a line (R38). -/
def lineIndex : Line → BitVec 4
  | .bus i => BitVec.ofNat 4 i.val
  | .clk => 8
  | .en => 9
  | .reserved n => BitVec.ofNat 4 (10 + n.val)

/-- Field `mm` of CFGDIR (R59); 11 is reserved. -/
def pinModeOfField (m : BitVec 2) : Option PinMode :=
  if m = 0 then some .input
  else if m = 1 then some .output
  else if m = 2 then some .inputPullup
  else none

/-- The field `mm` of a mode (R59). -/
def pinModeField : PinMode → BitVec 2
  | .input => 0
  | .output => 1
  | .inputPullup => 2

/-- Field `dd` of ENV.SET (R61); 11 is reserved. -/
def driveOfField (x : BitVec 2) : Option Drive :=
  if x = 0 then some .d0
  else if x = 1 then some .d1
  else if x = 2 then some .z
  else none

/-- The field `dd` of a drive (R61). -/
def driveField : Drive → BitVec 2
  | .d0 => 0
  | .d1 => 1
  | .z => 2

/-! ## The decoder -/

/-- The MC.COMMIT variant the pair `(s, d)` selects (R58, R68). -/
def commitVariant : Bit → Bit → Instr
  | false, false => .mcCommitNopSense
  | true, true => .mcCommitNopDrive
  | true, false => .mcCommitDrv
  | false, true => .mcCommitSns

/-- The EH operation that bit `d` selects (R58, R75). -/
def edgeVariant (sb : Bit) : Bit → Instr
  | false => .ehR sb
  | true => .ehW sb

/-- Format S (R58): `ev` 7:5, `ln` 4:2, `s` 1, `d` 0. -/
def decodeS (g : Granularity) (w : Byte) : Except Reject Instr :=
  let ev := w.extractLsb' 5 3
  let ln := w.extractLsb' 2 3
  let sb := w.getLsbD 1
  let db := w.getLsbD 0
  if ev = 6 ∨ ev = 7 then .error .reservedEvent
  else if ev = 4 then
    if g = .perLine then .ok (.mcCfg ln.toFin sb db) else .error .perLineOnly
  else if ln ≠ 0 then .error .lineFieldNotZero
  else if ev = 0 then .ok (.init sb db)
  else if ev = 1 then .ok (.mcSample sb db)
  else if ev = 2 then .ok (commitVariant sb db)
  else if ev = 3 then .ok (edgeVariant sb db)
  else if g = .perLine then .ok (.mcFlag sb db)
  else .error .perLineOnly

/-- Format P (R59): `pr` 7:6, `ln` 5:2, `arg` 1:0. -/
def decodeP (w : Byte) : Except Reject Instr :=
  let pr := w.extractLsb' 6 2
  let arg := w.extractLsb' 0 2
  match lineOfIndex (w.extractLsb' 2 4) with
  | .reserved _ => if pr = 3 then .error .reservedPrimitive else .error .reservedLine
  | ln =>
    if pr = 0 then
      match pinModeOfField arg with
      | none => .error .reservedMode
      | some md => if legalCfg ln md then .ok (.cfgdir ln md) else .error .illegalPair
    else if pr = 1 then
      if arg ≠ 0 then .error .reservedArgument
      else if legalRead ln then .ok (.rdlvl ln) else .error .illegalPair
    else if pr = 2 then
      if arg.getLsbD 1 then .error .reservedArgument
      else if legalWrite ln then .ok (.wrlvl ln (arg.getLsbD 0)) else .error .illegalPair
    else .error .reservedPrimitive

/-- Format T (R60): the word is the byte itself. -/
def decodeT (nl : List Byte) (w : Byte) : Except Reject Instr :=
  if legalTraceByte nl w then .ok (.trput w) else .error .reservedByte

/-- Format E (R61): 7:6 zero, `ln` 5:2, `dd` 1:0. -/
def decodeE (w : Byte) : Except Reject Instr :=
  if w.extractLsb' 6 2 ≠ 0 then .error .reservedPrefix
  else
    match lineOfIndex (w.extractLsb' 2 4) with
    | .reserved _ => .error .reservedLine
    | ln =>
      match driveOfField (w.extractLsb' 0 2) with
      | none => .error .reservedDrive
      | some x => if legalEnv ln x then .ok (.envSet ln x) else .error .clockReleased

/-- The decoder: the word `w` on the interface `f`, under the parameters `p` (R57, R62). -/
def decode (p : Params) (f : Iface) (w : Byte) : Except Reject Instr :=
  match f with
  | .s => decodeS p.granularity w
  | .p => decodeP w
  | .t => decodeT p.nl w
  | .e => decodeE w

/-! ## The encoder -/

/-- A format S word from its four fields (R58). -/
def wordS (ev ln : BitVec 3) (sb db : Bit) : Byte :=
  ev ++ ln ++ BitVec.ofBool sb ++ BitVec.ofBool db

/-- A format P word from its three fields (R59). -/
def wordP (pr : BitVec 2) (ln : Line) (arg : BitVec 2) : Byte :=
  pr ++ lineIndex ln ++ arg

/-- A format E word from its two fields (R61). -/
def wordE (ln : Line) (dd : BitVec 2) : Byte :=
  (0 : BitVec 2) ++ lineIndex ln ++ dd

/-- The word of an operation, on the interface `i.iface`. -/
def encode : Instr → Byte
  | .init sb db => wordS 0 0 sb db
  | .mcSample sb db => wordS 1 0 sb db
  | .mcCommitNopSense => wordS 2 0 false false
  | .mcCommitNopDrive => wordS 2 0 true true
  | .mcCommitDrv => wordS 2 0 true false
  | .mcCommitSns => wordS 2 0 false true
  | .ehR sb => wordS 3 0 sb false
  | .ehW sb => wordS 3 0 sb true
  | .mcCfg ln sb db => wordS 4 (BitVec.ofFin ln) sb db
  | .mcFlag sb db => wordS 5 0 sb db
  | .cfgdir ln md => wordP 0 ln (pinModeField md)
  | .rdlvl ln => wordP 1 ln 0
  | .wrlvl ln b => wordP 2 ln ((0 : BitVec 1) ++ BitVec.ofBool b)
  | .trput b => b
  | .envSet ln x => wordE ln (driveField x)

/-! ## The host's reading of a table word

An 8-bit word does not say which interface it stands on (R57). In the model's layout for the host the byte after the word
names the interface: 1 S, 2 P, 3 T, 4 E. Where it is 0, as in a word of 8 bits, the word is read on the first interface, in
the table's order S, P, T, E, on which it is legal (DESIGN CHOICE, log 9). -/

/-- The parameters a table word is read under: `per_line`, under which every word of the table is legal (log 9). -/
def tableParams : Params := { Params.default with granularity := .perLine }

/-- The first interface, in the table's order, on which the word is legal. -/
def firstIface (w : Byte) : Option Iface :=
  [Iface.s, .p, .t, .e].find? fun f => (decode tableParams f w).isOk

/-- The interface named by the byte after the word. -/
def namedIface (tag : Nat) (w : Byte) : Option Iface :=
  match tag with
  | 0 => firstIface w
  | 1 => some .s
  | 2 => some .p
  | 3 => some .t
  | 4 => some .e
  | _ => none

/-- The interface and the word that a table word of the host stands for. -/
def tableRequest (w : Nat) : Option (Iface × Byte) :=
  (namedIface (w / 256) (BitVec.ofNat 8 w)).map fun f => (f, BitVec.ofNat 8 w)

/-- The instruction the decoder reads from a table word. Every row of the table is one byte wide, so `nbits` says nothing more. -/
def decodeTableWord (_nbits w : Nat) : Option Instr :=
  match tableRequest w with
  | none => none
  | some (f, b) =>
    match decode tableParams f b with
    | .ok i => some i
    | .error _ => none

end Sys2Proof
end

