-- ==== Sys2Proof/Machine/State.lean ====
section
/-! DEFINITION. The state: the tuple of spec/10_state.md R11, the launch parameters of spec/00_scope.md R6, and the model's
own bookkeeping. Plain data throughout. -/

namespace Sys2Proof.Machine

/-- The configured direction of a bus line (R15). -/
inductive PinDir where
  /-- `IN`: the block's driver is off, high impedance. -/
  | input
  /-- `OUT`: the block drives the line with its latch. -/
  | output
  deriving DecidableEq, Repr

/-- One thing per bus line, `L[0]` to `L[7]` (R15, R16, R19). -/
structure Lines (α : Type) where
  l0 : α
  l1 : α
  l2 : α
  l3 : α
  l4 : α
  l5 : α
  l6 : α
  l7 : α
  deriving DecidableEq, Repr

/-- `MCS`, the Mode Controller's place inside one invocation (R21). -/
inductive Mcs where
  /-- between invocations. -/
  | idle
  /-- the enable line has been read, its logical value was `sb`; nothing compared or done yet. -/
  | sampled (sb : Bit)
  /-- only under `per_line`: turning the bus towards `sb`, lines `L[0]`..`L[k-1]` done, `k` in 1..8. -/
  | cfg (sb : Bit) (k : Nat)
  deriving DecidableEq, Repr

/-- A request of the block to the GPIO bank (spec/42_gpio_trace_primitives.md R81): a word of format P, with the level the
bank answered where it is a read. -/
inductive GpioCall where
  | cfgdir (ln : Line) (md : PinMode)
  | rdlvl (ln : Line) (answer : Level)
  | wrlvl (ln : Line) (b : Bit)
  deriving DecidableEq, Repr

/-- One entry of a test program: a word and the interface it stands on (spec/30_encoding.md R57). -/
structure Request where
  iface : Iface
  word : Byte
  deriving DecidableEq, Repr

/-- Faults: none. "The block raises no synchronous exception" (spec/60_exceptions.md R96), and
spec/93_implementation_defined.md: "The block has no fault mechanism" (log 12). Safe. -/
inductive Fault
  deriving DecidableEq, Repr

/-- The run has left the contract: the closed list of spec/60_exceptions.md R106, and the host's own reason for an instruction
that has no meaning. A refusal ends the run, which is the sticky mark of R106 (log 11). -/
inductive Refusal where
  /-- Raised by exec's arm of an instruction that is not modelled. None is. Safe. -/
  | notModelled (mnemonic : String)
  /-- Raised by ENV.SET: a rising clock edge while one is pending (R92, R105). Safe: a refused run proves nothing (D10). -/
  | edgeOverrun
  /-- Raised by CFGDIR, RDLVL, WRLVL: a request outside R59 (R81, R82). Safe (D27). -/
  | reservedRequest
  /-- Raised by the step for a reserved word (R62), and by an operation given a term that has no legal word (log 20). Safe (D22). -/
  | reservedWord
  /-- Raised by every S operation: the state does not enable it, or the word's `s` or `d` disagrees with the state (R62, R58). Safe. -/
  | notEnabled
  deriving DecidableEq, Repr

/-- The state (R11), with the launch parameters (R6) and the model's own fields. -/
structure State where
  /-- `RUN`: start-up has completed (R12). -/
  run : Bit
  /-- `DIR`, the direction flag: `true` is drive, `false` is sense (R13, R49). -/
  dir : Bit
  /-- `CNT`, the counter (R14). -/
  cnt : Byte
  /-- `MODE[0..7]` (R15). -/
  mode : Lines PinDir
  /-- `OLAT[0..7]`, the output latches (R16). -/
  olat : Lines Level
  /-- `ENPU`: the pull-up on the enable line is on (R17). -/
  enpu : Bit
  /-- `X[0..7]`: what the outside applies to the bus lines (R19). -/
  xBus : Lines Drive
  /-- `X[8]`, the clock: `D1` is `true`, `D0` is `false`; `Z` is not admitted (R19, R24; log 10). -/
  xClk : Level
  /-- `X[9]`: what the outside applies to the enable line (R19). -/
  xEn : Drive
  /-- `PEND`: a rising edge has arrived and is not yet serviced (R20). -/
  pend : Bit
  /-- `MCS` (R21). -/
  mcs : Mcs
  /-- `TRACE`, every byte sent to the trace sink since power-on, oldest first (R22). -/
  trace : List Byte
  /-- The launch parameters (R6). No step writes them (log 2). -/
  params : Params
  /-- The model's own: the number of draws taken (log 5). -/
  draws : Nat
  /-- The model's own: the number of steps the free schedule has taken (log 6). -/
  ticks : Nat
  /-- The model's own: the test program's remaining words, next first (log 6). -/
  script : List Request
  /-- The model's own: the requests made to the GPIO bank, oldest first (log 8). -/
  gpio : List GpioCall
  /-- The model's own: `X[0..7]` as it stood when the pending edge arrived, as long as no ENV.SET on a bus line has come since and
  the edge is not serviced (log 28). No operation reads it. -/
  edgeBus : Option (Lines Drive)
  deriving DecidableEq, Repr

/-- The state a run starts in (spec/70_reset_and_hazards.md R118): `RUN = 0`, `TRACE` empty, no word scheduled. What the
environment applies is a launch parameter (log 4); every other element is unread until INIT has written it (log 3).
INIT, the block's only reset (R114), leads from here to the values of R28 (log 1). -/
def State.reset : State :=
  { run := false
    dir := false
    cnt := 0x00
    mode := ⟨.input, .input, .input, .input, .input, .input, .input, .input⟩
    olat := ⟨false, false, false, false, false, false, false, false⟩
    enpu := false
    xBus := ⟨.z, .z, .z, .z, .z, .z, .z, .z⟩
    xClk := false
    xEn := .z
    pend := false
    mcs := .idle
    trace := []
    params := Params.default
    draws := 0
    ticks := 0
    script := []
    gpio := []
    edgeBus := none }

end Sys2Proof.Machine
end

