-- ==== Sys2Proof/Machine/Operands.lean ====
section
/-! DEFINITION. The operands: the eight lines as a bank, the map between a byte and the lines, the level of a line, the bits
of a format S word, and the bytes of a trace line. Pure functions; no state is changed here. -/

namespace Sys2Proof.Machine

/-- What an operation answers. -/
abbrev Out := Host.Outcome State Fault Refusal

/-! ## The bank of eight lines -/

/-- The entry of line `L[i]`. -/
def Lines.get {α : Type} (v : Lines α) (i : Fin 8) : α :=
  match i with
  | 0 => v.l0
  | 1 => v.l1
  | 2 => v.l2
  | 3 => v.l3
  | 4 => v.l4
  | 5 => v.l5
  | 6 => v.l6
  | 7 => v.l7

/-- The bank with the entry of line `L[i]` replaced. -/
def Lines.set {α : Type} (v : Lines α) (i : Fin 8) (x : α) : Lines α :=
  match i with
  | 0 => { v with l0 := x }
  | 1 => { v with l1 := x }
  | 2 => { v with l2 := x }
  | 3 => { v with l3 := x }
  | 4 => { v with l4 := x }
  | 5 => { v with l5 := x }
  | 6 => { v with l6 := x }
  | 7 => { v with l7 := x }

/-- The bank with one entry on every line. -/
def Lines.fill {α : Type} (x : α) : Lines α := ⟨x, x, x, x, x, x, x, x⟩

/-- The bus lines in the order an operation accesses them (spec/20_memory.md R36). -/
def busOrder : List (Fin 8) := [0, 1, 2, 3, 4, 5, 6, 7]

/-! ## The bit-to-line map (spec/30_encoding.md R51, R52) -/

/-- The bit of `v` that travels on line `L[i]`: bit `7 - i` (R51). -/
def busBit (v : Byte) (i : Fin 8) : Level := v.getLsbD (7 - i.val)

/-- The levels that put `v` on the bus (R51). -/
def linesOfByte (v : Byte) : Lines Level :=
  ⟨busBit v 0, busBit v 1, busBit v 2, busBit v 3, busBit v 4, busBit v 5, busBit v 6, busBit v 7⟩

/-- The 8-bit value read from the bus, `L[0]` the most significant bit (R52). -/
def byteOfLines (v : Lines Level) : Byte :=
  BitVec.ofBool v.l0 ++ BitVec.ofBool v.l1 ++ BitVec.ofBool v.l2 ++ BitVec.ofBool v.l3 ++
    BitVec.ofBool v.l4 ++ BitVec.ofBool v.l5 ++ BitVec.ofBool v.l6 ++ BitVec.ofBool v.l7

/-! ## Levels (spec/10_state.md R24) -/

/-- The level of a bus line with this direction, latch and outside drive; `none` is a draw: contention, or floating (R24). -/
def busLevel : PinDir → Level → Drive → Option Level
  | .output, latch, .z => some latch
  | .output, latch, .d0 => if latch = false then some latch else none
  | .output, latch, .d1 => if latch = true then some latch else none
  | .input, _, .d0 => some false
  | .input, _, .d1 => some true
  | .input, _, .z => none

/-- The level of the enable line (R24): pulled up where nothing drives it, a draw where there is no pull-up. -/
def enableLevel (pullUp : Bit) : Drive → Option Level
  | .d0 => some false
  | .d1 => some true
  | .z => if pullUp then some true else none

/-- `LEVEL(l)` as the pins now stand (R24); `none` is a draw. A reserved index has no level; it is given none. -/
def State.level (s : State) : Line → Option Level
  | .bus i => busLevel (s.mode.get i) (s.olat.get i) (s.xBus.get i)
  | .clk => some s.xClk
  | .en => enableLevel s.enpu s.xEn
  | .reserved _ => none

/-! ## The bits of a format S word (spec/30_encoding.md R58) -/

/-- The enable value MC holds, the `s` bit of the word: 0 when `MCS = Idle` (R58). -/
def State.held (s : State) : Bit :=
  match s.mcs with
  | .idle => false
  | .sampled sb => sb
  | .cfg sb _ => sb

/-- The word's `s` and `d` are the copies they must be (R58). -/
def State.agrees (s : State) (sb db : Bit) : Bool := sb == s.held && db == s.dir

/-- The direction a flag value stands for (R49). -/
def pinDirOf (d : Bit) : PinDir := if d then .output else .input

/-- The mode operand of a CFGDIR request that sets this direction (R72). -/
def pinModeOf : PinDir → PinMode
  | .input => .input
  | .output => .output

/-! ## The bytes of the trace (spec/30_encoding.md R53 to R55) -/

/-- The tag of a trace line: a write event or a read event (R53). -/
inductive Tag where
  | w
  | r
  deriving DecidableEq, Repr

/-- The ASCII code of a tag (R55). -/
def Tag.byte : Tag → Byte
  | .w => 0x77
  | .r => 0x72

/-- `'1'` or `'0'` (R55: `ck = 0x30 + v[k]`). -/
def bitChar (b : Bit) : Byte := if b then 0x31 else 0x30

/-- `LINE(v, t)` (R53): eight characters, most significant bit first, a space, the tag, the line end. -/
def traceLine (nl : List Byte) (v : Byte) (t : Tag) : List Byte :=
  [bitChar (v.getLsbD 7), bitChar (v.getLsbD 6), bitChar (v.getLsbD 5), bitChar (v.getLsbD 4),
    bitChar (v.getLsbD 3), bitChar (v.getLsbD 2), bitChar (v.getLsbD 1), bitChar (v.getLsbD 0),
    0x20, t.byte] ++ nl

/-- The banner line (R54): `"RUNNING" ++ NL`. -/
def bannerLine (nl : List Byte) : List Byte :=
  [0x52, 0x55, 0x4E, 0x4E, 0x49, 0x4E, 0x47] ++ nl

end Sys2Proof.Machine
end

