-- ==== Sys2Proof/Machine/Flags.lean ====
section
/-! DEFINITION. The flag `DIR`, the hidden flag `PEND` and the control state `MCS`: what the operations compute for them and
the conditions under which each operation is enabled. -/

namespace Sys2Proof.Machine

/-- The logical value of the enable line from its level: active low (spec/30_encoding.md R50). -/
def logicalEnable (lvl : Level) : Bit := !lvl

/-- A rising edge of the clock: the level was 0 and becomes 1 (spec/43_environment.md R92). -/
def risingEdge (old new : Level) : Bool := !old && new

/-- MC.SAMPLE is enabled: `RUN = 1`, `MCS = Idle` (spec/40_mode_controller.md R66). -/
def State.sampleEnabled (s : State) : Bool := s.run && s.mcs == .idle

/-- MC.COMMIT of the sample `sb` under the flag `db` is enabled: `RUN = 1`, `MCS = Sampled(sb)`, `DIR = db` (R68, R69). -/
def State.commitEnabled (s : State) (sb db : Bit) : Bool :=
  s.run && s.mcs == .sampled sb && s.dir == db

/-- A commit that changes the direction is one operation only under `group` (R70, R71). -/
def State.turnEnabled (s : State) (sb db : Bit) : Bool :=
  s.commitEnabled sb db && s.params.granularity == .group

/-- MC.CFG on line `i` is the next operation of MC: `MCS = Sampled(s)` with `s != DIR` and `i = 0`, or `MCS = Cfg(s, i)` with
`i` in 1..7 (R72). -/
def State.cfgTurn (s : State) (i : Fin 8) : Bool :=
  match s.mcs with
  | .idle => false
  | .sampled sb => sb != s.dir && i == 0
  | .cfg _ k => i != 0 && k == i.val

/-- MC.CFG is enabled (R72); that it exists under `per_line` only is checked before (spec/30_encoding.md R62). -/
def State.cfgEnabled (s : State) (i : Fin 8) (sb db : Bit) : Bool :=
  s.run && s.cfgTurn i && s.agrees sb db

/-- MC.FLAG is enabled: `RUN = 1`, `MCS = Cfg(s, 8)` (R73). -/
def State.flagEnabled (s : State) (sb db : Bit) : Bool :=
  s.run && s.mcs == .cfg s.held 8 && s.agrees sb db

/-- An EH operation under the flag `db` is enabled: `RUN = 1`, `PEND = 1`, `DIR = db` (spec/41_edge_handler.md R75 to R77). -/
def State.serviceEnabled (s : State) (sb db : Bit) : Bool :=
  s.run && s.pend && s.agrees sb db

end Sys2Proof.Machine
end

