-- ==== Sys2Proof/Machine/Ops.lean ====
section
/-! DEFINITION. The shared operations: one update per element of State, the primitives of the GPIO bank and of the trace sink
(spec/42_gpio_trace_primitives.md), the composites the operations are written from, and the entry into and the return from the
one interrupt (spec/60_exceptions.md R101, R102). -/

namespace Sys2Proof.Machine

/-! ## One update per element -/

def State.setRun (s : State) (b : Bit) : State := { s with run := b }
def State.setDir (s : State) (b : Bit) : State := { s with dir := b }
def State.setCnt (s : State) (v : Byte) : State := { s with cnt := v }
def State.setMode (s : State) (i : Fin 8) (d : PinDir) : State := { s with mode := s.mode.set i d }
def State.setOlat (s : State) (i : Fin 8) (b : Level) : State := { s with olat := s.olat.set i b }
def State.setLatches (s : State) (v : Byte) : State := { s with olat := linesOfByte v }
def State.setEnpu (s : State) (b : Bit) : State := { s with enpu := b }
def State.setXBus (s : State) (i : Fin 8) (x : Drive) : State := { s with xBus := s.xBus.set i x }
def State.setXClk (s : State) (b : Level) : State := { s with xClk := b }
def State.setXEn (s : State) (x : Drive) : State := { s with xEn := x }
def State.setPend (s : State) (b : Bit) : State := { s with pend := b }
def State.setMcs (s : State) (m : Mcs) : State := { s with mcs := m }
/-- TRPUT's effect (R85): one byte at the end of the trace. -/
def State.putByte (s : State) (b : Byte) : State := { s with trace := s.trace ++ [b] }
/-- The request is noted at the end of the GPIO traffic (log 8). -/
def State.addCall (s : State) (c : GpioCall) : State := { s with gpio := s.gpio ++ [c] }
/-- A draw has been taken (log 5). -/
def State.nextDraw (s : State) : State := { s with draws := s.draws + 1 }
/-- The free schedule has taken a step (log 6). -/
def State.nextTick (s : State) : State := { s with ticks := s.ticks + 1 }
/-- The record of the bus since the edge (log 28). -/
def State.setEdgeBus (s : State) (x : Option (Lines Drive)) : State := { s with edgeBus := x }
def State.setScript (s : State) (r : List Request) : State := { s with script := r }

/-! ## The requests the block makes: legal by construction, never failing (R88) -/

/-- CFGDIR on a bus line (R82): the mode is set, the latch is not. -/
def cfgBus (i : Fin 8) (d : PinDir) (s : State) : State :=
  (s.setMode i d).addCall (.cfgdir (.bus i) (pinModeOf d))

/-- CFGDIR(8, IN) (R82): nothing, the clock is always an input. -/
def cfgClock (s : State) : State := s.addCall (.cfgdir .clk .input)

/-- CFGDIR(9, IN_PULLUP) (R82): the pull-up is switched on. -/
def cfgEnable (s : State) : State := (s.setEnpu true).addCall (.cfgdir .en .inputPullup)

/-- RDLVL (R83): the level of the line, where it is a draw a fresh free bit (spec/10_state.md R24), and the state with the
request noted. -/
def readLevel (ln : Line) (s : State) : Level × State :=
  match s.level ln with
  | some b => (b, s.addCall (.rdlvl ln b))
  | none => (Config.freeBit s.draws, s.nextDraw.addCall (.rdlvl ln (Config.freeBit s.draws)))

/-- WRLVL (R84): the latch is set, the mode is not. -/
def writeLevel (i : Fin 8) (b : Level) (s : State) : State :=
  (s.setOlat i b).addCall (.wrlvl (.bus i) b)

/-! ## Composites -/

/-- `for i in 0..7`, ascending (spec/00_scope.md R9, spec/20_memory.md R36). -/
def forLines (f : Fin 8 → State → State) (s : State) : State :=
  busOrder.foldl (fun s i => f i s) s

/-- CFGDIR on all eight bus lines. -/
def turnBus (d : PinDir) (s : State) : State := forLines (fun i => cfgBus i d) s

/-- WRLVL on all eight bus lines: the value `v`, most significant bit onto `L[0]` (R51). -/
def driveBus (v : Byte) (s : State) : State := forLines (fun i => writeLevel i (busBit v i)) s

/-- RDLVL on the listed lines, in order. -/
def readLines : List (Fin 8) → Lines Level → State → Lines Level × State
  | [], acc, s => (acc, s)
  | i :: is, acc, s =>
    let (b, s) := readLevel (.bus i) s
    readLines is (acc.set i b) s

/-- The eight bus lines sampled in ascending order into an 8-bit value (R52, R77). -/
def sampleBus (s : State) : Byte × State :=
  let (ls, s) := readLines busOrder (Lines.fill false) s
  (byteOfLines ls, s)

/-- TRPUT of each byte in order (R85). -/
def putBytes (bs : List Byte) (s : State) : State := bs.foldl State.putByte s

/-- TRLINE (R87): one trace line. -/
def putLine (v : Byte) (t : Tag) (s : State) : State := putBytes (traceLine s.params.nl v t) s

/-- `(v + 1) mod 256` (spec/41_edge_handler.md R78). -/
def increment (v : Byte) : Byte := v + 1

/-! ## The interrupt (spec/60_exceptions.md) -/

/-- Entry (R101): the pending edge is consumed, and with it the record of the bus since it arrived (log 28). Nothing is saved but
`MCS`, which is kept by not being written. -/
def interruptEntry (s : State) : State := (s.setPend false).setEdgeBus none

/-- Return (R102): nothing is restored because nothing was changed; MC goes on from the `MCS` it had. -/
def interruptReturn (s : State) : State := s

/-- The clock line is given the level `b` (spec/43_environment.md R90, R92): a rising edge while `RUN = 1` becomes pending, or
is refused where one is pending already. The bus as it stands at the edge is noted (log 28). -/
def setClock (b : Level) (s : State) : Out :=
  if s.run && risingEdge s.xClk b then
    if s.pend then .refused .edgeOverrun else .next (((s.setXClk b).setPend true).setEdgeBus (some s.xBus))
  else .next (s.setXClk b)

/-! ## Guards -/

/-- `requires c` (spec/00_scope.md R9): elsewhere the agent has no such step (spec/30_encoding.md R62). -/
def requires (c : Bool) (s : State) : Out := if c then .next s else .refused .notEnabled

end Sys2Proof.Machine
end

