-- ==== Sys2Proof/Machine/EdgeHandler.lean ====
section
/-! DEFINITION. The Edge Handler's operations (spec/41_edge_handler.md R75 to R77), between the interrupt's entry and return
(spec/60_exceptions.md R101, R102). -/

namespace Sys2Proof.Machine

/-- The body of the Drive state (R76): count, write the eight lines, send the trace line, all with the new value. -/
def handleWrite (s : State) : State :=
  let s := s.setCnt (increment s.cnt)
  putLine s.cnt .w (driveBus s.cnt s)

/-- The body of the Sense state (R77): sample the eight lines, send the trace line. -/
def handleRead (s : State) : State :=
  let (v, s) := sampleBus s
  putLine v .r s

/-- EH.W (R76). -/
def execEhW (sb : Bit) (s : State) : Out :=
  requires (s.serviceEnabled sb true) (interruptReturn (handleWrite (interruptEntry s)))

/-- EH.R (R77). -/
def execEhR (sb : Bit) (s : State) : Out :=
  requires (s.serviceEnabled sb false) (interruptReturn (handleRead (interruptEntry s)))

end Sys2Proof.Machine
end

