-- ==== Sys2Proof/Machine/Environment.lean ====
section
/-! DEFINITION. The environment's one operation, ENV.SET (spec/43_environment.md R90 to R92). -/

namespace Sys2Proof.Machine

/-- A bus line is given a drive (R90). From then on the bus is not as it stood at a pending edge (log 28). -/
def setBusLine (i : Fin 8) (x : Drive) (s : State) : State := (s.setXBus i x).setEdgeBus none

/-- ENV.SET (R90): enabled always; the clock released and the indices above 9 are reserved (spec/30_encoding.md R61). -/
def execEnvSet (ln : Line) (x : Drive) (s : State) : Out :=
  match ln, x with
  | .bus i, x => .next (setBusLine i x s)
  | .en, x => .next (s.setXEn x)
  | .clk, .d0 => setClock false s
  | .clk, .d1 => setClock true s
  | .clk, .z => .refused .reservedWord
  | .reserved _, _ => .refused .reservedWord

end Sys2Proof.Machine
end

