-- ==== Sys2Proof/Machine/ModeController.lean ====
section
/-! DEFINITION. The Mode Controller's operations (spec/40_mode_controller.md R66 to R73). -/

namespace Sys2Proof.Machine

/-- The effect of MC.SAMPLE (R66): one read of the enable line, its complement kept in `MCS`. -/
def takeSample (s : State) : State :=
  let (lvl, s) := readLevel .en s
  s.setMcs (.sampled (logicalEnable lvl))

/-- MC.SAMPLE (R66). -/
def execMcSample (sb db : Bit) (s : State) : Out :=
  requires (s.sampleEnabled && s.agrees sb db) (takeSample s)

/-- The effect of a commit that finds the enable value unchanged (R69). -/
def commitUnchanged (s : State) : State := s.setMcs .idle

/-- The effect of a commit that turns the bus (R70, R71): the eight lines, then the flag. -/
def commitTurn (d : Bit) (s : State) : State :=
  ((turnBus (pinDirOf d) s).setDir d).setMcs .idle

/-- MC.COMMIT.NOP, word `01000000` (R69). -/
def execMcCommitNopSense (s : State) : Out :=
  requires (s.commitEnabled false false) (commitUnchanged s)

/-- MC.COMMIT.NOP, word `01000011` (R69). -/
def execMcCommitNopDrive (s : State) : Out :=
  requires (s.commitEnabled true true) (commitUnchanged s)

/-- MC.COMMIT.DRV (R70). -/
def execMcCommitDrv (s : State) : Out :=
  requires (s.turnEnabled true false) (commitTurn true s)

/-- MC.COMMIT.SNS (R71). -/
def execMcCommitSns (s : State) : Out :=
  requires (s.turnEnabled false true) (commitTurn false s)

/-- The effect of MC.CFG (R72). -/
def turnOneLine (ln : Fin 8) (sb : Bit) (s : State) : State :=
  (cfgBus ln (pinDirOf sb) s).setMcs (.cfg sb (ln.val + 1))

/-- MC.CFG (R72); under `group` its word is reserved (spec/30_encoding.md R62). -/
def execMcCfg (ln : Fin 8) (sb db : Bit) (s : State) : Out :=
  if s.params.granularity = .perLine then
    requires (s.cfgEnabled ln sb db) (turnOneLine ln sb s)
  else .refused .reservedWord

/-- The effect of MC.FLAG (R73). -/
def commitFlag (sb : Bit) (s : State) : State := (s.setDir sb).setMcs .idle

/-- MC.FLAG (R73); under `group` its word is reserved (spec/30_encoding.md R62). -/
def execMcFlag (sb db : Bit) (s : State) : Out :=
  if s.params.granularity = .perLine then
    requires (s.flagEnabled sb db) (commitFlag sb s)
  else .refused .reservedWord

end Sys2Proof.Machine
end

