-- ==== Sys2Proof/Machine/Primitives.lean ====
section
/-! DEFINITION. The primitives as requests of their own (spec/42_gpio_trace_primitives.md R81 to R85): total, refusing what
spec/30_encoding.md R59 and R60 do not list. The block's operations make the same requests through Machine/Ops.lean (log 7). -/

namespace Sys2Proof.Machine

/-- CFGDIR (R82). -/
def execCfgdir (ln : Line) (md : PinMode) (s : State) : Out :=
  match ln, md with
  | .bus i, .input => .next (cfgBus i .input s)
  | .bus i, .output => .next (cfgBus i .output s)
  | .clk, .input => .next (cfgClock s)
  | .en, .inputPullup => .next (cfgEnable s)
  | _, _ => .refused .reservedRequest

/-- RDLVL (R83): the level answered is the last entry of `gpio` (log 8). -/
def execRdlvl (ln : Line) (s : State) : Out :=
  match ln with
  | .bus i => .next (readLevel (.bus i) s).2
  | .en => .next (readLevel .en s).2
  | .clk => .refused .reservedRequest
  | .reserved _ => .refused .reservedRequest

/-- WRLVL (R84). -/
def execWrlvl (ln : Line) (b : Bit) (s : State) : Out :=
  match ln with
  | .bus i => .next (writeLevel i b s)
  | .clk => .refused .reservedRequest
  | .en => .refused .reservedRequest
  | .reserved _ => .refused .reservedRequest

/-- TRPUT (R85); a byte outside the legal set is reserved (spec/30_encoding.md R60). -/
def execTrput (b : Byte) (s : State) : Out :=
  if legalTraceByte s.params.nl b then .next (s.putByte b) else .refused .reservedWord

end Sys2Proof.Machine
end

