-- ==== Sys2Proof/Machine/StartUp.lean ====
section
/-! DEFINITION. The start-up operation INIT (spec/70_reset_and_hazards.md R114, R115). -/

namespace Sys2Proof.Machine

/-- The effect of INIT, in the order of R114. -/
def startUp (s : State) : State :=
  let s := ((s.setDir false).setCnt s.params.cntInit).setLatches s.params.olatInit
  let s := cfgEnable (cfgClock (turnBus .input s))
  let s := putBytes (bannerLine s.params.nl) (s.setMcs .idle)
  ((s.setPend false).setEdgeBus none).setRun true

/-- INIT (R114): enabled when `RUN = 0`; its `s` and `d` bits are accepted whatever they are (spec/30_encoding.md R58). -/
def execInit (_sb _db : Bit) (s : State) : Out :=
  requires (!s.run) (startUp s)

end Sys2Proof.Machine
end

