-- ==== Sys2Proof/Machine/Dispatch.lean ====
section
/-! DEFINITION. The meaning of every operation, one arm per constructor. -/

namespace Sys2Proof.Machine

def exec (i : Instr) (s : State) : Host.Outcome State Fault Refusal :=
  match i with
  | .init sb db => Sys2Proof.Machine.execInit sb db s
  | .mcSample sb db => Sys2Proof.Machine.execMcSample sb db s
  | .mcCommitNopSense => Sys2Proof.Machine.execMcCommitNopSense s
  | .mcCommitNopDrive => Sys2Proof.Machine.execMcCommitNopDrive s
  | .mcCommitDrv => Sys2Proof.Machine.execMcCommitDrv s
  | .mcCommitSns => Sys2Proof.Machine.execMcCommitSns s
  | .ehR sb => Sys2Proof.Machine.execEhR sb s
  | .ehW sb => Sys2Proof.Machine.execEhW sb s
  | .mcCfg ln sb db => Sys2Proof.Machine.execMcCfg ln sb db s
  | .mcFlag sb db => Sys2Proof.Machine.execMcFlag sb db s
  | .cfgdir ln md => Sys2Proof.Machine.execCfgdir ln md s
  | .rdlvl ln => Sys2Proof.Machine.execRdlvl ln s
  | .wrlvl ln b => Sys2Proof.Machine.execWrlvl ln b s
  | .trput b => Sys2Proof.Machine.execTrput b s
  | .envSet ln x => Sys2Proof.Machine.execEnvSet ln x s

end Sys2Proof.Machine
end

