-- ==== Sys2Proof/Machine/Fetch.lean ====
section
/-! DEFINITION. Which operation happens next. The block has no program counter (spec/10_state.md R23): the schedule is the
list of words a test program gives (spec/30_encoding.md R63) and, when that is empty, a free choice among the agents
(spec/10_state.md R29, spec/20_memory.md R44, spec/60_exceptions.md R100; log 6). -/

namespace Sys2Proof.Machine

/-- The one MC operation that `MCS` enables (spec/40_mode_controller.md R65), with the bits its word must carry (R58). -/
def mcNext (s : State) : Option Instr :=
  if s.run = false then none
  else
    match s.mcs with
    | .idle => some (.mcSample s.held s.dir)
    | .sampled sb =>
      if sb = s.dir then some (commitVariant sb s.dir)
      else
        match s.params.granularity with
        | .group => some (commitVariant sb s.dir)
        | .perLine => some (.mcCfg 0 sb s.dir)
    | .cfg sb k =>
      match s.params.granularity with
      | .group => none
      | .perLine =>
        if k = 8 then some (.mcFlag sb s.dir)
        else if h : 1 ≤ k ∧ k < 8 then some (.mcCfg ⟨k, h.2⟩ sb s.dir)
        else none

/-- The EH operation a pending edge enables (spec/41_edge_handler.md R75). -/
def ehNext (s : State) : Option Instr :=
  if s.run && s.pend then some (edgeVariant s.held s.dir) else none

/-- What the block does if MC's loop has the turn: INIT before start-up has completed, MC's operation afterwards
(spec/10_state.md R12, spec/60_exceptions.md R113). -/
def blockNext (s : State) : Option Instr :=
  if s.run then mcNext s else some (.init false false)

/-- The operation of an act of the environment (spec/43_environment.md R90). -/
def envInstr : EnvAct → Instr
  | .bus i x => .envSet (.bus i) x
  | .clk high => .envSet .clk (if high then .d1 else .d0)
  | .en x => .envSet .en x

/-- The operation that happens if the agent `a` has the turn, doing `e` if it is the environment. Where the Edge Handler is
named and no edge is pending, MC goes on. -/
def chosen (a : Agent) (e : EnvAct) (s : State) : Option Instr :=
  match a with
  | .environment => some (envInstr e)
  | .edgeHandler => (ehNext s).or (blockNext s)
  | .modeController => blockNext s

/-- The free schedule's next operation. -/
def scheduled (s : State) : Option Instr :=
  chosen (Config.freeAgent s.ticks) (Config.freeEnv s.ticks) s

/-- The next operation, and the state it happens in. A reserved word is refused (spec/30_encoding.md R62). -/
def fetch (s : State) : Except Refusal (Instr × State) :=
  match s.script with
  | r :: rest =>
    match decode s.params r.iface r.word with
    | .ok i => .ok (i, s.setScript rest)
    | .error _ => .error .reservedWord
  | [] =>
    match scheduled s with
    | some i => .ok (i, s.nextTick)
    | none => .error .notEnabled

/-! ## Loading one instruction for the host (log 9)

An operation of format S is not fetched at an address: the control state selects it (spec/10_state.md R23). So that the next
step runs exactly the operation given, the control state that selects it is set, where it does not stand so already. -/

/-- `MCS` with the held enable value `sb`, unchanged where it holds that value already. -/
def holding (sb : Bit) (s : State) : State :=
  if s.held = sb then s else s.setMcs (.sampled sb)

/-- The launch parameter `MC_GRANULARITY` chosen. -/
def launchedWith (g : Granularity) (s : State) : State :=
  { s with params := { s.params with granularity := g } }

/-- The control state that selects the operation. -/
def selecting (i : Instr) (s : State) : State :=
  match i with
  | .init _ _ => s.setRun false
  | .mcSample _ db => ((s.setRun true).setMcs .idle).setDir db
  | .mcCommitNopSense => ((s.setRun true).setMcs (.sampled false)).setDir false
  | .mcCommitNopDrive => ((s.setRun true).setMcs (.sampled true)).setDir true
  | .mcCommitDrv => launchedWith .group (((s.setRun true).setMcs (.sampled true)).setDir false)
  | .mcCommitSns => launchedWith .group (((s.setRun true).setMcs (.sampled false)).setDir true)
  | .ehR sb => holding sb (((s.setRun true).setPend true).setDir false)
  | .ehW sb => holding sb (((s.setRun true).setPend true).setDir true)
  | .mcCfg ln sb db =>
    launchedWith .perLine
      (((s.setRun true).setMcs (if ln = 0 then .sampled sb else .cfg sb ln.val)).setDir db)
  | .mcFlag sb db => launchedWith .perLine (((s.setRun true).setMcs (.cfg sb 8)).setDir db)
  | .cfgdir _ _ => s
  | .rdlvl _ => s
  | .wrlvl _ _ => s
  | .trput _ => s
  | .envSet _ _ => s

/-- The state with the word placed first on the schedule, and the control state that selects its operation. A word that is
legal on no interface is placed as the reserved word `S FF`, so that the next step refuses it. -/
def loaded (w : Nat) (s : State) : State :=
  match tableRequest w with
  | none => s.setScript ({ iface := .s, word := 0xFF } :: s.script)
  | some (f, b) =>
    let s := s.setScript ({ iface := f, word := b } :: s.script)
    match decode tableParams f b with
    | .ok i => selecting i s
    | .error _ => s

end Sys2Proof.Machine
end

