-- ==== Sys2Proof/Machine/Step.lean ====
section
/-! DEFINITION. One step of the transition system: one atomic operation of one agent (spec/00_scope.md R7, spec/20_memory.md R37, R41). -/

namespace Sys2Proof.Machine

/-- The next operation is fetched and happens. -/
def step (s : State) : Host.Outcome State Fault Refusal :=
  match fetch s with
  | .ok (i, t) => exec i t
  | .error r => .refused r

/-- The state in which the very next step runs the table word `w` (log 9). Every row is one byte wide, so `_nbits` says nothing more. -/
def State.withFetchWord (s : State) (_nbits w : Nat) : State := loaded w s

end Sys2Proof.Machine
end

