-- ==== Sys2Proof/Machine/Script.lean ====
section
/-! DEFINITION. The script notation for test programs (spec/30_encoding.md R63) and its pseudo-operations (R64). -/

namespace Sys2Proof.Machine

/-- One script line, one operation (R63). -/
inductive ScriptLine where
  | reset
  | sample
  | commit
  | cfg (ln : Fin 8)
  | flag
  | svc
  | en (x : Drive)
  | clk (high : Level)
  | line (ln : Fin 8) (x : Drive)
  deriving DecidableEq, Repr

/-- The operation of a line from this state: the variant and the `s` and `d` bits follow from the state (R63, R58). -/
def ScriptLine.instr (s : State) : ScriptLine → Instr
  | .reset => .init false false
  | .sample => .mcSample s.held s.dir
  | .commit => commitVariant s.held s.dir
  | .cfg ln => .mcCfg ln s.held s.dir
  | .flag => .mcFlag s.held s.dir
  | .svc => edgeVariant s.held s.dir
  | .en x => .envSet .en x
  | .clk high => .envSet .clk (if high then .d1 else .d0)
  | .line ln x => .envSet (.bus ln) x

/-- The word of a line (R63). -/
def ScriptLine.request (s : State) (l : ScriptLine) : Request :=
  { iface := (l.instr s).iface, word := encode (l.instr s) }

/-- One line happens: its word is scheduled next, and one step is taken. -/
def runLine (l : ScriptLine) (s : State) : Out := step (s.setScript (l.request s :: s.script))

/-- `a`, then `f` where `a` answers a next state. -/
def andThen (a : Out) (f : State → Out) : Out :=
  match a with
  | .next s => f s
  | .fault r => .fault r
  | .refused r => .refused r

/-- The lines in order. -/
def runLines : List ScriptLine → State → Out
  | [], s => .next s
  | l :: ls, s => andThen (runLine l s) (runLines ls)

/-- What follows `SAMPLE` in `POLL` (R64). -/
def pollRest (s : State) : List ScriptLine :=
  match s.params.granularity with
  | .group => [.commit]
  | .perLine => if s.held = s.dir then [.commit] else busOrder.map .cfg ++ [.flag]

/-- A script item: a line, or a pseudo-operation (R64). -/
inductive ScriptItem where
  | line (l : ScriptLine)
  | poll
  | bus (x : Lines Drive)
  | edge
  | tick
  deriving DecidableEq, Repr

/-- An item happens. `EDGE` requires the clock low before; `TICK` requires that and `PEND = 0` (R64). -/
def runItem (it : ScriptItem) (s : State) : Out :=
  match it with
  | .line l => runLine l s
  | .poll => andThen (runLine .sample s) fun t => runLines (pollRest t) t
  | .bus x => runLines (busOrder.map fun i => .line i (x.get i)) s
  | .edge => andThen (requires (!s.xClk) s) (runLine (.clk true))
  | .tick => andThen (requires (!s.xClk && !s.pend) s) (runLines [.clk true, .svc, .clk false])

/-- The items in order. -/
def runScript : List ScriptItem → State → Out
  | [], s => .next s
  | it :: rest, s => andThen (runItem it s) (runScript rest)

end Sys2Proof.Machine
end

