-- ==== Sys2Proof/Safety.lean ====
section
/-! DEFINITION. The terms claims are stated in: invariants, the environment's obligations, the history a trace tells, and
what counts as a safe run. -/

namespace Sys2Proof.Machine

/-! ## Answers -/

/-- The next state an answer holds. -/
def nextOf (a : Out) : Option State :=
  match a with
  | .next s => some s
  | .fault _ => none
  | .refused _ => none

/-- The refusal an answer holds: the sticky mark of spec/60_exceptions.md R106. -/
def markOf (a : Out) : Option Refusal :=
  match a with
  | .next _ => none
  | .fault _ => none
  | .refused r => some r

/-- The operations in order, each from the state the one before left (spec/20_memory.md R41). -/
def execAll : List Instr → State → Out
  | [], s => .next s
  | i :: is, s => andThen (exec i s) (execAll is)

/-! ## The spec's tuple -/

/-- Exactly the tuple of spec/10_state.md R11. -/
structure Elements where
  run : Bit
  dir : Bit
  cnt : Byte
  mode : Lines PinDir
  olat : Lines Level
  enpu : Bit
  xBus : Lines Drive
  xClk : Level
  xEn : Drive
  pend : Bit
  mcs : Mcs
  trace : List Byte
  deriving DecidableEq, Repr

/-- The tuple of R11 within a state: everything but the parameters and the model's own fields. -/
def State.elements (s : State) : Elements :=
  { run := s.run, dir := s.dir, cnt := s.cnt, mode := s.mode, olat := s.olat, enpu := s.enpu, xBus := s.xBus,
    xClk := s.xClk, xEn := s.xEn, pend := s.pend, mcs := s.mcs, trace := s.trace }

end Sys2Proof.Machine

namespace Sys2Proof

/-! ## Agents -/

/-- The operations of the Mode Controller (R65). -/
def Instr.byModeController : Instr → Bool
  | .init _ _ => false
  | .mcSample _ _ => true
  | .mcCommitNopSense => true
  | .mcCommitNopDrive => true
  | .mcCommitDrv => true
  | .mcCommitSns => true
  | .ehR _ => false
  | .ehW _ => false
  | .mcCfg _ _ _ => true
  | .mcFlag _ _ => true
  | .cfgdir _ _ => false
  | .rdlvl _ => false
  | .wrlvl _ _ => false
  | .trput _ => false
  | .envSet _ _ => false

/-- The operations of the Edge Handler (R75). -/
def Instr.byEdgeHandler : Instr → Bool
  | .init _ _ => false
  | .mcSample _ _ => false
  | .mcCommitNopSense => false
  | .mcCommitNopDrive => false
  | .mcCommitDrv => false
  | .mcCommitSns => false
  | .ehR _ => true
  | .ehW _ => true
  | .mcCfg _ _ _ => false
  | .mcFlag _ _ => false
  | .cfgdir _ _ => false
  | .rdlvl _ => false
  | .wrlvl _ _ => false
  | .trput _ => false
  | .envSet _ _ => false

/-- The operations that end a poll (R65): each leaves `MCS = Idle`. -/
def Instr.endsPoll : Instr → Bool
  | .init _ _ => false
  | .mcSample _ _ => false
  | .mcCommitNopSense => true
  | .mcCommitNopDrive => true
  | .mcCommitDrv => true
  | .mcCommitSns => true
  | .ehR _ => false
  | .ehW _ => false
  | .mcCfg _ _ _ => false
  | .mcFlag _ _ => true
  | .cfgdir _ _ => false
  | .rdlvl _ => false
  | .wrlvl _ _ => false
  | .trput _ => false
  | .envSet _ _ => false

/-- The operations that are steps of an agent (R7): those of formats S and E. A primitive is "not a step of its own"
(spec/42_gpio_trace_primitives.md preamble): alone, it is a request no operation of the block makes there (log 7). -/
def Instr.isOperation (i : Instr) : Bool := i.iface == .s || i.iface == .e

end Sys2Proof

namespace Sys2Proof.Machine

/-- Every word of the test program stands on the interface of an agent's operation. -/
def State.operationsOnly (s : State) : Prop := ∀ r ∈ s.script, r.iface = .s ∨ r.iface = .e

/-! ## Directions (spec/10_state.md R25) -/

/-- INV1: all eight lines have one direction. -/
def State.inv1 (s : State) : Prop := ∀ i j : Fin 8, s.mode.get i = s.mode.get j

/-- INV2: `DIR = 1` exactly when every line is `OUT`, `DIR = 0` exactly when every line is `IN`. -/
def State.inv2 (s : State) : Prop :=
  (s.dir = true ↔ ∀ i : Fin 8, s.mode.get i = .output) ∧ (s.dir = false ↔ ∀ i : Fin 8, s.mode.get i = .input)

/-- What R25 says of every moment after INIT, both readings of `MC_GRANULARITY` together: with `MCS` `Idle` or `Sampled(s)`
every line has the direction of the flag; with `Cfg(s, k)`, only under `per_line`, `s` differs from the flag and the first `k`
lines, `k` in 1..8, have the new direction, the rest the old. -/
def State.directionsAgree (s : State) : Prop :=
  match s.mcs with
  | .idle => ∀ i : Fin 8, s.mode.get i = pinDirOf s.dir
  | .sampled _ => ∀ i : Fin 8, s.mode.get i = pinDirOf s.dir
  | .cfg sb k =>
    s.params.granularity = .perLine ∧ 1 ≤ k ∧ k ≤ 8 ∧ sb ≠ s.dir ∧
      ∀ i : Fin 8, s.mode.get i = pinDirOf (if i.val < k then sb else s.dir)

/-- The invariant of R25: nothing is said before start-up has completed (R12); from then on the directions agree and the
pull-up is on (R17). -/
def State.directionInv (s : State) : Prop := s.run = true → s.directionsAgree ∧ s.enpu = true

/-! ## The history a trace tells (spec/30_encoding.md R56, spec/41_edge_handler.md R78) -/

/-- A serviced edge as its trace line shows it: the value and the tag. -/
structure Edge where
  value : Byte
  tag : Tag
  deriving DecidableEq, Repr

/-- The trace after INIT with these edges serviced, oldest first (R56). -/
def traceOf (nl : List Byte) (edges : List Edge) : List Byte :=
  bannerLine nl ++ edges.flatMap fun e => traceLine nl e.value e.tag

/-- The counter goes from `c` to `c'` over these edges: every write edge shows the counter's successor, a read edge leaves the
counter alone (R78). -/
def countsTo : Byte → List Edge → Byte → Prop
  | c, [], c' => c' = c
  | c, e :: es, c' =>
    match e.tag with
    | .w => e.value = c + 1 ∧ countsTo (c + 1) es c'
    | .r => countsTo c es c'

/-- The number of write edges. -/
def writeEdges (edges : List Edge) : Nat := edges.countP fun e => e.tag == .w

/-- The trace is empty before start-up has completed; afterwards it is the banner and one whole line per serviced edge, and the
counter is where the write lines say, counted from `CNT_INIT` (R22, R48, R56, R78). -/
def State.traceInv (s : State) : Prop :=
  (s.run = false → s.trace = []) ∧
    (s.run = true →
      ∃ edges : List Edge,
        s.trace = traceOf s.params.nl edges ∧ countsTo s.params.cntInit edges s.cnt)

/-- The counter as the trace tells it: nothing is traced before start-up; afterwards the trace is the banner and one whole line
per serviced edge, and `CNT = (CNT_INIT + n) mod 256` for the `n` write lines among them (R56, R78). -/
def State.counterInv (s : State) : Prop :=
  (s.run = false → s.trace = []) ∧
    (s.run = true →
      ∃ edges : List Edge,
        s.trace = traceOf s.params.nl edges ∧ s.cnt = BitVec.ofNat 8 (s.params.cntInit.toNat + writeEdges edges))

/-! ## The GPIO traffic (spec/40_mode_controller.md R74) -/

/-- The request reconfigures a bus line. -/
def GpioCall.isBusCfg : GpioCall → Bool
  | .cfgdir (.bus _) _ => true
  | _ => false

/-- How many CFGDIR requests on bus lines have been made. -/
def State.busCfgCalls (s : State) : Nat := s.gpio.countP GpioCall.isBusCfg

/-! ## The bus as an output (spec/43_environment.md R94) -/

/-- The eight levels seen from outside spell `v`, most significant bit on `L[0]`; no line's level is a draw. -/
def State.busShows (s : State) (v : Byte) : Prop := ∀ i : Fin 8, s.level (.bus i) = some (busBit v i)

/-! ## The environment's obligations (spec/43_environment.md R93)

EO1 and EO3 speak of what the environment does next, EO4 and EO5 of how it stands; along a run they are the predicates of "Safe
runs" below. EO2 holds by the type of `xClk`. EO6 is about the order of operations in a run. EO7, and EO3 inside the handler
itself, concern moments inside an atomic operation, which the model does not have (log 13). -/

/-- EO1: the operation brings no rising clock edge while one is pending. -/
def edgeSpaced (i : Instr) (s : State) : Prop :=
  ¬ (i = .envSet .clk .d1 ∧ s.run = true ∧ s.xClk = false ∧ s.pend = true)

/-- EO3: the operation moves no bus line while an edge waits for its service. Between two operations, the time "from a rising edge
until the EH operation that services it has completed" is the time with `PEND = 1` (R20, R76, R77). Any ENV.SET on lines 0..7 then
breaks it, also one to what the line has already. -/
def busHeld (i : Instr) (s : State) : Prop :=
  ¬ (s.run = true ∧ s.pend = true ∧ ∃ ln x, i = .envSet (.bus ln) x)

/-- EO3 for the pending edge, the premise of a claim about a sampled value (R93, R124): the outside applied `x` to the bus lines when
that edge arrived, and the environment has made no ENV.SET on a bus line since. It is read off the record of the machine's own past
(log 28); that the record says so of every run is the statement `EdgeBusRecordIsBusStability`. -/
def BusHeldSinceEdge (s : State) (x : Lines Drive) : Prop := s.edgeBus = some x

/-- The record of the bus stands only while its edge is pending, and then the outside applies what it says. -/
def State.edgeBusInv (s : State) : Prop := ∀ x, s.edgeBus = some x → s.run = true ∧ s.pend = true ∧ s.xBus = x

/-- EO4: no contention, `X[i] = Z` whenever `MODE[i] = OUT`. -/
def State.noContention (s : State) : Prop := ∀ i : Fin 8, s.mode.get i = .output → s.xBus.get i = .z

/-- EO5: every bus line is driven from outside. -/
def State.busDriven (s : State) : Prop := ∀ i : Fin 8, s.xBus.get i ≠ .z

/-! ## Polls -/

/-- `n` operations of the Mode Controller, each the one its control state enables (R65), with nothing in between. -/
def mcSteps : Nat → State → Out
  | 0, s => .next s
  | n + 1, s =>
    match mcNext s with
    | none => .refused .notEnabled
    | some i => andThen (exec i s) (mcSteps n)

/-! ## Safe runs -/

/-- The run of `k` steps carries no mark: "every claim takes "no mark" as a premise" (spec/60_exceptions.md R106). -/
def SafeRun (k : Nat) (s : State) : Prop := ∃ t, Sys2Proof.core.run k s = .next t

/-- Each of the first `k` steps from `s`, scheduled by a test program or freely, does an operation with `p` in its state. -/
def EachStepFor (k : Nat) (s : State) (p : Instr → State → Prop) : Prop :=
  ∀ j < k, ∀ t, Sys2Proof.core.run j s = .next t → ∀ i u, fetch t = .ok (i, u) → p i t

/-- EO1 along a run: no step brings a rising edge while one is pending. -/
def EdgesSpacedFor (k : Nat) (s : State) : Prop := EachStepFor k s edgeSpaced

/-- EO3 along a run: no step moves a bus line while an edge waits for its service. -/
def BusHeldFor (k : Nat) (s : State) : Prop := EachStepFor k s busHeld

/-- The step from `d` to `e` is a rising clock edge, which becomes pending (R92). -/
def EdgeArrives (d e : State) : Prop :=
  step d = .next e ∧ (∃ u, fetch d = .ok (.envSet .clk .d1, u)) ∧ d.run = true ∧ d.xClk = false ∧ d.pend = false

/-- The `k` steps from `e` service no edge. -/
def EdgeWaitsFor (k : Nat) (e : State) : Prop := EachStepFor k e fun i _ => i.byEdgeHandler = false

/-! ## Schedules and fairness (spec/20_memory.md R47, spec/70_reset_and_hazards.md R129)

A schedule is a parameter of a run and no state (spec/10_state.md R29). The machine's own, once no word is scheduled, is
`freeSchedule`; the definitions speak of any. Safety claims need no fairness; a claim of liveness takes `Schedule.Fair` as its
premise (log 6). -/

/-- One choice: the agent that has the turn, and what the environment does if it is that one. -/
structure Choice where
  agent : Agent
  act : EnvAct
  deriving DecidableEq, Repr

/-- The choice at every tick. -/
abbrev Schedule := Nat → Choice

/-- The schedule the step follows when no word is scheduled. -/
def freeSchedule : Schedule := fun n => { agent := Config.freeAgent n, act := Config.freeEnv n }

/-- The operation the schedule gives in this state. -/
def Schedule.next (c : Schedule) (s : State) : Option Instr := chosen (c s.ticks).agent (c s.ticks).act s

/-- One step under the schedule. -/
def Schedule.step (c : Schedule) (s : State) : Out :=
  match c.next s with
  | some i => exec i s.nextTick
  | none => .refused .notEnabled

/-- `n` steps under the schedule. -/
def Schedule.run (c : Schedule) : Nat → State → Out
  | 0, s => .next s
  | n + 1, s => andThen (c.step s) (c.run n)

/-- The run from `s` carries no mark, for ever (spec/60_exceptions.md R106). -/
def Schedule.NoMark (c : Schedule) (s : State) : Prop := ∀ n, ∃ t, c.run n s = .next t

/-- From step `n` of the run on, an operation with the property `p` happens. -/
def Schedule.HappensAfter (c : Schedule) (s : State) (n : Nat) (p : Instr → Bool) : Prop :=
  ∃ m t i u, n ≤ m ∧ c.run m s = .next t ∧ c.next t = some i ∧ p i = true ∧ exec i t.nextTick = .next u

/-- R47 (a): "While `RUN = 1`, MC takes steps for ever: from any state, a later state has a completed poll." -/
def Schedule.ModeControllerFair (c : Schedule) (s : State) : Prop :=
  ∀ n t, c.run n s = .next t → t.run = true → c.HappensAfter s n Instr.endsPoll

/-- R47 (b): "While `PEND = 1`, an EH operation eventually occurs." -/
def Schedule.EdgeHandlerFair (c : Schedule) (s : State) : Prop :=
  ∀ n t, c.run n s = .next t → t.run = true → t.pend = true → c.HappensAfter s n Instr.byEdgeHandler

/-- R47, R129: the run from `s` is fair: neither the poll loop nor the service of an edge is held up for ever. -/
def Schedule.Fair (c : Schedule) (s : State) : Prop := c.ModeControllerFair s ∧ c.EdgeHandlerFair s

/-- The machine's own run from `s`, when no word is scheduled, is fair. -/
def FairRun (s : State) : Prop := s.script = [] ∧ freeSchedule.Fair s

/-- The schedule gives each agent of the block the turn for ever. -/
def Schedule.TurnsForEver (c : Schedule) : Prop :=
  (∀ n, ∃ m, n ≤ m ∧ (c m).agent = .modeController) ∧ ∀ n, ∃ m, n ≤ m ∧ (c m).agent = .edgeHandler

end Sys2Proof.Machine
end

