-- ==== Sys2Proof/Certificates/Slice0/Obligations.lean ====
section
/-! DEFINITION. The statements for the provers. Each docstring names the rule of spec/ it formalises. "D<n>" names a row of
spec/92_eei_decisions.md, the spec's own choice and no word of its source; "log <n>" names a choice of the model. -/

open Sys2Proof Sys2Proof.Machine

/-! ## Start-up -/

/-- R114, R28 (the spec's choice: D5, D20): INIT, with any `s` and `d` bits, happens exactly while `RUN = 0`; it leaves every element at the value of R28's
table, appends the banner line, and makes its ten CFGDIR requests in order. `X` and the parameters are unchanged. -/
def Obligations.StartUpLeavesResetTable : Prop :=
  ∀ (s : State) (sb db : Bit),
    (∀ p, decode p .s (0b000000#6 ++ BitVec.ofBool sb ++ BitVec.ofBool db) = .ok (.init sb db)) ∧
    (s.run = false →
      ∃ t, exec (.init sb db) s = .next t ∧
        t = { s with
          run := true, dir := false, cnt := s.params.cntInit, mode := t.mode, olat := t.olat, enpu := true, pend := false
          mcs := .idle, edgeBus := none
          trace := s.trace ++ [0x52, 0x55, 0x4E, 0x4E, 0x49, 0x4E, 0x47] ++ s.params.nl
          gpio := s.gpio ++
            [.cfgdir (.bus 0) .input, .cfgdir (.bus 1) .input, .cfgdir (.bus 2) .input, .cfgdir (.bus 3) .input,
              .cfgdir (.bus 4) .input, .cfgdir (.bus 5) .input, .cfgdir (.bus 6) .input, .cfgdir (.bus 7) .input,
              .cfgdir .clk .input, .cfgdir .en .inputPullup] } ∧
        ∀ i : Fin 8, t.mode.get i = .input ∧ t.olat.get i = s.params.olatInit.getLsbD (7 - i.val)) ∧
    (s.run = true → exec (.init sb db) s = .refused .notEnabled)

/-- R118, R114 (the spec's choice: D20; logs 1, 2): from the power-on state with any launch parameters and any `X`, one INIT gives a trace that is exactly the
banner line and satisfies both invariants. -/
def Obligations.StartUpFromPowerOnGivesBanner : Prop :=
  ∀ (p : Params) (xb : Lines Drive) (xc : Level) (xe : Drive),
    ∃ t, exec (.init false false) { State.reset with params := p, xBus := xb, xClk := xc, xEn := xe } = .next t ∧
      t.trace = bannerLine p.nl ∧ t.run = true ∧ t.xBus = xb ∧ t.xClk = xc ∧ t.xEn = xe ∧ t.directionInv ∧ t.traceInv

/-! ## The Mode Controller -/

/-- R66: MC.SAMPLE. Where the level is a draw, the draw and its counter are log 5 (D12); the request and the level answered stand
in the model's record (log 8); a word whose `s` or `d` disagrees, or that the state does not enable, is refused by R62, R106 (D22,
D33; logs 11, 19). -/
def Obligations.SampleKeepsComplementOfEnableLevel : Prop :=
  ∀ (s : State) (sb db : Bit),
    (∀ p, decode p .s (0b001000#6 ++ BitVec.ofBool sb ++ BitVec.ofBool db) = .ok (.mcSample sb db)) ∧
    (s.run = true → s.mcs = .idle → sb = false → db = s.dir →
      ∃ lvl n,
        exec (.mcSample sb db) s =
            .next { s with mcs := .sampled (!lvl), draws := n, gpio := s.gpio ++ [.rdlvl .en lvl] } ∧
          (s.xEn = .d0 → lvl = false) ∧ (s.xEn = .d1 → lvl = true) ∧ (s.xEn = .z → s.enpu = true → lvl = true) ∧
          (s.level .en ≠ none → n = s.draws)) ∧
    (¬ (s.run = true ∧ s.mcs = .idle ∧ sb = false ∧ db = s.dir) → exec (.mcSample sb db) s = .refused .notEnabled)

/-- R69: both words of MC.COMMIT.NOP: only `MCS` is written and no CFGDIR request is made. Elsewhere the refusal is that of R62,
R106 (D22, D33; logs 11, 19). -/
def Obligations.CommitOfUnchangedEnableWritesMcsOnly : Prop :=
  ∀ s : State,
    (∀ p, decode p .s 0b01000000 = .ok .mcCommitNopSense ∧ decode p .s 0b01000011 = .ok .mcCommitNopDrive) ∧
    (s.run = true → s.mcs = .sampled false → s.dir = false → exec .mcCommitNopSense s = .next { s with mcs := .idle }) ∧
    (s.run = true → s.mcs = .sampled true → s.dir = true → exec .mcCommitNopDrive s = .next { s with mcs := .idle }) ∧
    (¬ (s.run = true ∧ s.mcs = .sampled false ∧ s.dir = false) → exec .mcCommitNopSense s = .refused .notEnabled) ∧
    (¬ (s.run = true ∧ s.mcs = .sampled true ∧ s.dir = true) → exec .mcCommitNopDrive s = .refused .notEnabled)

/-- R70: MC.COMMIT.DRV, and what the lines show at once after it: the old latch (R121; D15; log 15). The requests in their order
are the model's record (logs 8, 16); elsewhere the refusal is that of R62, R106 (D22, D33; logs 11, 19). -/
def Obligations.CommitDriveTurnsAllLinesToOutputs : Prop :=
  ∀ s : State,
    (∀ p, decode p .s 0b01000010 = .ok .mcCommitDrv) ∧
    (s.run = true → s.mcs = .sampled true → s.dir = false → s.params.granularity = .group →
      ∃ t, exec .mcCommitDrv s = .next t ∧
        t = { s with
          mode := t.mode, dir := true, mcs := .idle
          gpio := s.gpio ++
            [.cfgdir (.bus 0) .output, .cfgdir (.bus 1) .output, .cfgdir (.bus 2) .output, .cfgdir (.bus 3) .output,
              .cfgdir (.bus 4) .output, .cfgdir (.bus 5) .output, .cfgdir (.bus 6) .output, .cfgdir (.bus 7) .output] } ∧
        ∀ i : Fin 8, t.mode.get i = .output ∧ (s.xBus.get i = .z → t.level (.bus i) = some (s.olat.get i))) ∧
    (¬ (s.run = true ∧ s.mcs = .sampled true ∧ s.dir = false ∧ s.params.granularity = .group) →
      exec .mcCommitDrv s = .refused .notEnabled)

/-- R71: MC.COMMIT.SNS. The requests in their order are the model's record (logs 8, 16); elsewhere the refusal is that of R62, R106
(D22, D33; logs 11, 19). -/
def Obligations.CommitSenseTurnsAllLinesToInputs : Prop :=
  ∀ s : State,
    (∀ p, decode p .s 0b01000001 = .ok .mcCommitSns) ∧
    (s.run = true → s.mcs = .sampled false → s.dir = true → s.params.granularity = .group →
      ∃ t, exec .mcCommitSns s = .next t ∧
        t = { s with
          mode := t.mode, dir := false, mcs := .idle
          gpio := s.gpio ++
            [.cfgdir (.bus 0) .input, .cfgdir (.bus 1) .input, .cfgdir (.bus 2) .input, .cfgdir (.bus 3) .input,
              .cfgdir (.bus 4) .input, .cfgdir (.bus 5) .input, .cfgdir (.bus 6) .input, .cfgdir (.bus 7) .input] } ∧
        ∀ i : Fin 8, t.mode.get i = .input) ∧
    (¬ (s.run = true ∧ s.mcs = .sampled false ∧ s.dir = true ∧ s.params.granularity = .group) →
      exec .mcCommitSns s = .refused .notEnabled)

/-- R72 (the spec's choice: D9): MC.CFG. Its word is legal, and the operation exists, under `per_line` only: under `group` the term
given straight to exec is refused as reserved (R62, D22; log 20). The request is the model's record (log 8); out of turn the refusal
is that of R62, R106 (D22, D33; logs 11, 19). -/
def Obligations.ConfigureTurnsOneLine : Prop :=
  ∀ (s : State) (ln : Fin 8) (sb db : Bit),
    (∀ p, p.granularity = .perLine →
      decode p .s (0b100#3 ++ BitVec.ofNat 3 ln.val ++ BitVec.ofBool sb ++ BitVec.ofBool db) = .ok (.mcCfg ln sb db)) ∧
    (s.params.granularity = .perLine → s.run = true → db = s.dir →
      (s.mcs = .sampled sb ∧ sb ≠ s.dir ∧ ln = 0) ∨ (s.mcs = .cfg sb ln.val ∧ 1 ≤ ln.val) →
      ∃ t, exec (.mcCfg ln sb db) s = .next t ∧
        t = { s with
          mode := t.mode, mcs := .cfg sb (ln.val + 1)
          gpio := s.gpio ++ [.cfgdir (.bus ln) (if sb then .output else .input)] } ∧
        ∀ j : Fin 8, t.mode.get j = if j = ln then (if sb then .output else .input) else s.mode.get j) ∧
    (s.params.granularity = .perLine →
      ¬ (s.run = true ∧ db = s.dir ∧
          ((s.mcs = .sampled sb ∧ sb ≠ s.dir ∧ ln = 0) ∨ (s.mcs = .cfg sb ln.val ∧ 1 ≤ ln.val))) →
      exec (.mcCfg ln sb db) s = .refused .notEnabled) ∧
    (s.params.granularity = .group → exec (.mcCfg ln sb db) s = .refused .reservedWord)

/-- R73 (the spec's choice: D9): MC.FLAG, under `per_line` only; with the eight lines turned before
it, INV1 and INV2 hold after it. Under `group` the term given straight to exec is refused as reserved (R62, D22; log 20); elsewhere
the refusal is that of R62, R106 (D22, D33; logs 11, 19). -/
def Obligations.FlagCommitsNewDirection : Prop :=
  ∀ (s : State) (sb db : Bit),
    (∀ p, p.granularity = .perLine →
      decode p .s (0b101000#6 ++ BitVec.ofBool sb ++ BitVec.ofBool db) = .ok (.mcFlag sb db)) ∧
    (s.params.granularity = .perLine → s.run = true → s.mcs = .cfg sb 8 → db = s.dir →
      exec (.mcFlag sb db) s = .next { s with dir := sb, mcs := .idle } ∧
        (s.directionsAgree → { s with dir := sb, mcs := .idle }.inv1 ∧ { s with dir := sb, mcs := .idle }.inv2)) ∧
    (s.params.granularity = .perLine → ¬ (s.run = true ∧ s.mcs = .cfg sb 8 ∧ db = s.dir) →
      exec (.mcFlag sb db) s = .refused .notEnabled) ∧
    (s.params.granularity = .group → exec (.mcFlag sb db) s = .refused .reservedWord)

/-! ## The Edge Handler -/

/-- R76: EH.W. The counter is incremented first; the latches, the requests and the trace line all carry the new value. The eight
writes stand in their order in the model's record (logs 8, 16), the trace line in the trace: two lists, and no order between them is
stated, since the operation is one step (R37). The bytes of the line are R55's (log 24); elsewhere the refusal is that of R62, R106
(D22, D33; logs 11, 19). -/
def Obligations.WriteServiceCountsDrivesAndTraces : Prop :=
  ∀ (s : State) (sb : Bit),
    (∀ p, decode p .s (0b011000#6 ++ BitVec.ofBool sb ++ 0b1#1) = .ok (.ehW sb)) ∧
    (s.run = true → s.pend = true → s.dir = true → sb = s.held →
      ∃ t, exec (.ehW sb) s = .next t ∧
        t = { s with
          pend := false, cnt := s.cnt + 1, olat := t.olat, edgeBus := none
          trace := s.trace ++ ([7, 6, 5, 4, 3, 2, 1, 0].map fun k => if (s.cnt + 1).getLsbD k then 0x31 else 0x30) ++
            [0x20, 0x77] ++ s.params.nl
          gpio := s.gpio ++ [0, 1, 2, 3, 4, 5, 6, 7].map fun i : Fin 8 => .wrlvl (.bus i) ((s.cnt + 1).getLsbD (7 - i.val)) } ∧
        ∀ i : Fin 8, t.olat.get i = (s.cnt + 1).getLsbD (7 - i.val)) ∧
    (¬ (s.run = true ∧ s.pend = true ∧ s.dir = true ∧ sb = s.held) → exec (.ehW sb) s = .refused .notEnabled)

/-- R77: EH.R. One value is traced; it is what the eight read requests, in ascending line order, answered. Under EO3 (R93, R124), its bit `7 - i` is the level of `L[i]` with the outside as it stood when the edge arrived, wherever
that level is no draw (R24); of a service whose bus was moved since, only the requests are said. R77 keeps `v` nowhere but in the
trace: its bits stand a second time in the model's record of requests only (logs 8, 16). The record of the bus since the edge is log
28, the premise `edgeBusInv` on it an invariant (`EdgeBusRecordIsBusStability`). Draws are counted (log 5, D12); the bytes of the line are R55's (log 24); elsewhere the
refusal is that of R62, R106 (D22, D33; logs 11, 19). -/
def Obligations.ReadServiceSamplesAndTraces : Prop :=
  ∀ (s : State) (sb : Bit),
    (∀ p, decode p .s (0b011000#6 ++ BitVec.ofBool sb ++ 0b0#1) = .ok (.ehR sb)) ∧
    (s.run = true → s.pend = true → s.dir = false → sb = s.held →
      ∃ (v : Byte) (n : Nat),
        exec (.ehR sb) s =
            .next { s with
              pend := false, draws := n, edgeBus := none
              trace := s.trace ++ ([7, 6, 5, 4, 3, 2, 1, 0].map fun k => if v.getLsbD k then 0x31 else 0x30) ++
                [0x20, 0x72] ++ s.params.nl
              gpio := s.gpio ++ [0, 1, 2, 3, 4, 5, 6, 7].map fun i : Fin 8 => .rdlvl (.bus i) (v.getLsbD (7 - i.val)) } ∧
          (∃ u, execAll ([0, 1, 2, 3, 4, 5, 6, 7].map fun i : Fin 8 => .rdlvl (.bus i)) s = .next u ∧ u.draws = n ∧
            u.gpio = s.gpio ++ [0, 1, 2, 3, 4, 5, 6, 7].map fun i : Fin 8 => .rdlvl (.bus i) (v.getLsbD (7 - i.val))) ∧
          (∀ x, s.edgeBusInv → BusHeldSinceEdge s x → ∀ (i : Fin 8) (b : Level),
            { s with xBus := x }.level (.bus i) = some b → v.getLsbD (7 - i.val) = b) ∧
          ((∀ i : Fin 8, s.level (.bus i) ≠ none) → n = s.draws)) ∧
    (¬ (s.run = true ∧ s.pend = true ∧ s.dir = false ∧ sb = s.held) → exec (.ehR sb) s = .refused .notEnabled)

/-- R24, R123 (the spec's choice: D12), with the model's draws (log 5): sampling a bus that nobody drives, as it was when the
edge arrived and held so since (EO3, R93; logs 5, 28), takes eight draws, one per line in ascending order, each of its own. It holds of every value of the draws and of the counter they are numbered by. -/
def Obligations.FloatingBusIsSampledAsFreshDraws : Prop :=
  ∀ (s : State) (x : Lines Drive), s.edgeBusInv → BusHeldSinceEdge s x → s.dir = false →
    (∀ i : Fin 8, s.mode.get i = .input ∧ x.get i = .z) →
    ∃ v : Byte, ∃ t, exec (.ehR s.held) s = .next t ∧
      t.trace = s.trace ++ traceLine s.params.nl v .r ∧ t.draws = s.draws + 8 ∧
      ∀ i : Fin 8, busBit v i = Config.freeBit (s.draws + i.val)

/-- R122 (with R76): contention does not show in the trace. EH.W from two states that differ only in what the outside applies to the bus
lines gives the same next state but for that. -/
def Obligations.WriteServiceIgnoresTheBus : Prop :=
  ∀ (s : State) (xb : Lines Drive) (sb : Bit) (t : State),
    exec (.ehW sb) s = .next t → exec (.ehW sb) { s with xBus := xb } = .next { t with xBus := xb }

/-! ## The primitives -/

/-- R82 (the spec's choice: D15, D27): CFGDIR sets one mode, or the pull-up, and no latch; elsewhere it is refused. -/
def Obligations.ConfigureDirectionRequest : Prop :=
  ∀ s : State,
    (∀ p, ∀ i : Fin 8,
      decode p .p (0b000#3 ++ BitVec.ofNat 3 i.val ++ 0b00#2) = .ok (.cfgdir (.bus i) .input) ∧
      decode p .p (0b000#3 ++ BitVec.ofNat 3 i.val ++ 0b01#2) = .ok (.cfgdir (.bus i) .output)) ∧
    (∀ p, decode p .p 0b00100000 = .ok (.cfgdir .clk .input) ∧ decode p .p 0b00100110 = .ok (.cfgdir .en .inputPullup)) ∧
    (∀ i : Fin 8, ∃ t, exec (.cfgdir (.bus i) .input) s = .next t ∧
      t = { s with mode := t.mode, gpio := s.gpio ++ [.cfgdir (.bus i) .input] } ∧
      ∀ j : Fin 8, t.mode.get j = if j = i then .input else s.mode.get j) ∧
    (∀ i : Fin 8, ∃ t, exec (.cfgdir (.bus i) .output) s = .next t ∧
      t = { s with mode := t.mode, gpio := s.gpio ++ [.cfgdir (.bus i) .output] } ∧
      ∀ j : Fin 8, t.mode.get j = if j = i then .output else s.mode.get j) ∧
    exec (.cfgdir .clk .input) s = .next { s with gpio := s.gpio ++ [.cfgdir .clk .input] } ∧
    exec (.cfgdir .en .inputPullup) s = .next { s with enpu := true, gpio := s.gpio ++ [.cfgdir .en .inputPullup] } ∧
    ∀ ln md,
      ¬ ((∃ i, ln = .bus i) ∧ (md = .input ∨ md = .output) ∨ ln = .clk ∧ md = .input ∨ ln = .en ∧ md = .inputPullup) →
      exec (.cfgdir ln md) s = .refused .reservedRequest

/-- R83 (the spec's choice: D12, D13, D27): RDLVL answers `LEVEL(l)` and writes no element of the tuple of R11; a line it is not defined for is refused. -/
def Obligations.ReadLevelRequest : Prop :=
  ∀ s : State,
    (∀ p, (∀ i : Fin 8, decode p .p (0b010#3 ++ BitVec.ofNat 3 i.val ++ 0b00#2) = .ok (.rdlvl (.bus i))) ∧
      decode p .p 0b01100100 = .ok (.rdlvl .en)) ∧
    (∀ ln, (ln = .en ∨ ∃ i, ln = .bus i) →
      ∃ (b : Level) (n : Nat), exec (.rdlvl ln) s = .next { s with draws := n, gpio := s.gpio ++ [.rdlvl ln b] } ∧
        (∀ c, s.level ln = some c → b = c ∧ n = s.draws)) ∧
    (∀ ln, ¬ (ln = .en ∨ ∃ i, ln = .bus i) → exec (.rdlvl ln) s = .refused .reservedRequest)

/-- R24 (the spec's choice: D12, D13): the level of a line, case by case; a draw is a fresh free bit at each evaluation (log 5 for its form): two reads of one
line whose level is a draw are answered by two successive draws. -/
def Obligations.LevelOfEachLine : Prop :=
  ∀ s : State,
    (∀ i : Fin 8,
      (s.mode.get i = .output → s.xBus.get i = .z → s.level (.bus i) = some (s.olat.get i)) ∧
      (s.mode.get i = .output → s.xBus.get i = (if s.olat.get i then .d1 else .d0) → s.level (.bus i) = some (s.olat.get i)) ∧
      (s.mode.get i = .output → s.xBus.get i = (if s.olat.get i then .d0 else .d1) → s.level (.bus i) = none) ∧
      (s.mode.get i = .input → s.xBus.get i = .d0 → s.level (.bus i) = some false) ∧
      (s.mode.get i = .input → s.xBus.get i = .d1 → s.level (.bus i) = some true) ∧
      (s.mode.get i = .input → s.xBus.get i = .z → s.level (.bus i) = none)) ∧
    s.level .clk = some s.xClk ∧
    (s.xEn = .d0 → s.level .en = some false) ∧ (s.xEn = .d1 → s.level .en = some true) ∧
    (s.xEn = .z → s.enpu = true → s.level .en = some true) ∧ (s.xEn = .z → s.enpu = false → s.level .en = none) ∧
    (∀ ln, (ln = .en ∨ ∃ i, ln = .bus i) → s.level ln = none →
      execAll [.rdlvl ln, .rdlvl ln] s =
        .next { s with
          draws := s.draws + 2
          gpio := s.gpio ++ [.rdlvl ln (Config.freeBit s.draws), .rdlvl ln (Config.freeBit (s.draws + 1))] })

/-- R84 (the spec's choice: D14, D27; log 15): WRLVL sets one latch; the mode stays; a line it is not defined for is refused. -/
def Obligations.WriteLevelRequest : Prop :=
  ∀ (s : State) (b : Bit),
    (∀ p, ∀ i : Fin 8, decode p .p (0b100#3 ++ BitVec.ofNat 3 i.val ++ 0b0#1 ++ BitVec.ofBool b) = .ok (.wrlvl (.bus i) b)) ∧
    (∀ i : Fin 8, ∃ t, exec (.wrlvl (.bus i) b) s = .next t ∧
      t = { s with olat := t.olat, gpio := s.gpio ++ [.wrlvl (.bus i) b] } ∧
      (∀ j : Fin 8, t.olat.get j = if j = i then b else s.olat.get j) ∧
      (s.mode.get i = .output → s.xBus.get i = .z → t.level (.bus i) = some b) ∧
      (s.mode.get i = .input → t.level (.bus i) = s.level (.bus i))) ∧
    (∀ ln, (∀ i, ln ≠ .bus i) → exec (.wrlvl ln b) s = .refused .reservedRequest)

/-- R85, R60 (the spec's choice: D19, D32): TRPUT appends one byte of the legal set; any other byte is reserved. -/
def Obligations.PutByteRequest : Prop :=
  ∀ (s : State) (b : Byte),
    ((b ∈ ([0x30, 0x31, 0x20, 0x77, 0x72, 0x52, 0x55, 0x4E, 0x49, 0x47] : List Byte) ∨ b ∈ s.params.nl) →
      decode s.params .t b = .ok (.trput b) ∧ exec (.trput b) s = .next { s with trace := s.trace ++ [b] }) ∧
    (¬ (b ∈ ([0x30, 0x31, 0x20, 0x77, 0x72, 0x52, 0x55, 0x4E, 0x49, 0x47] : List Byte) ∨ b ∈ s.params.nl) →
      decode s.params .t b = .error .reservedByte ∧ exec (.trput b) s = .refused .reservedWord)

/-- R39: CFGDIR and WRLVL are idempotent on the tuple of R11, RDLVL changes none of it, TRPUT lengthens the trace. -/
def Obligations.PrimitiveSideEffects : Prop :=
  ∀ s t u : State,
    (∀ ln md, exec (.cfgdir ln md) s = .next t → exec (.cfgdir ln md) t = .next u → u.elements = t.elements) ∧
    (∀ ln b, exec (.wrlvl ln b) s = .next t → exec (.wrlvl ln b) t = .next u → u.elements = t.elements) ∧
    (∀ ln, exec (.rdlvl ln) s = .next t → t.elements = s.elements) ∧
    (∀ b, exec (.trput b) s = .next t → t.trace.length = s.trace.length + 1)

/-! ## The environment -/

/-- R90, R91 (the spec's choice: D12): ENV.SET on a bus line or on the enable line changes that line's outside drive and nothing
else, at any `RUN`; on a bus line the model's record of the bus since the edge ends (log 28). R61, R62, R106: an act that has no
legal word is refused (the term given straight to exec: log 20). -/
def Obligations.EnvironmentSetsOneLine : Prop :=
  ∀ (s : State) (x : Drive),
    (∀ i : Fin 8, ∃ t, exec (.envSet (.bus i) x) s = .next t ∧ t = { s with xBus := t.xBus, edgeBus := none } ∧
      ∀ j : Fin 8, t.xBus.get j = if j = i then x else s.xBus.get j) ∧
    exec (.envSet .en x) s = .next { s with xEn := x } ∧
    exec (.envSet .clk .z) s = .refused .reservedWord ∧
    ∀ n, exec (.envSet (.reserved n) x) s = .refused .reservedWord

/-- R91: ENV.SET on the enable line changes `X[9]` and nothing else, so it triggers nothing; the next MC.SAMPLE sees it, `D0` as
asserted, `D1` and `Z` as not; and no operation but MC.SAMPLE and ENV.SET on that line completes, is refused or ends otherwise
than it would with any other drive there. (R91 leaves the pull-up unsaid; it is on from INIT on, R17.) -/
def Obligations.EnableLineIsSeenBySampleOnly : Prop :=
  ∀ (s : State) (x : Drive),
    exec (.envSet .en x) s = .next { s with xEn := x } ∧
    (s.run = true → s.mcs = .idle → s.enpu = true →
      ∃ t, execAll [.envSet .en x, .mcSample false s.dir] s = .next t ∧
        t.mcs = .sampled (match x with | .d0 => true | .d1 => false | .z => false)) ∧
    ∀ i : Instr, i.isOperation = true → (∀ a b, i ≠ .mcSample a b) → (∀ y, i ≠ .envSet .en y) →
      (∀ t, exec i s = .next t → exec i { s with xEn := x } = .next { t with xEn := x }) ∧
      ∀ r, exec i s = .refused r → exec i { s with xEn := x } = .refused r

/-- R92, R105, R116 (the spec's choice: D10, D20, D30): the clock line. A rising edge while `RUN = 1` sets `PEND`, or is refused where an edge is pending; every
other setting of the clock only changes the line. The edge notes the bus as it stands (log 28). -/
def Obligations.RisingClockEdgeBecomesPending : Prop :=
  ∀ s : State,
    (s.run = true → s.xClk = false → s.pend = false →
      exec (.envSet .clk .d1) s = .next { s with xClk := true, pend := true, edgeBus := some s.xBus }) ∧
    (s.run = true → s.xClk = false → s.pend = true → exec (.envSet .clk .d1) s = .refused .edgeOverrun) ∧
    (s.run = false → exec (.envSet .clk .d1) s = .next { s with xClk := true }) ∧
    (s.xClk = true → exec (.envSet .clk .d1) s = .next s) ∧
    exec (.envSet .clk .d0) s = .next { s with xClk := false }

/-- R93 (EO3), R124: the record of the bus (log 28) says of every run whether EO3 has been kept. Every step keeps the invariant on
it; and on the steps after a rising edge, until an operation of the Edge Handler, it holds the bus as it stood at that edge exactly if
no step has moved a bus line, and nothing otherwise. -/
def Obligations.EdgeBusRecordIsBusStability : Prop :=
  (∀ s t : State, s.edgeBusInv → step s = .next t → t.edgeBusInv) ∧
  ∀ (d e s : State) (k : Nat), EdgeArrives d e → Sys2Proof.core.run k e = .next s → EdgeWaitsFor k e →
    (BusHeldFor k e → BusHeldSinceEdge s d.xBus) ∧ (¬ BusHeldFor k e → s.edgeBus = none)

/-! ## Encoding -/

/-- R57 to R62: decoding the word of a well-formed operation, on its interface, gives the operation back. -/
def Obligations.DecodeOfEncodeIsIdentity : Prop :=
  ∀ (p : Params) (i : Instr), i.wellFormed p = true → decode p i.iface (encode i) = .ok i

/-- R57 to R62: a word that decodes, decodes to a well-formed operation of its interface, and is that operation's only word. -/
def Obligations.EncodeOfDecodeIsIdentity : Prop :=
  ∀ (p : Params) (f : Iface) (w : Byte) (i : Instr),
    decode p f w = .ok i → i.wellFormed p = true ∧ i.iface = f ∧ encode i = w

/-- R58 to R61, the rows of the opcode table: words written out from the encodings, one or more of every family. -/
def Obligations.WordsOfEachFamilyDecode : Prop :=
  decode Params.default .s 0b00000000 = .ok (.init false false) ∧
  decode Params.default .s 0b00100001 = .ok (.mcSample false true) ∧
  decode Params.default .s 0b01000010 = .ok .mcCommitDrv ∧
  decode Params.default .s 0b01100010 = .ok (.ehR true) ∧
  decode Params.default .s 0b01100001 = .ok (.ehW false) ∧
  decode tableParams .s 0b10010110 = .ok (.mcCfg 5 true false) ∧
  decode Params.default .p 0b00001101 = .ok (.cfgdir (.bus 3) .output) ∧
  decode Params.default .p 0b10011100 = .ok (.wrlvl (.bus 7) false) ∧
  decode Params.default .t 0b01110111 = .ok (.trput 0x77) ∧
  decode Params.default .e 0b00100100 = .ok (.envSet .en .d0)

/-- R62 (the spec's choice: D22): the reserved words of every format, clause by clause; last the line and mode pairs of format P outside
the legal column, and format T. -/
def Obligations.ReservedWordsAreRejected : Prop :=
  ∀ (p : Params) (w : Byte),
    ((w.extractLsb' 5 3 = 6 ∨ w.extractLsb' 5 3 = 7) → ∃ e, decode p .s w = .error e) ∧
    (w.extractLsb' 2 3 ≠ 0 → w.extractLsb' 5 3 ≠ 4 → ∃ e, decode p .s w = .error e) ∧
    ((w.extractLsb' 5 3 = 4 ∨ w.extractLsb' 5 3 = 5) → p.granularity = .group → ∃ e, decode p .s w = .error e) ∧
    (w.extractLsb' 6 2 = 3 → ∃ e, decode p .p w = .error e) ∧
    (9 < (w.extractLsb' 2 4).toNat → ∃ e, decode p .p w = .error e) ∧
    (w.extractLsb' 0 2 = 3 → ∃ e, decode p .p w = .error e) ∧
    (w.extractLsb' 6 2 = 1 → w.extractLsb' 0 2 ≠ 0 → ∃ e, decode p .p w = .error e) ∧
    (w.extractLsb' 6 2 = 2 → w.getLsbD 1 = true → ∃ e, decode p .p w = .error e) ∧
    (w.extractLsb' 6 2 ≠ 0 → ∃ e, decode p .e w = .error e) ∧
    (9 < (w.extractLsb' 2 4).toNat → ∃ e, decode p .e w = .error e) ∧
    (w.extractLsb' 0 2 = 3 → ∃ e, decode p .e w = .error e) ∧
    decode p .e 0b00100010 = .error .clockReleased ∧
    (w.extractLsb' 6 2 = 0 → (w.extractLsb' 2 4).toNat < 8 → w.extractLsb' 0 2 = 2 → ∃ e, decode p .p w = .error e) ∧
    (w.extractLsb' 6 2 = 0 → (w.extractLsb' 2 4).toNat = 8 → w.extractLsb' 0 2 ≠ 0 → ∃ e, decode p .p w = .error e) ∧
    (w.extractLsb' 6 2 = 0 → (w.extractLsb' 2 4).toNat = 9 → w.extractLsb' 0 2 ≠ 2 → ∃ e, decode p .p w = .error e) ∧
    (w.extractLsb' 6 2 = 1 → (w.extractLsb' 2 4).toNat = 8 → ∃ e, decode p .p w = .error e) ∧
    (w.extractLsb' 6 2 = 2 → (w.extractLsb' 2 4).toNat = 8 ∨ (w.extractLsb' 2 4).toNat = 9 → ∃ e, decode p .p w = .error e) ∧
    (w ∉ ([0x30, 0x31, 0x20, 0x77, 0x72, 0x52, 0x55, 0x4E, 0x49, 0x47] : List Byte) → w ∉ p.nl → ∃ e, decode p .t w = .error e)

/-! ## The step -/

/-- The step runs the decoded operation: where the first scheduled word decodes, the step is exec of that operation in the
state without the word, whatever follows on the schedule. The same from the operation: a well-formed operation, encoded and
scheduled on its interface, is what the next step runs. (The schedule is log 6.) -/
def Obligations.StepRunsTheScheduledWord : Prop :=
  (∀ (s : State) (r : Request) (rest : List Request) (i : Instr),
    s.script = r :: rest → decode s.params r.iface r.word = .ok i → step s = exec i { s with script := rest }) ∧
  (∀ (s : State) (rest : List Request) (i : Instr),
    i.wellFormed s.params = true → s.script = ⟨i.iface, encode i⟩ :: rest → step s = exec i { s with script := rest })

/-- R62, R106: a reserved word is refused as `reserved_word`. -/
def Obligations.StepRefusesReservedWords : Prop :=
  ∀ (s : State) (r : Request) (rest : List Request) (e : Reject),
    s.script = r :: rest → decode s.params r.iface r.word = .error e → step s = .refused .reservedWord

/-- R100, R44 with the model's free schedule (log 6): with no word scheduled, the free value names the agent. The environment
does the act the free value names; the block does INIT while `RUN = 0`, the service of a pending edge where the Edge Handler is
named, and the Mode Controller's enabled operation otherwise. -/
def Obligations.StepFollowsTheFreeSchedule : Prop :=
  ∀ s : State, s.script = [] → s.directionInv →
    step s =
      if Config.freeAgent s.ticks = .environment then
        exec (envInstr (Config.freeEnv s.ticks)) { s with ticks := s.ticks + 1 }
      else if s.run = false then exec (.init false false) { s with ticks := s.ticks + 1 }
      else if Config.freeAgent s.ticks = .edgeHandler ∧ s.pend = true then
        exec (if s.dir then .ehW s.held else .ehR s.held) { s with ticks := s.ticks + 1 }
      else
        match s.mcs with
        | .idle => exec (.mcSample false s.dir) { s with ticks := s.ticks + 1 }
        | .sampled sb =>
          exec
            (match sb, s.dir with
              | false, false => .mcCommitNopSense
              | true, true => .mcCommitNopDrive
              | true, false => if s.params.granularity = .group then .mcCommitDrv else .mcCfg 0 true false
              | false, true => if s.params.granularity = .group then .mcCommitSns else .mcCfg 0 false true)
            { s with ticks := s.ticks + 1 }
        | .cfg sb k =>
          exec (if h : k < 8 then .mcCfg ⟨k, h⟩ sb s.dir else .mcFlag sb s.dir) { s with ticks := s.ticks + 1 }

/-- R106 and the host's own reason: the marks a step can give are those of the closed list; `notModelled` is never given, and
`reserved_request` only for a word on the block's interface to the GPIO bank. -/
def Obligations.MarksAreTheClosedList : Prop :=
  ∀ (s : State) (r : Refusal), step s = .refused r →
    r = .edgeOverrun ∨ r = .reservedWord ∨ r = .notEnabled ∨
      (r = .reservedRequest ∧ ∃ q rest, s.script = q :: rest ∧ q.iface = .p)

/-! ## Frames and ownership -/

/-- R26, R42: the writers of every element. An operation outside the element's list leaves it as it was; the launch parameters
and the schedule are written by none; the model's record of the bus since the edge (log 28) is written by INIT, ENV.SET and the
Edge Handler. CFGDIR, WRLVL and TRPUT stand in the lists of `MODE`, `ENPU`, `OLAT`, `TRACE` as requests
of their own (log 7). -/
def Obligations.EveryElementHasItsWritersOnly : Prop :=
  ∀ (i : Instr) (s t : State), exec i s = .next t →
    ((∀ a b, i ≠ .init a b) → t.run = s.run) ∧
    ((∀ a b, i ≠ .init a b) → i ≠ .mcCommitDrv → i ≠ .mcCommitSns → (∀ a b, i ≠ .mcFlag a b) → t.dir = s.dir) ∧
    ((∀ a b, i ≠ .init a b) → (∀ a, i ≠ .ehW a) → t.cnt = s.cnt) ∧
    ((∀ a b, i ≠ .init a b) → i ≠ .mcCommitDrv → i ≠ .mcCommitSns → (∀ l a b, i ≠ .mcCfg l a b) →
      (∀ l m, i ≠ .cfgdir l m) → t.mode = s.mode) ∧
    ((∀ a b, i ≠ .init a b) → (∀ a, i ≠ .ehW a) → (∀ l b, i ≠ .wrlvl l b) → t.olat = s.olat) ∧
    ((∀ a b, i ≠ .init a b) → (∀ l m, i ≠ .cfgdir l m) → t.enpu = s.enpu) ∧
    ((∀ l x, i ≠ .envSet l x) → t.xBus = s.xBus ∧ t.xClk = s.xClk ∧ t.xEn = s.xEn) ∧
    ((∀ a b, i ≠ .init a b) → (∀ x, i ≠ .envSet .clk x) → i.byEdgeHandler = false → t.pend = s.pend) ∧
    ((∀ a b, i ≠ .init a b) → i.byModeController = false → t.mcs = s.mcs) ∧
    ((∀ a b, i ≠ .init a b) → i.byEdgeHandler = false → (∀ b, i ≠ .trput b) → t.trace = s.trace) ∧
    ((∀ a b, i ≠ .init a b) → (∀ l x, i ≠ .envSet l x) → i.byEdgeHandler = false → t.edgeBus = s.edgeBus) ∧
    t.params = s.params ∧ t.script = s.script ∧ t.ticks = s.ticks

/-- R74 (c): no operation of the Mode Controller writes `CNT`, `OLAT`, `PEND` or `TRACE`, nor `X`, `RUN`, `ENPU`, and none makes
a WRLVL request. -/
def Obligations.ModeControllerFrame : Prop :=
  ∀ (i : Instr) (s t : State), i.byModeController = true → exec i s = .next t →
    t.cnt = s.cnt ∧ t.olat = s.olat ∧ t.pend = s.pend ∧ t.trace = s.trace ∧ t.xBus = s.xBus ∧ t.xClk = s.xClk ∧
      t.xEn = s.xEn ∧ t.run = s.run ∧ t.enpu = s.enpu ∧ t.edgeBus = s.edgeBus ∧
      ∃ calls, t.gpio = s.gpio ++ calls ∧ ∀ l b, .wrlvl l b ∉ calls

/-- R79, R101, R102: an operation of the Edge Handler writes `PEND`, `CNT`, `OLAT` and `TRACE` at most; `DIR`, `MODE` and the
Mode Controller's place `MCS` are as before, the record of the bus since the edge ends with the edge (log 28), it never reads the enable line and configures no direction. -/
def Obligations.EdgeHandlerFrame : Prop :=
  ∀ (i : Instr) (s t : State), i.byEdgeHandler = true → exec i s = .next t →
    t.dir = s.dir ∧ t.mode = s.mode ∧ t.mcs = s.mcs ∧ t.enpu = s.enpu ∧ t.xBus = s.xBus ∧ t.xClk = s.xClk ∧
      t.xEn = s.xEn ∧ t.run = s.run ∧ t.edgeBus = none ∧
      ∃ calls, t.gpio = s.gpio ++ calls ∧ (∀ b, .rdlvl .en b ∉ calls) ∧ ∀ l m, .cfgdir l m ∉ calls

/-- R22 (operations in its sense are the agents', not a request scheduled alone): the trace is empty at power-on; every step only appends to it; INIT appends the banner line, an operation of the Edge
Handler one trace line, no other operation of an agent anything; and no operation reads it: whatever the trace was, the same bytes
are appended and everything else is the same. -/
def Obligations.TraceOnlyGrows : Prop :=
  State.reset.trace = [] ∧
  (∀ s t : State, step s = .next t → ∃ added, t.trace = s.trace ++ added) ∧
  ∀ (i : Instr) (s t : State), i.isOperation = true → exec i s = .next t →
    ((∃ a b, i = .init a b) → t.trace = s.trace ++ bannerLine s.params.nl) ∧
    (i.byEdgeHandler = true → ∃ v tag, t.trace = s.trace ++ traceLine s.params.nl v tag) ∧
    ((∀ a b, i ≠ .init a b) → i.byEdgeHandler = false → t.trace = s.trace) ∧
    ∀ trace, exec i { s with trace := trace } = .next { t with trace := trace ++ t.trace.drop s.trace.length }

/-- R29: no step writes a launch parameter. -/
def Obligations.StepKeepsParameters : Prop :=
  ∀ s t : State, step s = .next t → t.params = s.params

/-! ## Enabled operations -/

/-- R65 (the spec's choice: D8, D9): in every state after start-up whose directions agree, exactly one operation of the Mode Controller is enabled, the one
of R65's table; before start-up none is. -/
def Obligations.ExactlyOneModeControllerOperationIsEnabled : Prop :=
  ∀ s : State,
    (s.run = true → s.directionsAgree →
      ∃ i, mcNext s = some i ∧ i.byModeController = true ∧ (∃ t, exec i s = .next t) ∧
        ∀ j t, j.byModeController = true → exec j s = .next t → j = i) ∧
    (s.run = false → ∀ j t, j.byModeController = true → exec j s ≠ .next t)

/-- R75 (the spec's choice: D11): an operation of the Edge Handler is enabled exactly when `RUN = 1` and `PEND = 1`, and then it is the one `DIR` names. -/
def Obligations.PendingEdgeIsServicedByTheFlag : Prop :=
  ∀ s : State,
    (s.run = true → s.pend = true → s.dir = true →
      (∃ t, exec (.ehW s.held) s = .next t) ∧ ∀ j t, j.byEdgeHandler = true → exec j s = .next t → j = .ehW s.held) ∧
    (s.run = true → s.pend = true → s.dir = false →
      (∃ t, exec (.ehR s.held) s = .next t) ∧ ∀ j t, j.byEdgeHandler = true → exec j s = .next t → j = .ehR s.held) ∧
    (¬ (s.run = true ∧ s.pend = true) → ∀ j t, j.byEdgeHandler = true → exec j s ≠ .next t)

/-- R80, R92: after start-up, `PEND` goes from 1 to 0 exactly by an operation of the Edge Handler, which adds one trace line, and
from 0 to 1 exactly by a rising clock edge; every other operation adds nothing to the trace. -/
def Obligations.EachEdgeIsServicedExactlyOnce : Prop :=
  ∀ (i : Instr) (s t : State), i.isOperation = true → s.run = true → exec i s = .next t →
    (i.byEdgeHandler = true ↔ s.pend = true ∧ t.pend = false) ∧
    ((i = .envSet .clk .d1 ∧ s.xClk = false) ↔ s.pend = false ∧ t.pend = true) ∧
    (i.byEdgeHandler = true → ∃ v tag, t.trace = s.trace ++ traceLine s.params.nl v tag ∧ (tag = .w ↔ s.dir = true)) ∧
    (i.byEdgeHandler = false → t.trace = s.trace)

/-! ## Invariants -/

/-- Every step keeps a test program on the interfaces of the agents' operations (model's own field: log 6). -/
def Obligations.StepKeepsOperationsOnly : Prop :=
  ∀ s t : State, s.operationsOnly → step s = .next t → t.operationsOnly

/-- R25: every step keeps the invariant of the directions, whatever the agents and the environment do, under both readings of
`MC_GRANULARITY`. The premise leaves out a bare GPIO request given as a step, which is no operation of an agent (log 7). -/
def Obligations.StepKeepsDirections : Prop :=
  ∀ s t : State, s.operationsOnly → s.directionInv → step s = .next t → t.directionInv

/-- R25: what the invariant says: INV1 and INV2 under `group` always, and under `per_line` outside `Cfg(s, k)`. -/
def Obligations.DirectionInvariantGivesInv1AndInv2 : Prop :=
  ∀ s : State, s.run = true → s.directionInv →
    (s.params.granularity = .group ∨ ∀ sb k, s.mcs ≠ .cfg sb k) → s.inv1 ∧ s.inv2

/-- R22, R48, R56, R78: every step keeps the history: the trace is empty before start-up, then the banner and one whole line per
serviced edge, every write line showing the counter's next value, counted from `CNT_INIT`. The premise as in
`StepKeepsDirections`. -/
def Obligations.StepKeepsTraceHistory : Prop :=
  ∀ s t : State, s.operationsOnly → s.traceInv → step s = .next t → t.traceInv

/-- R78: "After n EH.W operations since INIT, with any number of EH.R and MC operations among them, `CNT = (CNT_INIT + n) mod 256`":
every step keeps it, for the `n` write lines of the state's own trace. It holds wherever the history of `StepKeepsTraceHistory`
does. The premise on the schedule as in `StepKeepsDirections` (log 7). -/
def Obligations.CounterIsStartPlusWriteEdges : Prop :=
  (∀ s t : State, s.operationsOnly → s.counterInv → step s = .next t → t.counterInv) ∧
  ∀ s : State, s.traceInv → s.counterInv

/-- The invariants hold at the power-on state (log 1), whatever the launch parameters. -/
def Obligations.InvariantsHoldAtPowerOn : Prop :=
  ∀ p : Params,
    { State.reset with params := p }.operationsOnly ∧ { State.reset with params := p }.directionInv ∧
      { State.reset with params := p }.traceInv ∧ { State.reset with params := p }.counterInv ∧
      { State.reset with params := p }.edgeBusInv

/-- R47, R106 with the free schedule (log 6): while the environment spaces its edges (EO1), no step of the free schedule is
refused, in any state that meets the invariant of the directions. -/
def Obligations.FreeScheduleIsNeverRefused : Prop :=
  ∀ s : State, s.script = [] → s.directionInv → (∀ i, scheduled s = some i → edgeSpaced i s) → ∃ t, step s = .next t

/-- R105, R106: a run of the free schedule in which the environment keeps EO1 carries no mark, however long. -/
def Obligations.RunsWithSpacedEdgesCarryNoMark : Prop :=
  ∀ (k : Nat) (s : State), s.script = [] → s.directionInv → EdgesSpacedFor k s → SafeRun k s

/-! ## Polls -/

/-- R74 (a), R65: a poll with nothing in between ends with `DIR` the complement of the enable line's level, all lines turned:
two operations under `group` or where nothing changes, ten otherwise. -/
def Obligations.PollMakesDirectionFollowEnable : Prop :=
  ∀ (s : State) (lvl : Level), s.run = true → s.mcs = .idle → s.directionsAgree → s.level .en = some lvl →
    ∃ t, mcSteps (if s.params.granularity = .group ∨ s.dir = !lvl then 2 else 10) s = .next t ∧
      t.dir = (!lvl) ∧ t.mcs = .idle ∧ t.directionsAgree ∧ t.cnt = s.cnt ∧ t.olat = s.olat ∧ t.trace = s.trace

/-- R74 (b), R69: a poll with the enable line unchanged makes one read of it and leaves every element as it was. -/
def Obligations.PollWithUnchangedEnableIsIdempotent : Prop :=
  ∀ s : State, s.run = true → s.mcs = .idle → s.level .en = some (!s.dir) →
    execAll [.mcSample false s.dir, commitVariant s.dir s.dir] s =
      .next { s with gpio := s.gpio ++ [.rdlvl .en (!s.dir)] }

/-- R73: CFG 0 to CFG 7 and FLAG with nothing between them leave what the atomic commit would leave under `group`. -/
def Obligations.PerLineCommitEqualsGroupCommit : Prop :=
  ∀ (s : State) (sb : Bit), s.run = true → s.params.granularity = .perLine → s.mcs = .sampled sb → sb ≠ s.dir →
    ∃ t u,
      execAll
          [.mcCfg 0 sb s.dir, .mcCfg 1 sb s.dir, .mcCfg 2 sb s.dir, .mcCfg 3 sb s.dir, .mcCfg 4 sb s.dir,
            .mcCfg 5 sb s.dir, .mcCfg 6 sb s.dir, .mcCfg 7 sb s.dir, .mcFlag sb s.dir] s = .next t ∧
        exec (commitVariant sb s.dir) { s with params := { s.params with granularity := .group } } = .next u ∧
        t = { u with params := s.params }

/-- R74 (d): under `group`, an operation after start-up makes eight CFGDIR requests on bus lines if it changes `DIR`, else none. -/
def Obligations.EightBusReconfigurationsPerTurn : Prop :=
  ∀ (i : Instr) (s t : State), i.isOperation = true → s.run = true → s.params.granularity = .group →
    exec i s = .next t → t.busCfgCalls = s.busCfgCalls + if t.dir = s.dir then 0 else 8

/-! ## Hazards and orders between the agents -/

/-- R119 (HZ1): an enable line released between the sample and the commit: the commit uses the old sample, and `DIR` disagrees
with the line afterwards. -/
def Obligations.StaleSampleIsCommitted : Prop :=
  ∀ s : State, s.run = true → s.mcs = .idle → s.dir = false → s.xEn = .d0 → s.params.granularity = .group →
    ∃ t, execAll [.mcSample false false, .envSet .en .d1, .mcCommitDrv] s = .next t ∧ t.dir = true ∧ t.level .en = some true

/-- R119, R102: an edge serviced between the sample and the commit is handled under the old direction; the commit that follows
still uses the sample. -/
def Obligations.EdgeBeforeCommitIsHandledUnderOldDirection : Prop :=
  ∀ s : State, s.run = true → s.mcs = .sampled true → s.dir = false → s.pend = true → s.params.granularity = .group →
    ∃ v t, execAll [.ehR true, .mcCommitDrv] s = .next t ∧ t.cnt = s.cnt ∧ t.dir = true ∧
      t.trace = s.trace ++ traceLine s.params.nl v .r

/-- R75, R100 (conflict C2): an edge pending when the direction is committed is handled under the new direction. -/
def Obligations.PendingEdgeIsHandledUnderCommittedDirection : Prop :=
  ∀ s : State, s.run = true → s.mcs = .sampled true → s.dir = false → s.pend = true → s.params.granularity = .group →
    ∃ t, execAll [.mcCommitDrv, .ehW false] s = .next t ∧ t.cnt = s.cnt + 1 ∧
      t.trace = s.trace ++ traceLine s.params.nl (s.cnt + 1) .w

/-- R120 (HZ2): with a whole poll between the change of the enable line and the service, the edge is handled as a write. -/
def Obligations.PolledEnableMakesNextEdgeAWrite : Prop :=
  ∀ s : State, s.run = true → s.mcs = .idle → s.dir = false → s.pend = false → s.xClk = false →
    s.params.granularity = .group →
    ∃ t, execAll [.envSet .en .d0, .mcSample false false, .mcCommitDrv, .envSet .clk .d1, .ehW false] s = .next t ∧
      t.cnt = s.cnt + 1 ∧ t.trace = s.trace ++ traceLine s.params.nl (s.cnt + 1) .w

/-- R120 (conflict C3): without that poll the edge is handled in the old direction, as a read. -/
def Obligations.UnpolledEnableLeavesNextEdgeARead : Prop :=
  ∀ s : State, s.run = true → s.mcs = .idle → s.dir = false → s.pend = false → s.xClk = false →
    (∀ sb, execAll [.envSet .en .d0, .envSet .clk .d1, .ehW sb] s = .refused .notEnabled) ∧
    ∃ v t, execAll [.envSet .en .d0, .envSet .clk .d1, .ehR false] s = .next t ∧
      t.cnt = s.cnt ∧ t.trace = s.trace ++ traceLine s.params.nl v .r

/-- R94: after EH.W with the directions in agreement, the Mode Controller between two commits and no contention (EO4), the bus
shows the counter. -/
def Obligations.DrivenBusShowsTheCounter : Prop :=
  ∀ (s t : State) (sb : Bit), s.directionInv → (∀ b k, s.mcs ≠ .cfg b k) → s.noContention →
    exec (.ehW sb) s = .next t → t.busShows t.cnt

/-- R94: reading the driven lines back one by one gives the bits that were written. -/
def Obligations.DrivenBusReadsBackTheCounter : Prop :=
  ∀ (s t : State) (sb : Bit), s.directionInv → (∀ b k, s.mcs ≠ .cfg b k) → s.noContention →
    exec (.ehW sb) s = .next t →
    execAll (busOrder.map fun i => .rdlvl (.bus i)) t =
      .next { t with gpio := t.gpio ++ busOrder.map fun i => .rdlvl (.bus i) (busBit t.cnt i) }

/-- R93 (EO3, EO5), R77, R124: a bus that is sensed, driven on every line (EO5) and held from the edge until its service (EO3) is
sampled as it stood at the edge, without a draw (the record of the bus: log 28). -/
def Obligations.DrivenInputsAreSampledAsAtTheEdge : Prop :=
  ∀ (s t : State) (x : Lines Drive) (sb : Bit), s.edgeBusInv → BusHeldSinceEdge s x →
    (∀ i : Fin 8, s.mode.get i = .input) → s.busDriven → exec (.ehR sb) s = .next t →
    t.draws = s.draws ∧ t.cnt = s.cnt ∧
      ∃ v, t.trace = s.trace ++ traceLine s.params.nl v .r ∧ ∀ i : Fin 8, busBit v i = true ↔ x.get i = .d1

/-- R128 (HZ10), turning to drive: an edge serviced while the first `k` lines are outputs reads those lines' own latches where
nothing fights them, and the outside on the rest. What the outside applied at the edge is held since (EO3, R93; log 28). -/
def Obligations.PerLineWindowReadsAMixture : Prop :=
  ∀ (s : State) (x : Lines Drive) (k : Nat), s.edgeBusInv → BusHeldSinceEdge s x → s.directionInv → s.mcs = .cfg true k →
    ∃ v t, exec (.ehR true) s = .next t ∧ t.mcs = s.mcs ∧ t.trace = s.trace ++ traceLine s.params.nl v .r ∧
      ∀ i : Fin 8,
        (i.val < k → x.get i = .z → busBit v i = s.olat.get i) ∧
        (k ≤ i.val → x.get i = .d0 → busBit v i = false) ∧ (k ≤ i.val → x.get i = .d1 → busBit v i = true)

/-- R128 (HZ10), turning to sense: an edge serviced while the first `k` lines are inputs counts, writes all latches and traces as
if driven; the first `k` lines do not show the value. -/
def Obligations.PerLineWindowWritesHiddenLatches : Prop :=
  ∀ (s : State) (k : Nat), s.run = true → s.directionInv → s.mcs = .cfg false k → s.pend = true →
    ∃ t, exec (.ehW false) s = .next t ∧ t.mcs = s.mcs ∧ t.cnt = s.cnt + 1 ∧ t.olat = linesOfByte (s.cnt + 1) ∧
      t.trace = s.trace ++ traceLine s.params.nl (s.cnt + 1) .w ∧
      ∀ i : Fin 8, (i.val < k → t.level (.bus i) = s.level (.bus i)) ∧
        (k ≤ i.val → s.xBus.get i = .z → t.level (.bus i) = some (busBit (s.cnt + 1) i))
end

