-- ==== Sys2Proof/Laws/State.lean ====
section
/-! SUPPORT. What each update of State does to each field: one lemma per field per update. -/

namespace Sys2Proof.Machine

/-! ### setRun -/

@[simp] theorem State.setRun_run (s : State) (b : Bit) : (s.setRun b).run = b := rfl
@[simp] theorem State.setRun_dir (s : State) (b : Bit) : (s.setRun b).dir = s.dir := rfl
@[simp] theorem State.setRun_cnt (s : State) (b : Bit) : (s.setRun b).cnt = s.cnt := rfl
@[simp] theorem State.setRun_mode (s : State) (b : Bit) : (s.setRun b).mode = s.mode := rfl
@[simp] theorem State.setRun_olat (s : State) (b : Bit) : (s.setRun b).olat = s.olat := rfl
@[simp] theorem State.setRun_enpu (s : State) (b : Bit) : (s.setRun b).enpu = s.enpu := rfl
@[simp] theorem State.setRun_xBus (s : State) (b : Bit) : (s.setRun b).xBus = s.xBus := rfl
@[simp] theorem State.setRun_xClk (s : State) (b : Bit) : (s.setRun b).xClk = s.xClk := rfl
@[simp] theorem State.setRun_xEn (s : State) (b : Bit) : (s.setRun b).xEn = s.xEn := rfl
@[simp] theorem State.setRun_pend (s : State) (b : Bit) : (s.setRun b).pend = s.pend := rfl
@[simp] theorem State.setRun_mcs (s : State) (b : Bit) : (s.setRun b).mcs = s.mcs := rfl
@[simp] theorem State.setRun_trace (s : State) (b : Bit) : (s.setRun b).trace = s.trace := rfl
@[simp] theorem State.setRun_params (s : State) (b : Bit) : (s.setRun b).params = s.params := rfl
@[simp] theorem State.setRun_draws (s : State) (b : Bit) : (s.setRun b).draws = s.draws := rfl
@[simp] theorem State.setRun_ticks (s : State) (b : Bit) : (s.setRun b).ticks = s.ticks := rfl
@[simp] theorem State.setRun_script (s : State) (b : Bit) : (s.setRun b).script = s.script := rfl
@[simp] theorem State.setRun_gpio (s : State) (b : Bit) : (s.setRun b).gpio = s.gpio := rfl
@[simp] theorem State.setRun_edgeBus (s : State) (b : Bit) : (s.setRun b).edgeBus = s.edgeBus := rfl

/-! ### setDir -/

@[simp] theorem State.setDir_run (s : State) (b : Bit) : (s.setDir b).run = s.run := rfl
@[simp] theorem State.setDir_dir (s : State) (b : Bit) : (s.setDir b).dir = b := rfl
@[simp] theorem State.setDir_cnt (s : State) (b : Bit) : (s.setDir b).cnt = s.cnt := rfl
@[simp] theorem State.setDir_mode (s : State) (b : Bit) : (s.setDir b).mode = s.mode := rfl
@[simp] theorem State.setDir_olat (s : State) (b : Bit) : (s.setDir b).olat = s.olat := rfl
@[simp] theorem State.setDir_enpu (s : State) (b : Bit) : (s.setDir b).enpu = s.enpu := rfl
@[simp] theorem State.setDir_xBus (s : State) (b : Bit) : (s.setDir b).xBus = s.xBus := rfl
@[simp] theorem State.setDir_xClk (s : State) (b : Bit) : (s.setDir b).xClk = s.xClk := rfl
@[simp] theorem State.setDir_xEn (s : State) (b : Bit) : (s.setDir b).xEn = s.xEn := rfl
@[simp] theorem State.setDir_pend (s : State) (b : Bit) : (s.setDir b).pend = s.pend := rfl
@[simp] theorem State.setDir_mcs (s : State) (b : Bit) : (s.setDir b).mcs = s.mcs := rfl
@[simp] theorem State.setDir_trace (s : State) (b : Bit) : (s.setDir b).trace = s.trace := rfl
@[simp] theorem State.setDir_params (s : State) (b : Bit) : (s.setDir b).params = s.params := rfl
@[simp] theorem State.setDir_draws (s : State) (b : Bit) : (s.setDir b).draws = s.draws := rfl
@[simp] theorem State.setDir_ticks (s : State) (b : Bit) : (s.setDir b).ticks = s.ticks := rfl
@[simp] theorem State.setDir_script (s : State) (b : Bit) : (s.setDir b).script = s.script := rfl
@[simp] theorem State.setDir_gpio (s : State) (b : Bit) : (s.setDir b).gpio = s.gpio := rfl
@[simp] theorem State.setDir_edgeBus (s : State) (b : Bit) : (s.setDir b).edgeBus = s.edgeBus := rfl

/-! ### setCnt -/

@[simp] theorem State.setCnt_run (s : State) (v : Byte) : (s.setCnt v).run = s.run := rfl
@[simp] theorem State.setCnt_dir (s : State) (v : Byte) : (s.setCnt v).dir = s.dir := rfl
@[simp] theorem State.setCnt_cnt (s : State) (v : Byte) : (s.setCnt v).cnt = v := rfl
@[simp] theorem State.setCnt_mode (s : State) (v : Byte) : (s.setCnt v).mode = s.mode := rfl
@[simp] theorem State.setCnt_olat (s : State) (v : Byte) : (s.setCnt v).olat = s.olat := rfl
@[simp] theorem State.setCnt_enpu (s : State) (v : Byte) : (s.setCnt v).enpu = s.enpu := rfl
@[simp] theorem State.setCnt_xBus (s : State) (v : Byte) : (s.setCnt v).xBus = s.xBus := rfl
@[simp] theorem State.setCnt_xClk (s : State) (v : Byte) : (s.setCnt v).xClk = s.xClk := rfl
@[simp] theorem State.setCnt_xEn (s : State) (v : Byte) : (s.setCnt v).xEn = s.xEn := rfl
@[simp] theorem State.setCnt_pend (s : State) (v : Byte) : (s.setCnt v).pend = s.pend := rfl
@[simp] theorem State.setCnt_mcs (s : State) (v : Byte) : (s.setCnt v).mcs = s.mcs := rfl
@[simp] theorem State.setCnt_trace (s : State) (v : Byte) : (s.setCnt v).trace = s.trace := rfl
@[simp] theorem State.setCnt_params (s : State) (v : Byte) : (s.setCnt v).params = s.params := rfl
@[simp] theorem State.setCnt_draws (s : State) (v : Byte) : (s.setCnt v).draws = s.draws := rfl
@[simp] theorem State.setCnt_ticks (s : State) (v : Byte) : (s.setCnt v).ticks = s.ticks := rfl
@[simp] theorem State.setCnt_script (s : State) (v : Byte) : (s.setCnt v).script = s.script := rfl
@[simp] theorem State.setCnt_gpio (s : State) (v : Byte) : (s.setCnt v).gpio = s.gpio := rfl
@[simp] theorem State.setCnt_edgeBus (s : State) (v : Byte) : (s.setCnt v).edgeBus = s.edgeBus := rfl

/-! ### setMode -/

@[simp] theorem State.setMode_run (s : State) (i : Fin 8) (d : PinDir) : (s.setMode i d).run = s.run := rfl
@[simp] theorem State.setMode_dir (s : State) (i : Fin 8) (d : PinDir) : (s.setMode i d).dir = s.dir := rfl
@[simp] theorem State.setMode_cnt (s : State) (i : Fin 8) (d : PinDir) : (s.setMode i d).cnt = s.cnt := rfl
@[simp] theorem State.setMode_mode (s : State) (i : Fin 8) (d : PinDir) : (s.setMode i d).mode = s.mode.set i d := rfl
@[simp] theorem State.setMode_olat (s : State) (i : Fin 8) (d : PinDir) : (s.setMode i d).olat = s.olat := rfl
@[simp] theorem State.setMode_enpu (s : State) (i : Fin 8) (d : PinDir) : (s.setMode i d).enpu = s.enpu := rfl
@[simp] theorem State.setMode_xBus (s : State) (i : Fin 8) (d : PinDir) : (s.setMode i d).xBus = s.xBus := rfl
@[simp] theorem State.setMode_xClk (s : State) (i : Fin 8) (d : PinDir) : (s.setMode i d).xClk = s.xClk := rfl
@[simp] theorem State.setMode_xEn (s : State) (i : Fin 8) (d : PinDir) : (s.setMode i d).xEn = s.xEn := rfl
@[simp] theorem State.setMode_pend (s : State) (i : Fin 8) (d : PinDir) : (s.setMode i d).pend = s.pend := rfl
@[simp] theorem State.setMode_mcs (s : State) (i : Fin 8) (d : PinDir) : (s.setMode i d).mcs = s.mcs := rfl
@[simp] theorem State.setMode_trace (s : State) (i : Fin 8) (d : PinDir) : (s.setMode i d).trace = s.trace := rfl
@[simp] theorem State.setMode_params (s : State) (i : Fin 8) (d : PinDir) : (s.setMode i d).params = s.params := rfl
@[simp] theorem State.setMode_draws (s : State) (i : Fin 8) (d : PinDir) : (s.setMode i d).draws = s.draws := rfl
@[simp] theorem State.setMode_ticks (s : State) (i : Fin 8) (d : PinDir) : (s.setMode i d).ticks = s.ticks := rfl
@[simp] theorem State.setMode_script (s : State) (i : Fin 8) (d : PinDir) : (s.setMode i d).script = s.script := rfl
@[simp] theorem State.setMode_gpio (s : State) (i : Fin 8) (d : PinDir) : (s.setMode i d).gpio = s.gpio := rfl
@[simp] theorem State.setMode_edgeBus (s : State) (i : Fin 8) (d : PinDir) : (s.setMode i d).edgeBus = s.edgeBus := rfl

/-! ### setOlat -/

@[simp] theorem State.setOlat_run (s : State) (i : Fin 8) (b : Level) : (s.setOlat i b).run = s.run := rfl
@[simp] theorem State.setOlat_dir (s : State) (i : Fin 8) (b : Level) : (s.setOlat i b).dir = s.dir := rfl
@[simp] theorem State.setOlat_cnt (s : State) (i : Fin 8) (b : Level) : (s.setOlat i b).cnt = s.cnt := rfl
@[simp] theorem State.setOlat_mode (s : State) (i : Fin 8) (b : Level) : (s.setOlat i b).mode = s.mode := rfl
@[simp] theorem State.setOlat_olat (s : State) (i : Fin 8) (b : Level) : (s.setOlat i b).olat = s.olat.set i b := rfl
@[simp] theorem State.setOlat_enpu (s : State) (i : Fin 8) (b : Level) : (s.setOlat i b).enpu = s.enpu := rfl
@[simp] theorem State.setOlat_xBus (s : State) (i : Fin 8) (b : Level) : (s.setOlat i b).xBus = s.xBus := rfl
@[simp] theorem State.setOlat_xClk (s : State) (i : Fin 8) (b : Level) : (s.setOlat i b).xClk = s.xClk := rfl
@[simp] theorem State.setOlat_xEn (s : State) (i : Fin 8) (b : Level) : (s.setOlat i b).xEn = s.xEn := rfl
@[simp] theorem State.setOlat_pend (s : State) (i : Fin 8) (b : Level) : (s.setOlat i b).pend = s.pend := rfl
@[simp] theorem State.setOlat_mcs (s : State) (i : Fin 8) (b : Level) : (s.setOlat i b).mcs = s.mcs := rfl
@[simp] theorem State.setOlat_trace (s : State) (i : Fin 8) (b : Level) : (s.setOlat i b).trace = s.trace := rfl
@[simp] theorem State.setOlat_params (s : State) (i : Fin 8) (b : Level) : (s.setOlat i b).params = s.params := rfl
@[simp] theorem State.setOlat_draws (s : State) (i : Fin 8) (b : Level) : (s.setOlat i b).draws = s.draws := rfl
@[simp] theorem State.setOlat_ticks (s : State) (i : Fin 8) (b : Level) : (s.setOlat i b).ticks = s.ticks := rfl
@[simp] theorem State.setOlat_script (s : State) (i : Fin 8) (b : Level) : (s.setOlat i b).script = s.script := rfl
@[simp] theorem State.setOlat_gpio (s : State) (i : Fin 8) (b : Level) : (s.setOlat i b).gpio = s.gpio := rfl
@[simp] theorem State.setOlat_edgeBus (s : State) (i : Fin 8) (b : Level) : (s.setOlat i b).edgeBus = s.edgeBus := rfl

/-! ### setLatches -/

@[simp] theorem State.setLatches_run (s : State) (v : Byte) : (s.setLatches v).run = s.run := rfl
@[simp] theorem State.setLatches_dir (s : State) (v : Byte) : (s.setLatches v).dir = s.dir := rfl
@[simp] theorem State.setLatches_cnt (s : State) (v : Byte) : (s.setLatches v).cnt = s.cnt := rfl
@[simp] theorem State.setLatches_mode (s : State) (v : Byte) : (s.setLatches v).mode = s.mode := rfl
@[simp] theorem State.setLatches_olat (s : State) (v : Byte) : (s.setLatches v).olat = linesOfByte v := rfl
@[simp] theorem State.setLatches_enpu (s : State) (v : Byte) : (s.setLatches v).enpu = s.enpu := rfl
@[simp] theorem State.setLatches_xBus (s : State) (v : Byte) : (s.setLatches v).xBus = s.xBus := rfl
@[simp] theorem State.setLatches_xClk (s : State) (v : Byte) : (s.setLatches v).xClk = s.xClk := rfl
@[simp] theorem State.setLatches_xEn (s : State) (v : Byte) : (s.setLatches v).xEn = s.xEn := rfl
@[simp] theorem State.setLatches_pend (s : State) (v : Byte) : (s.setLatches v).pend = s.pend := rfl
@[simp] theorem State.setLatches_mcs (s : State) (v : Byte) : (s.setLatches v).mcs = s.mcs := rfl
@[simp] theorem State.setLatches_trace (s : State) (v : Byte) : (s.setLatches v).trace = s.trace := rfl
@[simp] theorem State.setLatches_params (s : State) (v : Byte) : (s.setLatches v).params = s.params := rfl
@[simp] theorem State.setLatches_draws (s : State) (v : Byte) : (s.setLatches v).draws = s.draws := rfl
@[simp] theorem State.setLatches_ticks (s : State) (v : Byte) : (s.setLatches v).ticks = s.ticks := rfl
@[simp] theorem State.setLatches_script (s : State) (v : Byte) : (s.setLatches v).script = s.script := rfl
@[simp] theorem State.setLatches_gpio (s : State) (v : Byte) : (s.setLatches v).gpio = s.gpio := rfl
@[simp] theorem State.setLatches_edgeBus (s : State) (v : Byte) : (s.setLatches v).edgeBus = s.edgeBus := rfl

/-! ### setEnpu -/

@[simp] theorem State.setEnpu_run (s : State) (b : Bit) : (s.setEnpu b).run = s.run := rfl
@[simp] theorem State.setEnpu_dir (s : State) (b : Bit) : (s.setEnpu b).dir = s.dir := rfl
@[simp] theorem State.setEnpu_cnt (s : State) (b : Bit) : (s.setEnpu b).cnt = s.cnt := rfl
@[simp] theorem State.setEnpu_mode (s : State) (b : Bit) : (s.setEnpu b).mode = s.mode := rfl
@[simp] theorem State.setEnpu_olat (s : State) (b : Bit) : (s.setEnpu b).olat = s.olat := rfl
@[simp] theorem State.setEnpu_enpu (s : State) (b : Bit) : (s.setEnpu b).enpu = b := rfl
@[simp] theorem State.setEnpu_xBus (s : State) (b : Bit) : (s.setEnpu b).xBus = s.xBus := rfl
@[simp] theorem State.setEnpu_xClk (s : State) (b : Bit) : (s.setEnpu b).xClk = s.xClk := rfl
@[simp] theorem State.setEnpu_xEn (s : State) (b : Bit) : (s.setEnpu b).xEn = s.xEn := rfl
@[simp] theorem State.setEnpu_pend (s : State) (b : Bit) : (s.setEnpu b).pend = s.pend := rfl
@[simp] theorem State.setEnpu_mcs (s : State) (b : Bit) : (s.setEnpu b).mcs = s.mcs := rfl
@[simp] theorem State.setEnpu_trace (s : State) (b : Bit) : (s.setEnpu b).trace = s.trace := rfl
@[simp] theorem State.setEnpu_params (s : State) (b : Bit) : (s.setEnpu b).params = s.params := rfl
@[simp] theorem State.setEnpu_draws (s : State) (b : Bit) : (s.setEnpu b).draws = s.draws := rfl
@[simp] theorem State.setEnpu_ticks (s : State) (b : Bit) : (s.setEnpu b).ticks = s.ticks := rfl
@[simp] theorem State.setEnpu_script (s : State) (b : Bit) : (s.setEnpu b).script = s.script := rfl
@[simp] theorem State.setEnpu_gpio (s : State) (b : Bit) : (s.setEnpu b).gpio = s.gpio := rfl
@[simp] theorem State.setEnpu_edgeBus (s : State) (b : Bit) : (s.setEnpu b).edgeBus = s.edgeBus := rfl

/-! ### setXBus -/

@[simp] theorem State.setXBus_run (s : State) (i : Fin 8) (x : Drive) : (s.setXBus i x).run = s.run := rfl
@[simp] theorem State.setXBus_dir (s : State) (i : Fin 8) (x : Drive) : (s.setXBus i x).dir = s.dir := rfl
@[simp] theorem State.setXBus_cnt (s : State) (i : Fin 8) (x : Drive) : (s.setXBus i x).cnt = s.cnt := rfl
@[simp] theorem State.setXBus_mode (s : State) (i : Fin 8) (x : Drive) : (s.setXBus i x).mode = s.mode := rfl
@[simp] theorem State.setXBus_olat (s : State) (i : Fin 8) (x : Drive) : (s.setXBus i x).olat = s.olat := rfl
@[simp] theorem State.setXBus_enpu (s : State) (i : Fin 8) (x : Drive) : (s.setXBus i x).enpu = s.enpu := rfl
@[simp] theorem State.setXBus_xBus (s : State) (i : Fin 8) (x : Drive) : (s.setXBus i x).xBus = s.xBus.set i x := rfl
@[simp] theorem State.setXBus_xClk (s : State) (i : Fin 8) (x : Drive) : (s.setXBus i x).xClk = s.xClk := rfl
@[simp] theorem State.setXBus_xEn (s : State) (i : Fin 8) (x : Drive) : (s.setXBus i x).xEn = s.xEn := rfl
@[simp] theorem State.setXBus_pend (s : State) (i : Fin 8) (x : Drive) : (s.setXBus i x).pend = s.pend := rfl
@[simp] theorem State.setXBus_mcs (s : State) (i : Fin 8) (x : Drive) : (s.setXBus i x).mcs = s.mcs := rfl
@[simp] theorem State.setXBus_trace (s : State) (i : Fin 8) (x : Drive) : (s.setXBus i x).trace = s.trace := rfl
@[simp] theorem State.setXBus_params (s : State) (i : Fin 8) (x : Drive) : (s.setXBus i x).params = s.params := rfl
@[simp] theorem State.setXBus_draws (s : State) (i : Fin 8) (x : Drive) : (s.setXBus i x).draws = s.draws := rfl
@[simp] theorem State.setXBus_ticks (s : State) (i : Fin 8) (x : Drive) : (s.setXBus i x).ticks = s.ticks := rfl
@[simp] theorem State.setXBus_script (s : State) (i : Fin 8) (x : Drive) : (s.setXBus i x).script = s.script := rfl
@[simp] theorem State.setXBus_gpio (s : State) (i : Fin 8) (x : Drive) : (s.setXBus i x).gpio = s.gpio := rfl
@[simp] theorem State.setXBus_edgeBus (s : State) (i : Fin 8) (x : Drive) : (s.setXBus i x).edgeBus = s.edgeBus := rfl

/-! ### setXClk -/

@[simp] theorem State.setXClk_run (s : State) (b : Level) : (s.setXClk b).run = s.run := rfl
@[simp] theorem State.setXClk_dir (s : State) (b : Level) : (s.setXClk b).dir = s.dir := rfl
@[simp] theorem State.setXClk_cnt (s : State) (b : Level) : (s.setXClk b).cnt = s.cnt := rfl
@[simp] theorem State.setXClk_mode (s : State) (b : Level) : (s.setXClk b).mode = s.mode := rfl
@[simp] theorem State.setXClk_olat (s : State) (b : Level) : (s.setXClk b).olat = s.olat := rfl
@[simp] theorem State.setXClk_enpu (s : State) (b : Level) : (s.setXClk b).enpu = s.enpu := rfl
@[simp] theorem State.setXClk_xBus (s : State) (b : Level) : (s.setXClk b).xBus = s.xBus := rfl
@[simp] theorem State.setXClk_xClk (s : State) (b : Level) : (s.setXClk b).xClk = b := rfl
@[simp] theorem State.setXClk_xEn (s : State) (b : Level) : (s.setXClk b).xEn = s.xEn := rfl
@[simp] theorem State.setXClk_pend (s : State) (b : Level) : (s.setXClk b).pend = s.pend := rfl
@[simp] theorem State.setXClk_mcs (s : State) (b : Level) : (s.setXClk b).mcs = s.mcs := rfl
@[simp] theorem State.setXClk_trace (s : State) (b : Level) : (s.setXClk b).trace = s.trace := rfl
@[simp] theorem State.setXClk_params (s : State) (b : Level) : (s.setXClk b).params = s.params := rfl
@[simp] theorem State.setXClk_draws (s : State) (b : Level) : (s.setXClk b).draws = s.draws := rfl
@[simp] theorem State.setXClk_ticks (s : State) (b : Level) : (s.setXClk b).ticks = s.ticks := rfl
@[simp] theorem State.setXClk_script (s : State) (b : Level) : (s.setXClk b).script = s.script := rfl
@[simp] theorem State.setXClk_gpio (s : State) (b : Level) : (s.setXClk b).gpio = s.gpio := rfl
@[simp] theorem State.setXClk_edgeBus (s : State) (b : Level) : (s.setXClk b).edgeBus = s.edgeBus := rfl

/-! ### setXEn -/

@[simp] theorem State.setXEn_run (s : State) (x : Drive) : (s.setXEn x).run = s.run := rfl
@[simp] theorem State.setXEn_dir (s : State) (x : Drive) : (s.setXEn x).dir = s.dir := rfl
@[simp] theorem State.setXEn_cnt (s : State) (x : Drive) : (s.setXEn x).cnt = s.cnt := rfl
@[simp] theorem State.setXEn_mode (s : State) (x : Drive) : (s.setXEn x).mode = s.mode := rfl
@[simp] theorem State.setXEn_olat (s : State) (x : Drive) : (s.setXEn x).olat = s.olat := rfl
@[simp] theorem State.setXEn_enpu (s : State) (x : Drive) : (s.setXEn x).enpu = s.enpu := rfl
@[simp] theorem State.setXEn_xBus (s : State) (x : Drive) : (s.setXEn x).xBus = s.xBus := rfl
@[simp] theorem State.setXEn_xClk (s : State) (x : Drive) : (s.setXEn x).xClk = s.xClk := rfl
@[simp] theorem State.setXEn_xEn (s : State) (x : Drive) : (s.setXEn x).xEn = x := rfl
@[simp] theorem State.setXEn_pend (s : State) (x : Drive) : (s.setXEn x).pend = s.pend := rfl
@[simp] theorem State.setXEn_mcs (s : State) (x : Drive) : (s.setXEn x).mcs = s.mcs := rfl
@[simp] theorem State.setXEn_trace (s : State) (x : Drive) : (s.setXEn x).trace = s.trace := rfl
@[simp] theorem State.setXEn_params (s : State) (x : Drive) : (s.setXEn x).params = s.params := rfl
@[simp] theorem State.setXEn_draws (s : State) (x : Drive) : (s.setXEn x).draws = s.draws := rfl
@[simp] theorem State.setXEn_ticks (s : State) (x : Drive) : (s.setXEn x).ticks = s.ticks := rfl
@[simp] theorem State.setXEn_script (s : State) (x : Drive) : (s.setXEn x).script = s.script := rfl
@[simp] theorem State.setXEn_gpio (s : State) (x : Drive) : (s.setXEn x).gpio = s.gpio := rfl
@[simp] theorem State.setXEn_edgeBus (s : State) (x : Drive) : (s.setXEn x).edgeBus = s.edgeBus := rfl

/-! ### setPend -/

@[simp] theorem State.setPend_run (s : State) (b : Bit) : (s.setPend b).run = s.run := rfl
@[simp] theorem State.setPend_dir (s : State) (b : Bit) : (s.setPend b).dir = s.dir := rfl
@[simp] theorem State.setPend_cnt (s : State) (b : Bit) : (s.setPend b).cnt = s.cnt := rfl
@[simp] theorem State.setPend_mode (s : State) (b : Bit) : (s.setPend b).mode = s.mode := rfl
@[simp] theorem State.setPend_olat (s : State) (b : Bit) : (s.setPend b).olat = s.olat := rfl
@[simp] theorem State.setPend_enpu (s : State) (b : Bit) : (s.setPend b).enpu = s.enpu := rfl
@[simp] theorem State.setPend_xBus (s : State) (b : Bit) : (s.setPend b).xBus = s.xBus := rfl
@[simp] theorem State.setPend_xClk (s : State) (b : Bit) : (s.setPend b).xClk = s.xClk := rfl
@[simp] theorem State.setPend_xEn (s : State) (b : Bit) : (s.setPend b).xEn = s.xEn := rfl
@[simp] theorem State.setPend_pend (s : State) (b : Bit) : (s.setPend b).pend = b := rfl
@[simp] theorem State.setPend_mcs (s : State) (b : Bit) : (s.setPend b).mcs = s.mcs := rfl
@[simp] theorem State.setPend_trace (s : State) (b : Bit) : (s.setPend b).trace = s.trace := rfl
@[simp] theorem State.setPend_params (s : State) (b : Bit) : (s.setPend b).params = s.params := rfl
@[simp] theorem State.setPend_draws (s : State) (b : Bit) : (s.setPend b).draws = s.draws := rfl
@[simp] theorem State.setPend_ticks (s : State) (b : Bit) : (s.setPend b).ticks = s.ticks := rfl
@[simp] theorem State.setPend_script (s : State) (b : Bit) : (s.setPend b).script = s.script := rfl
@[simp] theorem State.setPend_gpio (s : State) (b : Bit) : (s.setPend b).gpio = s.gpio := rfl
@[simp] theorem State.setPend_edgeBus (s : State) (b : Bit) : (s.setPend b).edgeBus = s.edgeBus := rfl

/-! ### setMcs -/

@[simp] theorem State.setMcs_run (s : State) (m : Mcs) : (s.setMcs m).run = s.run := rfl
@[simp] theorem State.setMcs_dir (s : State) (m : Mcs) : (s.setMcs m).dir = s.dir := rfl
@[simp] theorem State.setMcs_cnt (s : State) (m : Mcs) : (s.setMcs m).cnt = s.cnt := rfl
@[simp] theorem State.setMcs_mode (s : State) (m : Mcs) : (s.setMcs m).mode = s.mode := rfl
@[simp] theorem State.setMcs_olat (s : State) (m : Mcs) : (s.setMcs m).olat = s.olat := rfl
@[simp] theorem State.setMcs_enpu (s : State) (m : Mcs) : (s.setMcs m).enpu = s.enpu := rfl
@[simp] theorem State.setMcs_xBus (s : State) (m : Mcs) : (s.setMcs m).xBus = s.xBus := rfl
@[simp] theorem State.setMcs_xClk (s : State) (m : Mcs) : (s.setMcs m).xClk = s.xClk := rfl
@[simp] theorem State.setMcs_xEn (s : State) (m : Mcs) : (s.setMcs m).xEn = s.xEn := rfl
@[simp] theorem State.setMcs_pend (s : State) (m : Mcs) : (s.setMcs m).pend = s.pend := rfl
@[simp] theorem State.setMcs_mcs (s : State) (m : Mcs) : (s.setMcs m).mcs = m := rfl
@[simp] theorem State.setMcs_trace (s : State) (m : Mcs) : (s.setMcs m).trace = s.trace := rfl
@[simp] theorem State.setMcs_params (s : State) (m : Mcs) : (s.setMcs m).params = s.params := rfl
@[simp] theorem State.setMcs_draws (s : State) (m : Mcs) : (s.setMcs m).draws = s.draws := rfl
@[simp] theorem State.setMcs_ticks (s : State) (m : Mcs) : (s.setMcs m).ticks = s.ticks := rfl
@[simp] theorem State.setMcs_script (s : State) (m : Mcs) : (s.setMcs m).script = s.script := rfl
@[simp] theorem State.setMcs_gpio (s : State) (m : Mcs) : (s.setMcs m).gpio = s.gpio := rfl
@[simp] theorem State.setMcs_edgeBus (s : State) (m : Mcs) : (s.setMcs m).edgeBus = s.edgeBus := rfl

/-! ### putByte -/

@[simp] theorem State.putByte_run (s : State) (b : Byte) : (s.putByte b).run = s.run := rfl
@[simp] theorem State.putByte_dir (s : State) (b : Byte) : (s.putByte b).dir = s.dir := rfl
@[simp] theorem State.putByte_cnt (s : State) (b : Byte) : (s.putByte b).cnt = s.cnt := rfl
@[simp] theorem State.putByte_mode (s : State) (b : Byte) : (s.putByte b).mode = s.mode := rfl
@[simp] theorem State.putByte_olat (s : State) (b : Byte) : (s.putByte b).olat = s.olat := rfl
@[simp] theorem State.putByte_enpu (s : State) (b : Byte) : (s.putByte b).enpu = s.enpu := rfl
@[simp] theorem State.putByte_xBus (s : State) (b : Byte) : (s.putByte b).xBus = s.xBus := rfl
@[simp] theorem State.putByte_xClk (s : State) (b : Byte) : (s.putByte b).xClk = s.xClk := rfl
@[simp] theorem State.putByte_xEn (s : State) (b : Byte) : (s.putByte b).xEn = s.xEn := rfl
@[simp] theorem State.putByte_pend (s : State) (b : Byte) : (s.putByte b).pend = s.pend := rfl
@[simp] theorem State.putByte_mcs (s : State) (b : Byte) : (s.putByte b).mcs = s.mcs := rfl
@[simp] theorem State.putByte_trace (s : State) (b : Byte) : (s.putByte b).trace = s.trace ++ [b] := rfl
@[simp] theorem State.putByte_params (s : State) (b : Byte) : (s.putByte b).params = s.params := rfl
@[simp] theorem State.putByte_draws (s : State) (b : Byte) : (s.putByte b).draws = s.draws := rfl
@[simp] theorem State.putByte_ticks (s : State) (b : Byte) : (s.putByte b).ticks = s.ticks := rfl
@[simp] theorem State.putByte_script (s : State) (b : Byte) : (s.putByte b).script = s.script := rfl
@[simp] theorem State.putByte_gpio (s : State) (b : Byte) : (s.putByte b).gpio = s.gpio := rfl
@[simp] theorem State.putByte_edgeBus (s : State) (b : Byte) : (s.putByte b).edgeBus = s.edgeBus := rfl

/-! ### addCall -/

@[simp] theorem State.addCall_run (s : State) (c : GpioCall) : (s.addCall c).run = s.run := rfl
@[simp] theorem State.addCall_dir (s : State) (c : GpioCall) : (s.addCall c).dir = s.dir := rfl
@[simp] theorem State.addCall_cnt (s : State) (c : GpioCall) : (s.addCall c).cnt = s.cnt := rfl
@[simp] theorem State.addCall_mode (s : State) (c : GpioCall) : (s.addCall c).mode = s.mode := rfl
@[simp] theorem State.addCall_olat (s : State) (c : GpioCall) : (s.addCall c).olat = s.olat := rfl
@[simp] theorem State.addCall_enpu (s : State) (c : GpioCall) : (s.addCall c).enpu = s.enpu := rfl
@[simp] theorem State.addCall_xBus (s : State) (c : GpioCall) : (s.addCall c).xBus = s.xBus := rfl
@[simp] theorem State.addCall_xClk (s : State) (c : GpioCall) : (s.addCall c).xClk = s.xClk := rfl
@[simp] theorem State.addCall_xEn (s : State) (c : GpioCall) : (s.addCall c).xEn = s.xEn := rfl
@[simp] theorem State.addCall_pend (s : State) (c : GpioCall) : (s.addCall c).pend = s.pend := rfl
@[simp] theorem State.addCall_mcs (s : State) (c : GpioCall) : (s.addCall c).mcs = s.mcs := rfl
@[simp] theorem State.addCall_trace (s : State) (c : GpioCall) : (s.addCall c).trace = s.trace := rfl
@[simp] theorem State.addCall_params (s : State) (c : GpioCall) : (s.addCall c).params = s.params := rfl
@[simp] theorem State.addCall_draws (s : State) (c : GpioCall) : (s.addCall c).draws = s.draws := rfl
@[simp] theorem State.addCall_ticks (s : State) (c : GpioCall) : (s.addCall c).ticks = s.ticks := rfl
@[simp] theorem State.addCall_script (s : State) (c : GpioCall) : (s.addCall c).script = s.script := rfl
@[simp] theorem State.addCall_gpio (s : State) (c : GpioCall) : (s.addCall c).gpio = s.gpio ++ [c] := rfl
@[simp] theorem State.addCall_edgeBus (s : State) (c : GpioCall) : (s.addCall c).edgeBus = s.edgeBus := rfl

/-! ### nextDraw -/

@[simp] theorem State.nextDraw_run (s : State) : (s.nextDraw).run = s.run := rfl
@[simp] theorem State.nextDraw_dir (s : State) : (s.nextDraw).dir = s.dir := rfl
@[simp] theorem State.nextDraw_cnt (s : State) : (s.nextDraw).cnt = s.cnt := rfl
@[simp] theorem State.nextDraw_mode (s : State) : (s.nextDraw).mode = s.mode := rfl
@[simp] theorem State.nextDraw_olat (s : State) : (s.nextDraw).olat = s.olat := rfl
@[simp] theorem State.nextDraw_enpu (s : State) : (s.nextDraw).enpu = s.enpu := rfl
@[simp] theorem State.nextDraw_xBus (s : State) : (s.nextDraw).xBus = s.xBus := rfl
@[simp] theorem State.nextDraw_xClk (s : State) : (s.nextDraw).xClk = s.xClk := rfl
@[simp] theorem State.nextDraw_xEn (s : State) : (s.nextDraw).xEn = s.xEn := rfl
@[simp] theorem State.nextDraw_pend (s : State) : (s.nextDraw).pend = s.pend := rfl
@[simp] theorem State.nextDraw_mcs (s : State) : (s.nextDraw).mcs = s.mcs := rfl
@[simp] theorem State.nextDraw_trace (s : State) : (s.nextDraw).trace = s.trace := rfl
@[simp] theorem State.nextDraw_params (s : State) : (s.nextDraw).params = s.params := rfl
@[simp] theorem State.nextDraw_draws (s : State) : (s.nextDraw).draws = s.draws + 1 := rfl
@[simp] theorem State.nextDraw_ticks (s : State) : (s.nextDraw).ticks = s.ticks := rfl
@[simp] theorem State.nextDraw_script (s : State) : (s.nextDraw).script = s.script := rfl
@[simp] theorem State.nextDraw_gpio (s : State) : (s.nextDraw).gpio = s.gpio := rfl
@[simp] theorem State.nextDraw_edgeBus (s : State) : (s.nextDraw).edgeBus = s.edgeBus := rfl

/-! ### nextTick -/

@[simp] theorem State.nextTick_run (s : State) : (s.nextTick).run = s.run := rfl
@[simp] theorem State.nextTick_dir (s : State) : (s.nextTick).dir = s.dir := rfl
@[simp] theorem State.nextTick_cnt (s : State) : (s.nextTick).cnt = s.cnt := rfl
@[simp] theorem State.nextTick_mode (s : State) : (s.nextTick).mode = s.mode := rfl
@[simp] theorem State.nextTick_olat (s : State) : (s.nextTick).olat = s.olat := rfl
@[simp] theorem State.nextTick_enpu (s : State) : (s.nextTick).enpu = s.enpu := rfl
@[simp] theorem State.nextTick_xBus (s : State) : (s.nextTick).xBus = s.xBus := rfl
@[simp] theorem State.nextTick_xClk (s : State) : (s.nextTick).xClk = s.xClk := rfl
@[simp] theorem State.nextTick_xEn (s : State) : (s.nextTick).xEn = s.xEn := rfl
@[simp] theorem State.nextTick_pend (s : State) : (s.nextTick).pend = s.pend := rfl
@[simp] theorem State.nextTick_mcs (s : State) : (s.nextTick).mcs = s.mcs := rfl
@[simp] theorem State.nextTick_trace (s : State) : (s.nextTick).trace = s.trace := rfl
@[simp] theorem State.nextTick_params (s : State) : (s.nextTick).params = s.params := rfl
@[simp] theorem State.nextTick_draws (s : State) : (s.nextTick).draws = s.draws := rfl
@[simp] theorem State.nextTick_ticks (s : State) : (s.nextTick).ticks = s.ticks + 1 := rfl
@[simp] theorem State.nextTick_script (s : State) : (s.nextTick).script = s.script := rfl
@[simp] theorem State.nextTick_gpio (s : State) : (s.nextTick).gpio = s.gpio := rfl
@[simp] theorem State.nextTick_edgeBus (s : State) : (s.nextTick).edgeBus = s.edgeBus := rfl

/-! ### setEdgeBus -/

@[simp] theorem State.setEdgeBus_run (s : State) (x : Option (Lines Drive)) : (s.setEdgeBus x).run = s.run := rfl
@[simp] theorem State.setEdgeBus_dir (s : State) (x : Option (Lines Drive)) : (s.setEdgeBus x).dir = s.dir := rfl
@[simp] theorem State.setEdgeBus_cnt (s : State) (x : Option (Lines Drive)) : (s.setEdgeBus x).cnt = s.cnt := rfl
@[simp] theorem State.setEdgeBus_mode (s : State) (x : Option (Lines Drive)) : (s.setEdgeBus x).mode = s.mode := rfl
@[simp] theorem State.setEdgeBus_olat (s : State) (x : Option (Lines Drive)) : (s.setEdgeBus x).olat = s.olat := rfl
@[simp] theorem State.setEdgeBus_enpu (s : State) (x : Option (Lines Drive)) : (s.setEdgeBus x).enpu = s.enpu := rfl
@[simp] theorem State.setEdgeBus_xBus (s : State) (x : Option (Lines Drive)) : (s.setEdgeBus x).xBus = s.xBus := rfl
@[simp] theorem State.setEdgeBus_xClk (s : State) (x : Option (Lines Drive)) : (s.setEdgeBus x).xClk = s.xClk := rfl
@[simp] theorem State.setEdgeBus_xEn (s : State) (x : Option (Lines Drive)) : (s.setEdgeBus x).xEn = s.xEn := rfl
@[simp] theorem State.setEdgeBus_pend (s : State) (x : Option (Lines Drive)) : (s.setEdgeBus x).pend = s.pend := rfl
@[simp] theorem State.setEdgeBus_mcs (s : State) (x : Option (Lines Drive)) : (s.setEdgeBus x).mcs = s.mcs := rfl
@[simp] theorem State.setEdgeBus_trace (s : State) (x : Option (Lines Drive)) : (s.setEdgeBus x).trace = s.trace := rfl
@[simp] theorem State.setEdgeBus_params (s : State) (x : Option (Lines Drive)) : (s.setEdgeBus x).params = s.params := rfl
@[simp] theorem State.setEdgeBus_draws (s : State) (x : Option (Lines Drive)) : (s.setEdgeBus x).draws = s.draws := rfl
@[simp] theorem State.setEdgeBus_ticks (s : State) (x : Option (Lines Drive)) : (s.setEdgeBus x).ticks = s.ticks := rfl
@[simp] theorem State.setEdgeBus_script (s : State) (x : Option (Lines Drive)) : (s.setEdgeBus x).script = s.script := rfl
@[simp] theorem State.setEdgeBus_gpio (s : State) (x : Option (Lines Drive)) : (s.setEdgeBus x).gpio = s.gpio := rfl
@[simp] theorem State.setEdgeBus_edgeBus (s : State) (x : Option (Lines Drive)) : (s.setEdgeBus x).edgeBus = x := rfl

/-! ### setScript -/

@[simp] theorem State.setScript_run (s : State) (r : List Request) : (s.setScript r).run = s.run := rfl
@[simp] theorem State.setScript_dir (s : State) (r : List Request) : (s.setScript r).dir = s.dir := rfl
@[simp] theorem State.setScript_cnt (s : State) (r : List Request) : (s.setScript r).cnt = s.cnt := rfl
@[simp] theorem State.setScript_mode (s : State) (r : List Request) : (s.setScript r).mode = s.mode := rfl
@[simp] theorem State.setScript_olat (s : State) (r : List Request) : (s.setScript r).olat = s.olat := rfl
@[simp] theorem State.setScript_enpu (s : State) (r : List Request) : (s.setScript r).enpu = s.enpu := rfl
@[simp] theorem State.setScript_xBus (s : State) (r : List Request) : (s.setScript r).xBus = s.xBus := rfl
@[simp] theorem State.setScript_xClk (s : State) (r : List Request) : (s.setScript r).xClk = s.xClk := rfl
@[simp] theorem State.setScript_xEn (s : State) (r : List Request) : (s.setScript r).xEn = s.xEn := rfl
@[simp] theorem State.setScript_pend (s : State) (r : List Request) : (s.setScript r).pend = s.pend := rfl
@[simp] theorem State.setScript_mcs (s : State) (r : List Request) : (s.setScript r).mcs = s.mcs := rfl
@[simp] theorem State.setScript_trace (s : State) (r : List Request) : (s.setScript r).trace = s.trace := rfl
@[simp] theorem State.setScript_params (s : State) (r : List Request) : (s.setScript r).params = s.params := rfl
@[simp] theorem State.setScript_draws (s : State) (r : List Request) : (s.setScript r).draws = s.draws := rfl
@[simp] theorem State.setScript_ticks (s : State) (r : List Request) : (s.setScript r).ticks = s.ticks := rfl
@[simp] theorem State.setScript_script (s : State) (r : List Request) : (s.setScript r).script = r := rfl
@[simp] theorem State.setScript_gpio (s : State) (r : List Request) : (s.setScript r).gpio = s.gpio := rfl
@[simp] theorem State.setScript_edgeBus (s : State) (r : List Request) : (s.setScript r).edgeBus = s.edgeBus := rfl

/-! ### The level of a line reads `MODE`, `OLAT`, `ENPU` and `X` only -/

@[simp] theorem State.setRun_level (s : State) (b : Bit) (ln : Line) : (s.setRun b).level ln = s.level ln := by
  cases ln <;> rfl
@[simp] theorem State.setDir_level (s : State) (b : Bit) (ln : Line) : (s.setDir b).level ln = s.level ln := by
  cases ln <;> rfl
@[simp] theorem State.setCnt_level (s : State) (v : Byte) (ln : Line) : (s.setCnt v).level ln = s.level ln := by
  cases ln <;> rfl
@[simp] theorem State.setPend_level (s : State) (b : Bit) (ln : Line) : (s.setPend b).level ln = s.level ln := by
  cases ln <;> rfl
@[simp] theorem State.setMcs_level (s : State) (m : Mcs) (ln : Line) : (s.setMcs m).level ln = s.level ln := by
  cases ln <;> rfl
@[simp] theorem State.putByte_level (s : State) (b : Byte) (ln : Line) : (s.putByte b).level ln = s.level ln := by
  cases ln <;> rfl
@[simp] theorem State.addCall_level (s : State) (c : GpioCall) (ln : Line) : (s.addCall c).level ln = s.level ln := by
  cases ln <;> rfl
@[simp] theorem State.nextDraw_level (s : State) (ln : Line) : (s.nextDraw).level ln = s.level ln := by
  cases ln <;> rfl
@[simp] theorem State.nextTick_level (s : State) (ln : Line) : (s.nextTick).level ln = s.level ln := by
  cases ln <;> rfl
@[simp] theorem State.setEdgeBus_level (s : State) (x : Option (Lines Drive)) (ln : Line) :
    (s.setEdgeBus x).level ln = s.level ln := by
  cases ln <;> rfl
@[simp] theorem State.setScript_level (s : State) (r : List Request) (ln : Line) : (s.setScript r).level ln = s.level ln := by
  cases ln <;> rfl

end Sys2Proof.Machine
end

