-- ==== Sys2Proof/Laws/Operands.lean ====
section
/-! SUPPORT. The bank of lines, the map between a byte and the lines, lines and their indices. -/

namespace Sys2Proof.Machine

@[simp] theorem Lines.get_fill {α : Type} (x : α) (i : Fin 8) : (Lines.fill x).get i = x := by
  fin_cases i <;> rfl

theorem Lines.get_set {α : Type} (v : Lines α) (i j : Fin 8) (x : α) :
    (v.set i x).get j = if j = i then x else v.get j := by
  fin_cases i <;> fin_cases j <;> rfl

@[simp] theorem Lines.get_set_self {α : Type} (v : Lines α) (i : Fin 8) (x : α) : (v.set i x).get i = x := by
  simp [Lines.get_set]

theorem Lines.ext_get {α : Type} {u v : Lines α} (h : ∀ i, u.get i = v.get i) : u = v := by
  cases u
  cases v
  have := h 0; have := h 1; have := h 2; have := h 3; have := h 4; have := h 5; have := h 6; have := h 7
  simp_all [Lines.get]

/-- Setting what is already there changes nothing. -/
theorem Lines.set_set {α : Type} (v : Lines α) (i : Fin 8) (x : α) : (v.set i x).set i x = v.set i x := by
  fin_cases i <;> rfl

@[simp] theorem linesOfByte_get (v : Byte) (i : Fin 8) : (linesOfByte v).get i = busBit v i := by
  fin_cases i <;> rfl

/-- R52 reads the table of R51 the other way. -/
@[simp] theorem busBit_byteOfLines (v : Lines Level) (i : Fin 8) : busBit (byteOfLines v) i = v.get i := by
  obtain ⟨a, b, c, d, e, f, g, h⟩ := v
  revert a b c d e f g h i
  decide

@[simp] theorem linesOfByte_byteOfLines (v : Lines Level) : linesOfByte (byteOfLines v) = v :=
  Lines.ext_get fun i => by simp

/-- A byte is what its eight bus bits are. -/
theorem byte_ext_busBit {u v : Byte} (h : ∀ i, busBit u i = busBit v i) : u = v := by
  apply BitVec.eq_of_getLsbD_eq
  intro k hk
  have := h ⟨7 - k, by omega⟩
  simpa [busBit, show 7 - (7 - k) = k by omega] using this

@[simp] theorem byteOfLines_linesOfByte (v : Byte) : byteOfLines (linesOfByte v) = v :=
  byte_ext_busBit fun i => by simp

theorem mem_busOrder (i : Fin 8) : i ∈ busOrder := by
  revert i
  decide

@[simp] theorem pinModeOf_pinDirOf (b : Bit) : pinModeOf (pinDirOf b) = if b then .output else .input := by
  cases b <;> rfl

@[simp] theorem pinDirOf_eq_output (b : Bit) : pinDirOf b = .output ↔ b = true := by
  cases b <;> simp [pinDirOf]

@[simp] theorem pinDirOf_eq_input (b : Bit) : pinDirOf b = .input ↔ b = false := by
  cases b <;> simp [pinDirOf]

@[simp] theorem traceLine_length (nl : List Byte) (v : Byte) (t : Tag) : (traceLine nl v t).length = 10 + nl.length := by
  simp [traceLine]
  omega

end Sys2Proof.Machine

namespace Sys2Proof

/-- A line is the line of its index (spec/20_memory.md R38). -/
@[simp] theorem lineOfIndex_lineIndex (ln : Line) : lineOfIndex (lineIndex ln) = ln := by
  cases ln with
  | bus i => revert i; decide
  | clk => decide
  | en => decide
  | reserved n => revert n; decide

@[simp] theorem lineIndex_lineOfIndex (n : BitVec 4) : lineIndex (lineOfIndex n) = n := by
  revert n
  decide

@[simp] theorem pinModeOfField_pinModeField (md : PinMode) : pinModeOfField (pinModeField md) = some md := by
  cases md <;> decide

@[simp] theorem driveOfField_driveField (x : Drive) : driveOfField (driveField x) = some x := by
  cases x <;> decide

end Sys2Proof
end

