-- ==== Sys2Proof/Laws/Ops.lean ====
section
/-! SUPPORT. One lemma per shared operation, which says everything it does. -/

namespace Sys2Proof.Machine

/-! ## Guards -/

theorem requires_eq_next {c : Bool} {s t : State} : requires c s = .next t ↔ c = true ∧ s = t := by
  cases c <;> simp [requires]

theorem requires_eq_refused {c : Bool} {s : State} {r : Refusal} :
    requires c s = .refused r ↔ c = false ∧ r = .notEnabled := by
  cases c <;> simp [requires, eq_comm]

@[simp] theorem requires_true (s : State) : requires true s = .next s := rfl

@[simp] theorem requires_false (s : State) : requires false s = .refused .notEnabled := rfl

/-! ## The GPIO bank -/

/-- CFGDIR on all eight lines (R70, R71): every mode, and eight requests in ascending line order. -/
theorem turnBus_eq (d : PinDir) (s : State) :
    turnBus d s =
      { s with mode := Lines.fill d, gpio := s.gpio ++ busOrder.map fun i => .cfgdir (.bus i) (pinModeOf d) } := by
  simp [turnBus, forLines, busOrder, cfgBus, State.setMode, State.addCall, Lines.set, Lines.fill]

/-- WRLVL on all eight lines (R76): every latch, and eight requests in ascending line order. -/
theorem driveBus_eq (v : Byte) (s : State) :
    driveBus v s =
      { s with olat := linesOfByte v, gpio := s.gpio ++ busOrder.map fun i => .wrlvl (.bus i) (busBit v i) } := by
  simp [driveBus, forLines, busOrder, writeLevel, State.setOlat, State.addCall, Lines.set, linesOfByte]

/-- RDLVL where the level is no draw (R83). -/
theorem readLevel_of_level {ln : Line} {s : State} {b : Level} (h : s.level ln = some b) :
    readLevel ln s = (b, s.addCall (.rdlvl ln b)) := by
  simp [readLevel, h]

/-- RDLVL where the level is a draw (R83, R24). -/
theorem readLevel_of_draw {ln : Line} {s : State} (h : s.level ln = none) :
    readLevel ln s = (Config.freeBit s.draws, s.nextDraw.addCall (.rdlvl ln (Config.freeBit s.draws))) := by
  simp [readLevel, h]

/-- The number of draws a read of the line takes. -/
def drawsOf (s : State) (ln : Line) : Nat := if s.level ln = none then 1 else 0

/-- RDLVL changes the draw counter and the GPIO traffic, nothing else (R39, R83). -/
theorem readLevel_state (ln : Line) (s : State) :
    (readLevel ln s).2 =
      { s with draws := s.draws + drawsOf s ln, gpio := s.gpio ++ [.rdlvl ln (readLevel ln s).1] } := by
  cases h : s.level ln with
  | none => simp [readLevel_of_draw h, drawsOf, h, State.addCall, State.nextDraw]
  | some b => simp [readLevel_of_level h, drawsOf, h, State.addCall]

@[simp] theorem readLevel_level (ln m : Line) (s : State) : (readLevel ln s).2.level m = s.level m := by
  rw [readLevel_state]
  cases m <;> rfl

/-- What the first read answers of a line that is no draw. -/
theorem readLevel_fst {ln : Line} {s : State} {b : Level} (h : s.level ln = some b) : (readLevel ln s).1 = b := by
  simp [readLevel_of_level h]

/-- Reading a list of lines: the draws and the requests it takes, and nothing else changed. -/
theorem readLines_state (is : List (Fin 8)) (acc : Lines Level) (s : State) :
    ∃ (n : Nat) (calls : List GpioCall),
      (readLines is acc s).2 = { s with draws := n, gpio := s.gpio ++ calls } := by
  induction is generalizing acc s with
  | nil => exact ⟨s.draws, [], by simp [readLines]⟩
  | cons i is ih =>
    obtain ⟨n, calls, h⟩ := ih (acc.set i (readLevel (.bus i) s).1) (readLevel (.bus i) s).2
    refine ⟨n, .rdlvl (.bus i) (readLevel (.bus i) s).1 :: calls, ?_⟩
    simp only [readLines, h]
    rw [readLevel_state]
    simp

/-- A line that is not read keeps its entry. -/
theorem readLines_get_of_not_mem {is : List (Fin 8)} {acc : Lines Level} {s : State} {j : Fin 8} (h : j ∉ is) :
    (readLines is acc s).1.get j = acc.get j := by
  induction is generalizing acc s with
  | nil => rfl
  | cons i is ih =>
    simp only [List.mem_cons, not_or] at h
    simp [readLines, ih h.2, Lines.get_set, h.1]

/-- A line that is read, and is no draw, has its level as entry. -/
theorem readLines_get {is : List (Fin 8)} {acc : Lines Level} {s : State} {j : Fin 8} {b : Level}
    (hn : is.Nodup) (hj : j ∈ is) (h : s.level (.bus j) = some b) : (readLines is acc s).1.get j = b := by
  induction is generalizing acc s with
  | nil => simp at hj
  | cons i is ih =>
    rw [List.nodup_cons] at hn
    by_cases hi : j = i
    · subst hi
      simp [readLines, readLines_get_of_not_mem hn.1, readLevel_fst h]
    · exact ih hn.2 (by simpa [hi] using hj) ((readLevel_level (.bus i) (.bus j) s).trans h)

/-- Sampling the bus changes the draw counter and the GPIO traffic, nothing else (R77). -/
theorem sampleBus_state (s : State) :
    ∃ (n : Nat) (calls : List GpioCall), (sampleBus s).2 = { s with draws := n, gpio := s.gpio ++ calls } :=
  readLines_state busOrder (Lines.fill false) s

/-- The sampled value has the level of line `L[i]` as bit `7 - i`, wherever that level is no draw (R52, R77). -/
theorem sampleBus_bit {s : State} {i : Fin 8} {b : Level} (h : s.level (.bus i) = some b) :
    busBit (sampleBus s).1 i = b := by
  simp only [sampleBus, busBit_byteOfLines]
  exact readLines_get (by decide) (mem_busOrder i) h

/-! ## The trace sink -/

theorem putBytes_eq (bs : List Byte) (s : State) : putBytes bs s = { s with trace := s.trace ++ bs } := by
  induction bs generalizing s with
  | nil => simp [putBytes]
  | cons b bs ih =>
    have := ih (s.putByte b)
    simp only [putBytes, List.foldl_cons] at this ⊢
    rw [this]
    simp [State.putByte]

/-- TRLINE (R87): the trace is longer by `LINE(v, t)`. -/
theorem putLine_eq (v : Byte) (t : Tag) (s : State) :
    putLine v t s = { s with trace := s.trace ++ traceLine s.params.nl v t } :=
  putBytes_eq _ _

/-! ## The composites of the operations -/

/-- INIT's effect (R114). -/
theorem startUp_eq (s : State) :
    startUp s =
      { s with
        run := true, dir := false, cnt := s.params.cntInit, mode := Lines.fill .input
        olat := linesOfByte s.params.olatInit, enpu := true, pend := false, mcs := .idle
        trace := s.trace ++ bannerLine s.params.nl
        gpio := s.gpio ++ ((busOrder.map fun i => .cfgdir (.bus i) .input) ++ [.cfgdir .clk .input, .cfgdir .en .inputPullup])
        edgeBus := none } := by
  simp [startUp, turnBus_eq, putBytes_eq, cfgClock, cfgEnable, State.setDir, State.setCnt, State.setLatches, State.setEnpu,
    State.setMcs, State.setPend, State.setEdgeBus, State.setRun, State.addCall, pinModeOf]

/-- MC.SAMPLE's effect (R66). -/
theorem takeSample_eq (s : State) :
    takeSample s =
      { s with
        mcs := .sampled (!(readLevel .en s).1), draws := s.draws + drawsOf s .en
        gpio := s.gpio ++ [.rdlvl .en (readLevel .en s).1] } := by
  simp [takeSample, readLevel_state, State.setMcs, logicalEnable]

/-- The effect of a commit that turns the bus (R70, R71). -/
theorem commitTurn_eq (d : Bit) (s : State) :
    commitTurn d s =
      { s with
        mode := Lines.fill (pinDirOf d), dir := d, mcs := .idle
        gpio := s.gpio ++ busOrder.map fun i => .cfgdir (.bus i) (pinModeOf (pinDirOf d)) } := by
  simp [commitTurn, turnBus_eq, State.setDir, State.setMcs]

/-- MC.CFG's effect (R72). -/
theorem turnOneLine_eq (ln : Fin 8) (sb : Bit) (s : State) :
    turnOneLine ln sb s =
      { s with
        mode := s.mode.set ln (pinDirOf sb), mcs := .cfg sb (ln.val + 1)
        gpio := s.gpio ++ [.cfgdir (.bus ln) (pinModeOf (pinDirOf sb))] } := rfl

/-- Entry into the interrupt (R101). -/
theorem interruptEntry_eq (s : State) : interruptEntry s = { s with pend := false, edgeBus := none } := rfl

/-- ENV.SET on a bus line (R90). -/
theorem setBusLine_eq (i : Fin 8) (x : Drive) (s : State) :
    setBusLine i x s = { s with xBus := s.xBus.set i x, edgeBus := none } := rfl

/-- EH.W's body (R76): everything is done with the counter after the increment. -/
theorem handleWrite_eq (s : State) :
    handleWrite s =
      { s with
        cnt := s.cnt + 1, olat := linesOfByte (s.cnt + 1)
        trace := s.trace ++ traceLine s.params.nl (s.cnt + 1) .w
        gpio := s.gpio ++ busOrder.map fun i => .wrlvl (.bus i) (busBit (s.cnt + 1) i) } := by
  simp [handleWrite, driveBus_eq, putLine_eq, State.setCnt, increment]

/-- EH.R's body (R77): one value, whose bits are the levels wherever they are no draws, goes to the trace and nowhere else. -/
theorem handleRead_eq (s : State) :
    ∃ (v : Byte) (n : Nat) (calls : List GpioCall),
      handleRead s =
          { s with draws := n, trace := s.trace ++ traceLine s.params.nl v .r, gpio := s.gpio ++ calls } ∧
        ∀ (i : Fin 8) (b : Level), s.level (.bus i) = some b → busBit v i = b := by
  obtain ⟨n, calls, h⟩ := sampleBus_state s
  refine ⟨(sampleBus s).1, n, calls, ?_, fun i b hb => sampleBus_bit hb⟩
  simp [handleRead, h, putLine_eq]

/-- Reading the lines looks neither at the enable line nor at the trace. -/
theorem readLines_with (is : List (Fin 8)) (acc : Lines Level) (s : State) (x : Drive) (trace : List Byte) :
    readLines is acc { s with xEn := x, trace := trace } =
      ((readLines is acc s).1, { (readLines is acc s).2 with xEn := x, trace := trace }) := by
  induction is generalizing acc s with
  | nil => rfl
  | cons i is ih =>
    have hl : readLevel (.bus i) { s with xEn := x, trace := trace } =
        ((readLevel (.bus i) s).1, { (readLevel (.bus i) s).2 with xEn := x, trace := trace }) := by
      have e : State.level { s with xEn := x, trace := trace } (.bus i) = s.level (.bus i) := rfl
      simp only [readLevel, e]
      cases s.level (.bus i) <;> rfl
    simp only [readLines, hl, ih]

/-- The clock line (R92): a rising edge while `RUN = 1` becomes pending, or is refused where one is pending. -/
theorem setClock_cases {b : Level} {s t : State} (h : setClock b s = .next t) :
    (s.run = true ∧ s.xClk = false ∧ b = true ∧ s.pend = false ∧ 
        t = { s with xClk := true, pend := true, edgeBus := some s.xBus }) ∨
      (¬ (s.run = true ∧ s.xClk = false ∧ b = true) ∧ t = { s with xClk := b }) := by
  simp only [setClock] at h
  split at h
  · rename_i hr
    simp only [risingEdge, Bool.and_eq_true, Bool.not_eq_true'] at hr
    split at h
    · simp at h
    · rename_i hp
      injection h with h
      obtain ⟨hrun, hclk, rfl⟩ := hr
      exact .inl ⟨hrun, hclk, rfl, by simpa using hp, h.symm⟩
  · rename_i hr
    simp only [risingEdge, Bool.and_eq_true, Bool.not_eq_true'] at hr
    injection h with h
    exact .inr ⟨hr, h.symm⟩

/-! ## The step -/

/-- A scheduled word that decodes: the step is its operation, in the state without that word. -/
theorem step_of_decoded {s : State} {r : Request} {rest : List Request} {i : Instr}
    (hs : s.script = r :: rest) (hd : decode s.params r.iface r.word = .ok i) :
    step s = exec i (s.setScript rest) := by
  simp [step, fetch, hs, hd]

/-- A reserved word is refused (R62). -/
theorem step_of_reserved {s : State} {r : Request} {rest : List Request} {e : Reject}
    (hs : s.script = r :: rest) (hd : decode s.params r.iface r.word = .error e) :
    step s = .refused .reservedWord := by
  simp [step, fetch, hs, hd]

/-- What a step can be: the operation of the first scheduled word, or the free schedule's next operation. -/
theorem step_cases {s t : State} (h : step s = .next t) :
    (∃ r rest i, s.script = r :: rest ∧ decode s.params r.iface r.word = .ok i ∧ exec i (s.setScript rest) = .next t) ∨
      (s.script = [] ∧ ∃ i, scheduled s = some i ∧ exec i s.nextTick = .next t) := by
  cases hs : s.script with
  | nil =>
    right
    cases hd : scheduled s with
    | none => simp [step, fetch, hs, hd] at h
    | some i => exact ⟨rfl, i, rfl, by simpa [step, fetch, hs, hd] using h⟩
  | cons r rest =>
    left
    cases hd : decode s.params r.iface r.word with
    | error e => simp [step, fetch, hs, hd] at h
    | ok i => exact ⟨r, rest, i, rfl, hd, by simpa [step, fetch, hs, hd] using h⟩

end Sys2Proof.Machine
end

