-- ==== Sys2Proof/Laws/Exec.lean ====
section
/-! SUPPORT. When each operation answers a next state, and which: one lemma per constructor of Instr. -/

namespace Sys2Proof.Machine

/-! ## The enabling conditions, in the words of the rules -/

theorem sampleEnabled_iff {s : State} {sb db : Bit} :
    (s.sampleEnabled && s.agrees sb db) = true ↔ s.run = true ∧ s.mcs = .idle ∧ sb = false ∧ db = s.dir := by
  simp only [State.sampleEnabled, State.agrees, State.held, Bool.and_eq_true, beq_iff_eq]
  cases s.mcs <;> simp

theorem commitEnabled_iff {s : State} {sb db : Bit} :
    s.commitEnabled sb db = true ↔ s.run = true ∧ s.mcs = .sampled sb ∧ s.dir = db := by
  simp [State.commitEnabled, and_assoc]

theorem turnEnabled_iff {s : State} {sb db : Bit} :
    s.turnEnabled sb db = true ↔
      s.run = true ∧ s.mcs = .sampled sb ∧ s.dir = db ∧ s.params.granularity = .group := by
  simp [State.turnEnabled, commitEnabled_iff, and_assoc]

theorem cfgEnabled_iff {s : State} {ln : Fin 8} {sb db : Bit} :
    s.cfgEnabled ln sb db = true ↔
      s.run = true ∧ db = s.dir ∧
        ((s.mcs = .sampled sb ∧ sb ≠ s.dir ∧ ln = 0) ∨ (s.mcs = .cfg sb ln.val ∧ 1 ≤ ln.val)) := by
  have hln : 1 ≤ ln.val ↔ ln ≠ 0 := by revert ln; decide
  rw [hln]
  simp only [State.cfgEnabled, State.cfgTurn, State.agrees, State.held]
  cases s.mcs with
  | idle => simp
  | sampled x => simp; constructor <;> (rintro ⟨a, b⟩; simp_all)
  | cfg x k => simp; constructor <;> (rintro ⟨a, b⟩; simp_all)

theorem flagEnabled_iff {s : State} {sb db : Bit} :
    s.flagEnabled sb db = true ↔ s.run = true ∧ s.mcs = .cfg sb 8 ∧ db = s.dir := by
  simp only [State.flagEnabled, State.agrees]
  cases hm : s.mcs with
  | idle => simp [State.held, hm]
  | sampled x => simp [State.held, hm]
  | cfg x k => simp [State.held, hm]; constructor <;> (rintro ⟨a, b⟩; simp_all)

theorem serviceEnabled_iff {s : State} {sb db : Bit} :
    s.serviceEnabled sb db = true ↔ s.run = true ∧ s.pend = true ∧ s.dir = db ∧ sb = s.held := by
  simp only [State.serviceEnabled, State.agrees, Bool.and_eq_true, beq_iff_eq]
  tauto

/-! ## The answers -/

theorem exec_init_next {sb db : Bit} {s t : State} :
    exec (.init sb db) s = .next t ↔ s.run = false ∧ t = startUp s := by
  rw [eq_comm (a := t)]
  simp [exec, execInit, requires_eq_next]

theorem exec_mcSample_next {sb db : Bit} {s t : State} :
    exec (.mcSample sb db) s = .next t ↔
      (s.run = true ∧ s.mcs = .idle ∧ sb = false ∧ db = s.dir) ∧ t = takeSample s := by
  rw [← sampleEnabled_iff, eq_comm (a := t)]
  exact requires_eq_next

theorem exec_mcCommitNopSense_next {s t : State} :
    exec .mcCommitNopSense s = .next t ↔
      (s.run = true ∧ s.mcs = .sampled false ∧ s.dir = false) ∧ t = s.setMcs .idle := by
  rw [← commitEnabled_iff, eq_comm (a := t)]
  exact requires_eq_next

theorem exec_mcCommitNopDrive_next {s t : State} :
    exec .mcCommitNopDrive s = .next t ↔
      (s.run = true ∧ s.mcs = .sampled true ∧ s.dir = true) ∧ t = s.setMcs .idle := by
  rw [← commitEnabled_iff, eq_comm (a := t)]
  exact requires_eq_next

theorem exec_mcCommitDrv_next {s t : State} :
    exec .mcCommitDrv s = .next t ↔
      (s.run = true ∧ s.mcs = .sampled true ∧ s.dir = false ∧ s.params.granularity = .group) ∧
        t = commitTurn true s := by
  rw [← turnEnabled_iff, eq_comm (a := t)]
  exact requires_eq_next

theorem exec_mcCommitSns_next {s t : State} :
    exec .mcCommitSns s = .next t ↔
      (s.run = true ∧ s.mcs = .sampled false ∧ s.dir = true ∧ s.params.granularity = .group) ∧
        t = commitTurn false s := by
  rw [← turnEnabled_iff, eq_comm (a := t)]
  exact requires_eq_next

theorem exec_mcCfg_next {ln : Fin 8} {sb db : Bit} {s t : State} :
    exec (.mcCfg ln sb db) s = .next t ↔
      s.params.granularity = .perLine ∧
        (s.run = true ∧ db = s.dir ∧
          ((s.mcs = .sampled sb ∧ sb ≠ s.dir ∧ ln = 0) ∨ (s.mcs = .cfg sb ln.val ∧ 1 ≤ ln.val))) ∧
        t = turnOneLine ln sb s := by
  rw [← cfgEnabled_iff, eq_comm (a := t), ← requires_eq_next]
  simp only [exec, execMcCfg]
  split <;> simp_all

theorem exec_mcFlag_next {sb db : Bit} {s t : State} :
    exec (.mcFlag sb db) s = .next t ↔
      s.params.granularity = .perLine ∧ (s.run = true ∧ s.mcs = .cfg sb 8 ∧ db = s.dir) ∧ t = commitFlag sb s := by
  rw [← flagEnabled_iff, eq_comm (a := t), ← requires_eq_next]
  simp only [exec, execMcFlag]
  split <;> simp_all

theorem exec_ehW_next {sb : Bit} {s t : State} :
    exec (.ehW sb) s = .next t ↔
      (s.run = true ∧ s.pend = true ∧ s.dir = true ∧ sb = s.held) ∧ t = handleWrite (interruptEntry s) := by
  rw [← serviceEnabled_iff, eq_comm (a := t)]
  simp only [exec, execEhW, interruptReturn, requires_eq_next]

theorem exec_ehR_next {sb : Bit} {s t : State} :
    exec (.ehR sb) s = .next t ↔
      (s.run = true ∧ s.pend = true ∧ s.dir = false ∧ sb = s.held) ∧ t = handleRead (interruptEntry s) := by
  rw [← serviceEnabled_iff, eq_comm (a := t)]
  simp only [exec, execEhR, interruptReturn, requires_eq_next]

theorem exec_cfgdir_next {ln : Line} {md : PinMode} {s t : State} :
    exec (.cfgdir ln md) s = .next t ↔
      (∃ i d, ln = .bus i ∧ md = pinModeOf d ∧ t = cfgBus i d s) ∨
        (ln = .clk ∧ md = .input ∧ t = cfgClock s) ∨ (ln = .en ∧ md = .inputPullup ∧ t = cfgEnable s) := by
  constructor
  · intro h
    cases ln <;> cases md <;> simp only [exec, execCfgdir, Host.Outcome.next.injEq, reduceCtorEq] at h
    · exact .inl ⟨_, .input, rfl, rfl, h.symm⟩
    · exact .inl ⟨_, .output, rfl, rfl, h.symm⟩
    · exact .inr (.inl ⟨rfl, rfl, h.symm⟩)
    · exact .inr (.inr ⟨rfl, rfl, h.symm⟩)
  · rintro (⟨i, d, rfl, rfl, rfl⟩ | ⟨rfl, rfl, rfl⟩ | ⟨rfl, rfl, rfl⟩)
    · cases d <;> rfl
    · rfl
    · rfl

theorem exec_rdlvl_next {ln : Line} {s t : State} :
    exec (.rdlvl ln) s = .next t ↔ (ln = .en ∨ ∃ i, ln = .bus i) ∧ t = (readLevel ln s).2 := by
  cases ln <;> simp [exec, execRdlvl, eq_comm]

theorem exec_wrlvl_next {ln : Line} {b : Bit} {s t : State} :
    exec (.wrlvl ln b) s = .next t ↔ ∃ i, ln = .bus i ∧ t = writeLevel i b s := by
  cases ln <;> simp [exec, execWrlvl, eq_comm]

theorem exec_trput_next {b : Byte} {s t : State} :
    exec (.trput b) s = .next t ↔ legalTraceByte s.params.nl b = true ∧ t = s.putByte b := by
  rw [eq_comm (a := t)]
  simp only [exec, execTrput]
  split <;> simp_all

theorem exec_envSet_next {ln : Line} {x : Drive} {s t : State} :
    exec (.envSet ln x) s = .next t ↔
      (∃ i, ln = .bus i ∧ t = setBusLine i x s) ∨ (ln = .en ∧ t = s.setXEn x) ∨
        (ln = .clk ∧ x = .d0 ∧ setClock false s = .next t) ∨ (ln = .clk ∧ x = .d1 ∧ setClock true s = .next t) := by
  cases ln <;> cases x <;> simp [exec, execEnvSet, eq_comm]

/-! ## Sequences -/

@[simp] theorem execAll_nil (s : State) : execAll [] s = .next s := rfl

theorem execAll_cons {i : Instr} {is : List Instr} {s u : State} (h : exec i s = .next u) :
    execAll (i :: is) s = execAll is u := by
  simp only [execAll, h, andThen]

/-- A sequence completes with `P` if its first operation answers `u` and the rest, from `u`, completes with `P`. -/
theorem execAll_cons_exists {i : Instr} {is : List Instr} {s u : State} {P : State → Prop} (h : exec i s = .next u)
    (rest : ∃ t, execAll is u = .next t ∧ P t) : ∃ t, execAll (i :: is) s = .next t ∧ P t := by
  rwa [execAll_cons h]

theorem mcSteps_succ {n : Nat} {i : Instr} {s u : State} (hi : mcNext s = some i) (h : exec i s = .next u) :
    mcSteps (n + 1) s = mcSteps n u := by
  simp only [mcSteps, hi, h, andThen]

end Sys2Proof.Machine
end

