-- ==== Sys2Proof/Laws/Fairness.lean ====
section
/-! SUPPORT. Runs under a schedule, and the fairness of spec/20_memory.md R47: a schedule that gives the block's agents the turn
for ever is fair, because no operation of the block waits (spec/70_reset_and_hazards.md R129). -/

namespace Sys2Proof.Machine

/-! ## Runs -/

theorem Schedule.step_next_iff {c : Schedule} {s t : State} :
    c.step s = .next t ↔ ∃ i, c.next s = some i ∧ exec i s.nextTick = .next t := by
  unfold Schedule.step
  cases c.next s <;> simp

/-- With no word scheduled, the machine's step is the step under its own schedule. -/
theorem step_eq_freeSchedule {s : State} (hs : s.script = []) : step s = freeSchedule.step s := by
  have h : freeSchedule.next s = scheduled s := rfl
  simp only [step, fetch, hs, Schedule.step, h]
  cases scheduled s <;> rfl

/-- A run ends in a step: the step after `n` steps. -/
theorem Schedule.run_succ_iff {c : Schedule} {n : Nat} {s t : State} :
    c.run (n + 1) s = .next t ↔ ∃ u, c.run n s = .next u ∧ c.step u = .next t := by
  induction n generalizing s with
  | zero =>
    have h : c.run 1 s = c.step s := by simp only [Schedule.run]; cases c.step s <;> rfl
    rw [show c.run (0 + 1) s = c.step s from h]
    simp [Schedule.run]
  | succ n ih =>
    show andThen (c.step s) (c.run (n + 1)) = .next t ↔ ∃ u, andThen (c.step s) (c.run n) = .next u ∧ c.step u = .next t
    cases h : c.step s with
    | next v => exact ih
    | fault r => simp [andThen]
    | refused r => simp [andThen]

/-! ## What a scheduled operation is -/

theorem edgeVariant_byEdgeHandler (sb db : Bit) : (edgeVariant sb db).byEdgeHandler = true := by cases db <;> rfl

theorem commitVariant_byModeController (sb db : Bit) : (commitVariant sb db).byModeController = true := by
  cases sb <;> cases db <;> rfl

theorem mcNext_byModeController {s : State} {i : Instr} (h : mcNext s = some i) : i.byModeController = true := by
  unfold mcNext at h
  repeat' split at h
  all_goals
    cases h <;> first | rfl | exact commitVariant_byModeController _ _

/-- After start-up an operation chosen is the Edge Handler's, the Mode Controller's or the environment's. -/
theorem chosen_cases {a : Agent} {e : EnvAct} {s : State} {i : Instr} (hr : s.run = true) (h : chosen a e s = some i) :
    (a = .environment ∧ i = envInstr e) ∨ (a = .edgeHandler ∧ s.pend = true ∧ i.byEdgeHandler = true) ∨
      ((a = .modeController ∨ a = .edgeHandler ∧ s.pend = false) ∧ mcNext s = some i) := by
  have hb : blockNext s = mcNext s := by simp [blockNext, hr]
  cases a with
  | environment => exact .inl ⟨rfl, by simpa [chosen] using h.symm⟩
  | modeController => exact .inr (.inr ⟨.inl rfl, by rw [← hb]; exact h⟩)
  | edgeHandler =>
    simp only [chosen, ehNext, hr, Bool.true_and, hb] at h
    cases hp : s.pend <;> simp only [hp] at h
    · exact .inr (.inr ⟨.inr ⟨rfl, rfl⟩, by simpa using h⟩)
    · exact .inr (.inl ⟨rfl, rfl, by
        obtain rfl : edgeVariant s.held s.dir = i := by simpa using h
        exact edgeVariant_byEdgeHandler _ _⟩)

theorem envInstr_eq (e : EnvAct) : ∃ l x, envInstr e = .envSet l x := by
  cases e <;> exact ⟨_, _, rfl⟩

/-! ## What an operation does to the control state -/

/-- What a service leaves (R76, R77): everything but `PEND`, `CNT`, `OLAT`, `TRACE` and the model's own records. -/
theorem exec_byEdgeHandler {i : Instr} {s t : State} (hi : i.byEdgeHandler = true) (h : exec i s = .next t) :
    t.run = s.run ∧ t.mcs = s.mcs ∧ t.ticks = s.ticks ∧ t.script = s.script := by
  cases i with
  | ehR a =>
    obtain ⟨_, rfl⟩ := exec_ehR_next.1 h
    obtain ⟨v, n, c, e, _⟩ := handleRead_eq (interruptEntry s)
    rw [e]; exact ⟨rfl, rfl, rfl, rfl⟩
  | ehW a => obtain ⟨_, rfl⟩ := exec_ehW_next.1 h; simp [handleWrite_eq, interruptEntry_eq]
  | _ => exact absurd hi (by simp [Instr.byEdgeHandler])

/-- What the environment leaves (R90 to R92): of the block's elements it writes `PEND` only, and sets it. -/
theorem exec_envSet {l : Line} {x : Drive} {s t : State} (h : exec (.envSet l x) s = .next t) :
    t.run = s.run ∧ t.mcs = s.mcs ∧ t.ticks = s.ticks ∧ t.script = s.script ∧ (s.pend = true → t.pend = true) := by
  obtain ⟨i, rfl, rfl⟩ | ⟨rfl, rfl⟩ | ⟨rfl, rfl, e⟩ | ⟨rfl, rfl, e⟩ := exec_envSet_next.1 h
  · simp [setBusLine_eq]
  · simp
  all_goals obtain ⟨_, _, _, _, rfl⟩ | ⟨_, rfl⟩ := setClock_cases e <;> simp

/-- How far the Mode Controller is from the end of its poll, in its own operations. -/
def pollRank (m : Mcs) : Nat :=
  match m with
  | .idle => 11
  | .sampled _ => 10
  | .cfg _ k => 10 - k

/-- An operation of the Mode Controller ends its poll or brings it nearer to its end; `PEND` it leaves alone (R65, R74). -/
theorem exec_byModeController {i : Instr} {s t : State} (hi : i.byModeController = true) (h : exec i s = .next t) :
    (t.run = s.run ∧ t.pend = s.pend ∧ t.ticks = s.ticks ∧ t.script = s.script) ∧
      (i.endsPoll = true ∨ pollRank t.mcs < pollRank s.mcs) := by
  cases i with
  | mcSample a b =>
    obtain ⟨⟨_, hm, _, _⟩, rfl⟩ := exec_mcSample_next.1 h
    simp [takeSample_eq, pollRank, hm]
  | mcCommitNopSense => obtain ⟨_, rfl⟩ := exec_mcCommitNopSense_next.1 h; simp [Instr.endsPoll]
  | mcCommitNopDrive => obtain ⟨_, rfl⟩ := exec_mcCommitNopDrive_next.1 h; simp [Instr.endsPoll]
  | mcCommitDrv => obtain ⟨_, rfl⟩ := exec_mcCommitDrv_next.1 h; simp [commitTurn_eq, Instr.endsPoll]
  | mcCommitSns => obtain ⟨_, rfl⟩ := exec_mcCommitSns_next.1 h; simp [commitTurn_eq, Instr.endsPoll]
  | mcCfg l a b =>
    obtain ⟨_, ⟨_, _, hm⟩, rfl⟩ := exec_mcCfg_next.1 h
    refine ⟨by simp [turnOneLine_eq], .inr ?_⟩
    have hl := l.isLt
    obtain ⟨hm, _, rfl⟩ | ⟨hm, _⟩ := hm <;> simp only [turnOneLine_eq, pollRank, hm]
    · decide
    · omega
  | mcFlag a b => obtain ⟨_, _, rfl⟩ := exec_mcFlag_next.1 h; simp [commitFlag, Instr.endsPoll]
  | _ => exact absurd hi (by simp [Instr.byModeController])

/-- One step of a run, after start-up: it serves the pending edge, or the Mode Controller moves on, or the environment acts and
leaves both waiting. -/
theorem Schedule.step_cases {c : Schedule} {s t : State} (hr : s.run = true) (h : c.step s = .next t) :
    ∃ i, c.next s = some i ∧ exec i s.nextTick = .next t ∧ t.run = true ∧ t.ticks = s.ticks + 1 ∧
      ((i.byEdgeHandler = true ∧ (c s.ticks).agent = .edgeHandler ∧ s.pend = true ∧ t.mcs = s.mcs) ∨
        ((i.endsPoll = true ∨ pollRank t.mcs < pollRank s.mcs) ∧ t.pend = s.pend ∧
          ((c s.ticks).agent = .modeController ∨ (c s.ticks).agent = .edgeHandler ∧ s.pend = false)) ∨
        ((c s.ticks).agent = .environment ∧ t.mcs = s.mcs ∧ (s.pend = true → t.pend = true))) := by
  obtain ⟨i, hn, he⟩ := Schedule.step_next_iff.1 h
  refine ⟨i, hn, he, ?_⟩
  obtain ⟨ha, rfl⟩ | ⟨ha, hp, hb⟩ | ⟨ha, hm⟩ := chosen_cases hr hn
  · obtain ⟨l, x, e⟩ := envInstr_eq (c s.ticks).act
    rw [e] at he
    obtain ⟨h1, h2, h3, _, h5⟩ := exec_envSet he
    exact ⟨by simpa [hr] using h1, by simpa using h3, .inr (.inr ⟨ha, by simpa using h2, by simpa using h5⟩)⟩
  · obtain ⟨h1, h2, h3, _⟩ := exec_byEdgeHandler hb he
    exact ⟨by simpa [hr] using h1, by simpa using h3, .inl ⟨hb, ha, hp, by simpa using h2⟩⟩
  · obtain ⟨⟨h1, h2, h3, _⟩, h4⟩ := exec_byModeController (mcNext_byModeController hm) he
    exact ⟨by simpa [hr] using h1, by simpa using h3, .inr (.inl ⟨by simpa using h4, by simpa using h2, ha⟩)⟩

/-- A step under a schedule schedules no word. -/
theorem Schedule.step_script {c : Schedule} {s t : State} (h : c.step s = .next t) : t.script = s.script := by
  obtain ⟨i, hn, he⟩ := Schedule.step_next_iff.1 h
  by_cases hr : s.run = true
  · obtain ⟨_, rfl⟩ | ⟨_, _, hb⟩ | ⟨_, hm⟩ := chosen_cases hr hn
    · obtain ⟨l, x, e⟩ := envInstr_eq (c s.ticks).act
      rw [e] at he
      exact (exec_envSet he).2.2.2.1
    · exact (exec_byEdgeHandler hb he).2.2.2
    · exact (exec_byModeController (mcNext_byModeController hm) he).1.2.2.2
  · have hi : i = .init false false ∨ ∃ l x, i = .envSet l x := by
      obtain ⟨l, x, e⟩ := envInstr_eq (c s.ticks).act
      unfold Schedule.next at hn
      have hf : s.run = false := by simpa using hr
      cases ha : (c s.ticks).agent with
      | environment => exact .inr ⟨l, x, by simpa [chosen, ha, e] using hn.symm⟩
      | modeController => exact .inl (by simpa [chosen, ha, blockNext, hf] using hn.symm)
      | edgeHandler => exact .inl (by simpa [chosen, ha, ehNext, blockNext, hf] using hn.symm)
    obtain rfl | ⟨l, x, rfl⟩ := hi
    · obtain ⟨_, rfl⟩ := exec_init_next.1 he
      simp [startUp_eq]
    · exact (exec_envSet he).2.2.2.1

/-- With no word scheduled, the machine's run is the run under its own schedule. -/
theorem run_eq_freeSchedule {s : State} (hs : s.script = []) (n : Nat) : Sys2Proof.core.run n s = freeSchedule.run n s := by
  induction n generalizing s with
  | zero => rfl
  | succ n ih =>
    have hc : Sys2Proof.core.step s = step s := rfl
    show _ = andThen (freeSchedule.step s) (freeSchedule.run n)
    rw [← step_eq_freeSchedule hs]
    cases h : step s with
    | next t =>
      simp only [Host.Core.run, hc, h]
      exact ih ((Schedule.step_script (step_eq_freeSchedule hs ▸ h)).trans hs)
    | fault r => simp [Host.Core.run, hc, h, andThen]; rfl
    | refused r => simp [Host.Core.run, hc, h, andThen]; rfl

/-! ## Fairness -/

theorem Schedule.NoMark.step {c : Schedule} {s : State} (hk : c.NoMark s) {n : Nat} {t : State} (ht : c.run n s = .next t) :
    ∃ u, c.step t = .next u ∧ c.run (n + 1) s = .next u := by
  obtain ⟨u, hu⟩ := hk (n + 1)
  obtain ⟨v, hv, hs⟩ := Schedule.run_succ_iff.1 hu
  obtain rfl : v = t := by rw [ht] at hv; exact (Host.Outcome.next.inj hv).symm
  exact ⟨u, hs, hu⟩

theorem Schedule.HappensAfter.of_succ {c : Schedule} {s : State} {n : Nat} {p : Instr → Bool}
    (h : c.HappensAfter s (n + 1) p) : c.HappensAfter s n p := by
  obtain ⟨m, t, i, u, hm, rest⟩ := h
  exact ⟨m, t, i, u, by omega, rest⟩

/-- R47 (b): where the Edge Handler gets the turn for ever, a pending edge is serviced. -/
theorem Schedule.edgeHandlerFair_of_turns {c : Schedule} {s : State} (hk : c.NoMark s)
    (ht : ∀ n, ∃ m, n ≤ m ∧ (c m).agent = .edgeHandler) : c.EdgeHandlerFair s := by
  have go : ∀ (d n : Nat) (t : State), c.run n s = .next t → t.run = true → t.pend = true → (c (t.ticks + d)).agent = .edgeHandler →
      c.HappensAfter s n Instr.byEdgeHandler := by
    intro d
    induction d with
    | zero =>
      intro n t hn hr hp ha
      obtain ⟨u, hs, _⟩ := hk.step hn
      obtain ⟨i, h1, h2, _, _, h | h | h⟩ := Schedule.step_cases hr hs
      · exact ⟨n, t, i, u, le_rfl, hn, h1, h.1, h2⟩
      · simp_all
      · simp_all
    | succ d ih =>
      intro n t hn hr hp ha
      obtain ⟨u, hs, hu⟩ := hk.step hn
      obtain ⟨i, h1, h2, h3, h4, h⟩ := Schedule.step_cases hr hs
      have later (hup : u.pend = true) : c.HappensAfter s n Instr.byEdgeHandler :=
        Schedule.HappensAfter.of_succ (ih (n + 1) u hu h3 hup (by rw [h4]; convert ha using 3; omega))
      obtain h | h | h := h
      · exact ⟨n, t, i, u, le_rfl, hn, h1, h.1, h2⟩
      · exact later (by rw [h.2.1, hp])
      · exact later (h.2.2 hp)
  intro n t hn hr hp
  obtain ⟨m, hm, ha⟩ := ht t.ticks
  exact go (m - t.ticks) n t hn hr hp (by rwa [Nat.add_sub_cancel' hm])

/-- R47 (a): where the Mode Controller gets the turn for ever, a poll is completed. -/
theorem Schedule.modeControllerFair_of_turns {c : Schedule} {s : State} (hk : c.NoMark s)
    (ht : ∀ n, ∃ m, n ≤ m ∧ (c m).agent = .modeController) : c.ModeControllerFair s := by
  have go : ∀ (r d n : Nat) (t : State), c.run n s = .next t → t.run = true → pollRank t.mcs = r →
      (c (t.ticks + d)).agent = .modeController → c.HappensAfter s n Instr.endsPoll := by
    intro r
    induction r using Nat.strong_induction_on with
    | _ r nearer =>
      intro d
      induction d with
      | zero =>
        intro n t hn hr he ha
        obtain ⟨u, hs, hu⟩ := hk.step hn
        obtain ⟨i, h1, h2, h3, _, h | ⟨h | h, _, _⟩ | h⟩ := Schedule.step_cases hr hs
        · simp_all
        · exact ⟨n, t, i, u, le_rfl, hn, h1, h, h2⟩
        · obtain ⟨m, hm, ha⟩ := ht u.ticks
          exact Schedule.HappensAfter.of_succ (nearer _ (he ▸ h) (m - u.ticks) (n + 1) u hu h3 rfl (by rwa [Nat.add_sub_cancel' hm]))
        · simp_all
      | succ d ih =>
        intro n t hn hr he ha
        obtain ⟨u, hs, hu⟩ := hk.step hn
        obtain ⟨i, h1, h2, h3, h4, h⟩ := Schedule.step_cases hr hs
        have later (hm : u.mcs = t.mcs) : c.HappensAfter s n Instr.endsPoll :=
          Schedule.HappensAfter.of_succ (ih (n + 1) u hu h3 (by rwa [hm]) (by rw [h4]; convert ha using 3; omega))
        obtain h | ⟨h | h, _, _⟩ | h := h
        · exact later h.2.2.2
        · exact ⟨n, t, i, u, le_rfl, hn, h1, h, h2⟩
        · obtain ⟨m, hm, ha⟩ := ht u.ticks
          exact Schedule.HappensAfter.of_succ (nearer _ (he ▸ h) (m - u.ticks) (n + 1) u hu h3 rfl (by rwa [Nat.add_sub_cancel' hm]))
        · exact later h.2.1
  intro n t hn hr
  obtain ⟨m, hm, ha⟩ := ht t.ticks
  exact go (pollRank t.mcs) (m - t.ticks) n t hn hr rfl (by rwa [Nat.add_sub_cancel' hm])

/-- R47: a run without a mark, under a schedule that gives the block's agents the turn for ever, is fair. -/
theorem Schedule.fair_of_turnsForEver {c : Schedule} {s : State} (hk : c.NoMark s) (ht : c.TurnsForEver) : c.Fair s :=
  ⟨modeControllerFair_of_turns hk ht.1, edgeHandlerFair_of_turns hk ht.2⟩

end Sys2Proof.Machine
end

