-- ==== Sys2Proof/Laws/BusStability.lean ====
section
/-! SUPPORT. The environment's obligation EO3 (spec/43_environment.md R93) step by step: what an operation does to a pending edge,
to the bus and to the record of the bus since that edge (log 28). -/

namespace Sys2Proof.Machine

/-- While an edge waits, after start-up: an operation other than its service leaves it waiting; ENV.SET on a bus line ends the record,
and nothing else touches the bus or the record (R19, R20). -/
theorem exec_waiting {i : Instr} {s t : State} (hr : s.run = true) (hp : s.pend = true) (hi : i.byEdgeHandler = false)
    (h : exec i s = .next t) :
    t.run = true ∧ t.pend = true ∧
      (((∃ ln x, i = .envSet (.bus ln) x) ∧ t.edgeBus = none) ∨
        ((¬ ∃ ln x, i = .envSet (.bus ln) x) ∧ t.xBus = s.xBus ∧ t.edgeBus = s.edgeBus)) := by
  cases i with
  | init a b => simp [(exec_init_next.1 h).1] at hr
  | mcSample a b => obtain ⟨_, rfl⟩ := exec_mcSample_next.1 h; simp [takeSample_eq, hr, hp]
  | mcCommitNopSense => obtain ⟨_, rfl⟩ := exec_mcCommitNopSense_next.1 h; simp [hr, hp]
  | mcCommitNopDrive => obtain ⟨_, rfl⟩ := exec_mcCommitNopDrive_next.1 h; simp [hr, hp]
  | mcCommitDrv => obtain ⟨_, rfl⟩ := exec_mcCommitDrv_next.1 h; simp [commitTurn_eq, hr, hp]
  | mcCommitSns => obtain ⟨_, rfl⟩ := exec_mcCommitSns_next.1 h; simp [commitTurn_eq, hr, hp]
  | ehR a => simp [Instr.byEdgeHandler] at hi
  | ehW a => simp [Instr.byEdgeHandler] at hi
  | mcCfg l a b => obtain ⟨_, _, rfl⟩ := exec_mcCfg_next.1 h; simp [turnOneLine_eq, hr, hp]
  | mcFlag a b => obtain ⟨_, _, rfl⟩ := exec_mcFlag_next.1 h; simp [commitFlag, hr, hp]
  | cfgdir l m =>
    obtain ⟨_, _, _, _, rfl⟩ | ⟨_, _, rfl⟩ | ⟨_, _, rfl⟩ := exec_cfgdir_next.1 h <;>
      simp [cfgBus, cfgClock, cfgEnable, hr, hp]
  | rdlvl l => obtain ⟨_, rfl⟩ := exec_rdlvl_next.1 h; simp [readLevel_state, hr, hp]
  | wrlvl l b => obtain ⟨_, _, rfl⟩ := exec_wrlvl_next.1 h; simp [writeLevel, hr, hp]
  | trput b => obtain ⟨_, rfl⟩ := exec_trput_next.1 h; simp [hr, hp]
  | envSet l x =>
    obtain ⟨j, rfl, rfl⟩ | ⟨rfl, rfl⟩ | ⟨rfl, _, e⟩ | ⟨rfl, _, e⟩ := exec_envSet_next.1 h
    · exact ⟨hr, hp, .inl ⟨⟨j, x, rfl⟩, rfl⟩⟩
    · simp [hr, hp]
    all_goals obtain ⟨_, _, _, hn, _⟩ | ⟨_, rfl⟩ := setClock_cases e
    all_goals first | (rw [hp] at hn; cases hn) | simp [hr, hp]

/-- What the fetch leaves: all but the schedule. -/
theorem fetch_eq {s u : State} {i : Instr} (h : fetch s = .ok (i, u)) :
    u.run = s.run ∧ u.pend = s.pend ∧ u.xClk = s.xClk ∧ u.xBus = s.xBus ∧ u.edgeBus = s.edgeBus := by
  unfold fetch at h
  split at h <;> split at h <;> cases h <;> simp

theorem step_next_iff {s t : State} : step s = .next t ↔ ∃ i u, fetch s = .ok (i, u) ∧ exec i u = .next t := by
  unfold step
  cases fetch s with
  | ok a => exact ⟨fun h => ⟨a.1, a.2, rfl, h⟩, fun ⟨_, _, ha, h⟩ => by cases ha; exact h⟩
  | error r => simp

/-- What each of the first `k + 1` steps does, the first one does and each of the `k` after it. -/
theorem EachStepFor.succ_iff {k : Nat} {s t u : State} {i : Instr} {p : Instr → State → Prop} (hf : fetch s = .ok (i, u))
    (hx : exec i u = .next t) : EachStepFor (k + 1) s p ↔ p i s ∧ EachStepFor k t p := by
  have hc : Sys2Proof.core.step s = .next t := step_next_iff.2 ⟨i, u, hf, hx⟩
  constructor
  · refine fun h => ⟨h 0 (by omega) s rfl i u hf, fun j hj v hv => h (j + 1) (by omega) v ?_⟩
    simp only [Host.Core.run, hc]
    exact hv
  · rintro ⟨h0, h⟩ j hj v hv i' u' hf'
    cases j with
    | zero =>
      cases hv
      rw [hf] at hf'
      cases hf'
      exact h0
    | succ j =>
      simp only [Host.Core.run, hc] at hv
      exact h j (by omega) v hv i' u' hf'

end Sys2Proof.Machine
end

