-- ==== Sys2Proof/Laws/PerInstr.lean ====
section
/-! SUPPORT. Statements made once per operation, about the operation as syntax. -/

namespace Sys2Proof.Laws

/-- A row of spec/opcode_table.json: the bits it fixes and their values. -/
structure MatchesTableRow.Row where
  mask : Byte
  value : Byte
  deriving DecidableEq, Repr

/-- The row of each operation, copied from the "mask" and "match" entries of spec/opcode_table.json. -/
def MatchesTableRow.row : Instr → MatchesTableRow.Row
  | .init _ _ => ⟨0xFC, 0x00⟩
  | .mcSample _ _ => ⟨0xFC, 0x20⟩
  | .mcCommitNopSense => ⟨0xFF, 0x40⟩
  | .mcCommitNopDrive => ⟨0xFF, 0x43⟩
  | .mcCommitDrv => ⟨0xFF, 0x42⟩
  | .mcCommitSns => ⟨0xFF, 0x41⟩
  | .ehR _ => ⟨0xFD, 0x60⟩
  | .ehW _ => ⟨0xFD, 0x61⟩
  | .mcCfg _ _ _ => ⟨0xE0, 0x80⟩
  | .mcFlag _ _ => ⟨0xFC, 0xA0⟩
  | .cfgdir _ _ => ⟨0xC0, 0x00⟩
  | .rdlvl _ => ⟨0xC3, 0x40⟩
  | .wrlvl _ _ => ⟨0xC2, 0x80⟩
  | .trput _ => ⟨0x00, 0x00⟩
  | .envSet _ _ => ⟨0xC0, 0x00⟩

/-- The operation's word has the bits its row of the opcode table fixes. -/
def MatchesTableRow.Statement (i : Instr) : Prop :=
  encode i &&& (MatchesTableRow.row i).mask = (MatchesTableRow.row i).value

/-- The line field of a format P or E word stands outside the fixed bits. -/
theorem MatchesTableRow.line_masked (pr arg m : BitVec 2) (n : BitVec 4) :
    (pr ++ n ++ arg) &&& (0b11#2 ++ 0b0000#4 ++ m) = pr ++ 0b0000#4 ++ (arg &&& m) := by
  revert pr arg m n; decide

theorem MatchesTableRow.init (sb db : Bit) : MatchesTableRow.Statement (.init sb db) := by
  cases sb <;> cases db <;> rfl

theorem MatchesTableRow.mcSample (sb db : Bit) : MatchesTableRow.Statement (.mcSample sb db) := by
  cases sb <;> cases db <;> rfl

theorem MatchesTableRow.mcCommitNopSense : MatchesTableRow.Statement .mcCommitNopSense := by
  rfl

theorem MatchesTableRow.mcCommitNopDrive : MatchesTableRow.Statement .mcCommitNopDrive := by
  rfl

theorem MatchesTableRow.mcCommitDrv : MatchesTableRow.Statement .mcCommitDrv := by
  rfl

theorem MatchesTableRow.mcCommitSns : MatchesTableRow.Statement .mcCommitSns := by
  rfl

theorem MatchesTableRow.ehR (sb : Bit) : MatchesTableRow.Statement (.ehR sb) := by
  cases sb <;> rfl

theorem MatchesTableRow.ehW (sb : Bit) : MatchesTableRow.Statement (.ehW sb) := by
  cases sb <;> rfl

theorem MatchesTableRow.mcCfg (ln : Fin 8) (sb db : Bit) : MatchesTableRow.Statement (.mcCfg ln sb db) := by
  revert ln sb db; unfold MatchesTableRow.Statement; decide

theorem MatchesTableRow.mcFlag (sb db : Bit) : MatchesTableRow.Statement (.mcFlag sb db) := by
  cases sb <;> cases db <;> rfl

theorem MatchesTableRow.cfgdir (ln : Line) (md : PinMode) : MatchesTableRow.Statement (.cfgdir ln md) :=
  (MatchesTableRow.line_masked _ _ 0#2 _).trans (by cases md <;> rfl)

theorem MatchesTableRow.rdlvl (ln : Line) : MatchesTableRow.Statement (.rdlvl ln) :=
  (MatchesTableRow.line_masked _ _ 3#2 _).trans rfl

theorem MatchesTableRow.wrlvl (ln : Line) (b : Bit) : MatchesTableRow.Statement (.wrlvl ln b) :=
  (MatchesTableRow.line_masked _ _ 2#2 _).trans (by cases b <;> rfl)

theorem MatchesTableRow.trput (b : Byte) : MatchesTableRow.Statement (.trput b) := by
  simp [MatchesTableRow.Statement, MatchesTableRow.row]

theorem MatchesTableRow.envSet (ln : Line) (x : Drive) : MatchesTableRow.Statement (.envSet ln x) :=
  (MatchesTableRow.line_masked _ _ 0#2 _).trans (by cases x <;> rfl)

end Sys2Proof.Laws
end

