-- ==== Sys2Proof/Tests/Slice0.lean ====
section
/-! SUPPORT. The model's own tests, and for every obligation with hypotheses a witness that meets them. Expected results are
the spec's: the rule or the vector of spec/95_test_vectors.md is named at each test. -/

namespace Sys2Proof.Tests

open Sys2Proof.Machine

/-! ## States -/

/-- The state of spec/10_state.md R28 with the vectors' parameters (spec/95_test_vectors.md section 0). -/
def ready : State := startUp State.reset

/-- After a commit to drive: `DIR = 1`, all lines `OUT`, the counter and the latches at `v`. -/
def driving (v : Byte) : State := { ready with dir := true, mode := Lines.fill .output, cnt := v, olat := linesOfByte v }

/-- With a pending edge. -/
def edge (s : State) : State := { s with pend := true }

/-- With the Mode Controller at `m`. -/
def at_ (m : Mcs) (s : State) : State := { s with mcs := m }

/-- Under `MC_GRANULARITY = per_line`. -/
def perLine (s : State) : State := { s with params := { s.params with granularity := .perLine } }

/-- With the bus lines driven from outside. -/
def bus (x : Lines Drive) (s : State) : State := { s with xBus := x }

/-- `per_line`, turning to drive, the first `k` lines turned. -/
def turning (k : Nat) (m : Lines PinDir) : State := perLine { ready with mode := m, mcs := .cfg true k }

/-- What is left of a step: the projection `f` of the next state. -/
def after {α : Type} (f : State → α) (i : Instr) (s : State) : Option α := (nextOf (exec i s)).map f

/-! ## WellFormed refuses ill-formed terms, one per check -/

theorem test_refuses_cfg_under_group : (Instr.mcCfg 0 true false).wellFormed Params.default = false := by decide
theorem test_refuses_flag_under_group : (Instr.mcFlag true false).wellFormed Params.default = false := by decide
theorem test_refuses_pullup_on_bus_line : (Instr.cfgdir (.bus 3) .inputPullup).wellFormed Params.default = false := by decide
theorem test_refuses_clock_output : (Instr.cfgdir .clk .output).wellFormed Params.default = false := by decide
theorem test_refuses_enable_without_pullup : (Instr.cfgdir .en .input).wellFormed Params.default = false := by decide
theorem test_refuses_cfgdir_reserved_line : (Instr.cfgdir (.reserved 0) .input).wellFormed Params.default = false := by decide
theorem test_refuses_read_of_clock : (Instr.rdlvl .clk).wellFormed Params.default = false := by decide
theorem test_refuses_read_of_reserved_line : (Instr.rdlvl (.reserved 5)).wellFormed Params.default = false := by decide
theorem test_refuses_write_of_clock : (Instr.wrlvl .clk true).wellFormed Params.default = false := by decide
theorem test_refuses_write_of_enable : (Instr.wrlvl .en false).wellFormed Params.default = false := by decide
theorem test_refuses_write_of_reserved_line : (Instr.wrlvl (.reserved 1) true).wellFormed Params.default = false := by decide
theorem test_refuses_other_trace_byte : (Instr.trput 0x41).wellFormed Params.default = false := by decide
theorem test_refuses_released_clock : (Instr.envSet .clk .z).wellFormed Params.default = false := by decide
theorem test_refuses_env_reserved_line : (Instr.envSet (.reserved 2) .d0).wellFormed Params.default = false := by decide

/-! ## Decoding: words of every constructor, written out from spec/30_encoding.md and the rules' own examples -/

/-- R58: the format S words; `01000010` is 0x42, `01000001` 0x41 (R70, R71), `10000010` is `CFG 0` (R72), `10100010` FLAG (R73). -/
theorem test_decode_s :
    decode tableParams .s 0b00000000 = .ok (.init false false) ∧ decode tableParams .s 0b00000010 = .ok (.init true false) ∧
    decode tableParams .s 0b00100001 = .ok (.mcSample false true) ∧
    decode tableParams .s 0b01000000 = .ok .mcCommitNopSense ∧ decode tableParams .s 0b01000011 = .ok .mcCommitNopDrive ∧
    decode tableParams .s 0b01000010 = .ok .mcCommitDrv ∧ decode tableParams .s 0b01000001 = .ok .mcCommitSns ∧
    decode tableParams .s 0b01100010 = .ok (.ehR true) ∧ decode tableParams .s 0b01100001 = .ok (.ehW false) ∧
    decode tableParams .s 0b10000010 = .ok (.mcCfg 0 true false) ∧ decode tableParams .s 0b10010110 = .ok (.mcCfg 5 true false) ∧
    decode tableParams .s 0b10100010 = .ok (.mcFlag true false) := by decide

/-- R59; `CFGDIR(3, OUT)` is 0x0D (R82), `RDLVL(9)` 0x64 (R83), `WRLVL(0, 1)` 0x81 (R84). -/
theorem test_decode_p :
    decode Params.default .p 0x0D = .ok (.cfgdir (.bus 3) .output) ∧ decode Params.default .p 0b00000100 = .ok (.cfgdir (.bus 1) .input) ∧
    decode Params.default .p 0b00100110 = .ok (.cfgdir .en .inputPullup) ∧ decode Params.default .p 0b00100000 = .ok (.cfgdir .clk .input) ∧
    decode Params.default .p 0x64 = .ok (.rdlvl .en) ∧ decode Params.default .p 0b01011100 = .ok (.rdlvl (.bus 7)) ∧
    decode Params.default .p 0x81 = .ok (.wrlvl (.bus 0) true) ∧ decode Params.default .p 0b10011100 = .ok (.wrlvl (.bus 7) false) := by
  decide

/-- R60 and R85: the word of `'w'` is 0x77; the line end is legal because `NL` holds it. -/
theorem test_decode_t :
    decode Params.default .t 0x77 = .ok (.trput 0x77) ∧ decode Params.default .t 0x0A = .ok (.trput 0x0A) ∧
    decode Params.default .t 0x0D = .error .reservedByte := by decide

/-- R61's own examples. -/
theorem test_decode_e :
    decode Params.default .e 0x24 = .ok (.envSet .en .d0) ∧ decode Params.default .e 0x25 = .ok (.envSet .en .d1) ∧
    decode Params.default .e 0x26 = .ok (.envSet .en .z) ∧ decode Params.default .e 0x21 = .ok (.envSet .clk .d1) ∧
    decode Params.default .e 0x20 = .ok (.envSet .clk .d0) ∧ decode Params.default .e 0x01 = .ok (.envSet (.bus 0) .d1) ∧
    decode Params.default .e 0x1C = .ok (.envSet (.bus 7) .d0) ∧ decode Params.default .e 0x0E = .ok (.envSet (.bus 3) .z) := by decide

/-- R62, one word per clause; T20 is the last of the first line. -/
theorem test_reserved_words :
    decode Params.default .s 0xC0 = .error .reservedEvent ∧ decode Params.default .s 0x24 = .error .lineFieldNotZero ∧
    decode Params.default .s 0x82 = .error .perLineOnly ∧
    decode Params.default .p 0xC0 = .error .reservedPrimitive ∧ decode Params.default .p 0x03 = .error .reservedMode ∧
    decode Params.default .p 0x41 = .error .reservedArgument ∧ decode Params.default .p 0x82 = .error .reservedArgument ∧
    decode Params.default .p 0x28 = .error .reservedLine ∧ decode Params.default .p 0x60 = .error .illegalPair ∧
    decode Params.default .e 0x40 = .error .reservedPrefix ∧ decode Params.default .e 0x28 = .error .reservedLine ∧
    decode Params.default .e 0x03 = .error .reservedDrive ∧ decode Params.default .e 0x22 = .error .clockReleased := by decide

/-- The layout for the host (log 9): a bare table word, and the same word with its interface named. -/
theorem test_table_words :
    decodeTableWord 8 0x42 = some .mcCommitDrv ∧ decodeTableWord 8 0x01 = some (.init false true) ∧
    decodeTableWord 16 0x0201 = some (.cfgdir (.bus 0) .output) ∧ decodeTableWord 16 0x0401 = some (.envSet (.bus 0) .d1) ∧
    decodeTableWord 16 0x0377 = some (.trput 0x77) ∧ decodeTableWord 8 0x77 = some (.trput 0x77) ∧
    decodeTableWord 8 0xFF = none := by decide

/-! ## One step each -/

/-- R114's example, V4: `NL = 0A` gives the banner `52 55 4E 4E 49 4E 47 0A`. -/
theorem test_init_trace :
    after State.trace (.init false false) State.reset = some [0x52, 0x55, 0x4E, 0x4E, 0x49, 0x4E, 0x47, 0x0A] := by decide

/-- R28's table; R114: there is no second start-up. -/
theorem test_init_once : ready.dir = false ∧ ready.enpu = true ∧ ready.mcs = .idle ∧ ready.pend = false ∧ ready.run = true ∧
    ready.mode = Lines.fill .input ∧ markOf (exec (.init false false) ready) = some .notEnabled := by decide

/-- T3: `X[9] = D0`, so the sample is 1. -/
theorem test_sample_asserted : after State.mcs (.mcSample false false) { ready with xEn := .d0 } = some (.sampled true) := by decide

/-- T5: `X[9] = Z`, pulled up, so the sample is 0. -/
theorem test_sample_unconnected : after State.mcs (.mcSample false false) ready = some (.sampled false) := by decide

/-- T7: only `MCS` is written. -/
theorem test_commit_nop_sense : nextOf (exec .mcCommitNopSense (at_ (.sampled false) ready)) = some ready := by decide

/-- T8. -/
theorem test_commit_nop_drive : nextOf (exec .mcCommitNopDrive (at_ (.sampled true) (driving 3))) = some (driving 3) := by decide

/-- T9: the flag, and the bus that shows the latch's old content 0x37. -/
theorem test_commit_drive :
    after (fun t => (t.dir, t.cnt, [t.level (.bus 0), t.level (.bus 2), t.level (.bus 7)])) .mcCommitDrv
      (at_ (.sampled true) { ready with cnt := 0x37, olat := linesOfByte 0x37 }) =
    some (true, 0x37, [some false, some true, some true]) := by decide

/-- T10: the requests on the bus lines, in ascending order, and the counter. -/
theorem test_commit_sense :
    after (fun t => (t.dir, t.cnt, t.mode, t.busCfgCalls)) .mcCommitSns (at_ (.sampled false) (driving 0x37)) =
    some (false, 0x37, Lines.fill .input, 16) := by decide

/-- T13: `CFG 0` under `per_line`. -/
theorem test_cfg_first_line :
    after (fun t => (t.mode, t.mcs, t.dir)) (.mcCfg 0 true false) (at_ (.sampled true) (perLine ready)) =
    some (⟨.output, .input, .input, .input, .input, .input, .input, .input⟩, .cfg true 1, false) := by decide

/-- T19: lines go in ascending order. -/
theorem test_cfg_out_of_turn :
    markOf (exec (.mcCfg 5 true false) (turning 3 ⟨.output, .output, .output, .input, .input, .input, .input, .input⟩)) =
    some .notEnabled := by decide

/-- T15: FLAG. -/
theorem test_flag :
    after (fun t => (t.dir, t.mcs)) (.mcFlag true false) (turning 8 (Lines.fill .output)) = some (true, .idle) := by decide

/-- V1: 254 to 255, the trace line `11111111 w`. -/
theorem test_write_254 :
    after (fun t => (t.cnt, t.olat, t.trace.drop 8, t.pend)) (.ehW false) (edge (driving 0xFE)) =
    some (0xFF, Lines.fill true, [0x31, 0x31, 0x31, 0x31, 0x31, 0x31, 0x31, 0x31, 0x20, 0x77, 0x0A], false) := by decide

/-- V3: 255 to 0, the trace line `00000000 w`. -/
theorem test_write_wraps :
    after (fun t => (t.cnt, t.olat, t.trace.drop 8)) (.ehW false) (edge (driving 0xFF)) =
    some (0x00, Lines.fill false, [0x30, 0x30, 0x30, 0x30, 0x30, 0x30, 0x30, 0x30, 0x20, 0x77, 0x0A]) := by decide

/-- V2: the lines (1,0,1,0,1,0,1,0) give `10101010 r`; the counter is not touched. -/
theorem test_read_aa :
    after (fun t => (t.cnt, t.trace.drop 8, t.draws, t.pend)) (.ehR false)
      (edge (bus ⟨.d1, .d0, .d1, .d0, .d1, .d0, .d1, .d0⟩ { ready with cnt := 0x2A })) =
    some (0x2A, [0x31, 0x30, 0x31, 0x30, 0x31, 0x30, 0x31, 0x30, 0x20, 0x72, 0x0A], 0, false) := by decide

/-- R75: no service without a pending edge, and none by the other state's handler. -/
theorem test_read_not_enabled :
    markOf (exec (.ehR false) ready) = some .notEnabled ∧ markOf (exec (.ehR false) (edge (driving 0))) = some .notEnabled := by decide

/-- R82's example `CFGDIR(3, OUT)`. -/
theorem test_cfgdir :
    after (fun t => (t.mode, t.olat)) (.cfgdir (.bus 3) .output) ready =
    some (⟨.input, .input, .input, .output, .input, .input, .input, .input⟩, ready.olat) := by decide

/-- R83's example: `RDLVL(9)` with `X[9] = Z` and the pull-up on answers 1. -/
theorem test_rdlvl : after (fun t => t.gpio.getLast?) (.rdlvl .en) ready = some (some (.rdlvl .en true)) := by decide

/-- R84's example: `WRLVL(0, 1)`. -/
theorem test_wrlvl :
    after (fun t => (t.olat, t.mode)) (.wrlvl (.bus 0) true) ready =
    some (⟨true, false, false, false, false, false, false, false⟩, ready.mode) := by decide

/-- R85's example: `TRPUT('w')`. -/
theorem test_trput : after (fun t => t.trace.getLast?) (.trput 0x77) ready = some (some 0x77) := by decide

/-- R90's example: `LINE 0 H`. -/
theorem test_env_bus_line :
    after State.xBus (.envSet (.bus 0) .d1) ready = some ⟨.d1, .z, .z, .z, .z, .z, .z, .z⟩ := by decide

/-- R92: a rising edge becomes pending; a second one while it is pending is the overrun of R105. -/
theorem test_env_clock :
    after State.pend (.envSet .clk .d1) ready = some true ∧
    markOf (exec (.envSet .clk .d1) (edge ready)) = some .edgeOverrun ∧
    after State.pend (.envSet .clk .d1) State.reset = some false := by decide

/-- T1a to T1h and T2a to T2d: the level function. -/
theorem test_levels :
    [busLevel .output true .z, busLevel .output false .z, busLevel .output true .d1, busLevel .output true .d0,
      busLevel .output false .d1, busLevel .input true .d0, busLevel .input false .d1, busLevel .input true .z] =
      [some true, some false, some true, none, none, some false, some true, none] ∧
    [enableLevel true .d0, enableLevel true .d1, enableLevel true .z, enableLevel false .z] =
      [some false, some true, some true, none] := by decide

/-! ## The host's fetch: the next step runs the word given -/

theorem test_fetch_init : (nextOf (step (State.reset.withFetchWord 8 0x00))).map State.run = some true := by decide
theorem test_fetch_drive : (nextOf (step (State.reset.withFetchWord 8 0x42))).map State.dir = some true := by decide
theorem test_fetch_write : (nextOf (step (State.reset.withFetchWord 8 0x61))).map State.cnt = some 1 := by decide
theorem test_fetch_cfg : (nextOf (step (State.reset.withFetchWord 8 0x96))).map State.mcs = some (.cfg true 6) := by decide
theorem test_fetch_reserved : markOf (step (State.reset.withFetchWord 8 0xFF)) = some .reservedWord := by decide

/-! ## The script notation (R64) -/

/-- `POLL` with the enable line low turns the bus to drive. -/
theorem test_script_poll : (nextOf (runItem .poll { ready with xEn := .d0 })).map State.dir = some true := by decide

/-- `TICK` while driving counts once and leaves the clock low; it requires `PEND = 0`. -/
theorem test_script_tick :
    (nextOf (runItem .tick (driving 6))).map (fun t => (t.cnt, t.xClk, t.pend)) = some (7, false, false) ∧
    markOf (runItem .tick (edge (driving 6))) = some .notEnabled := by decide

/-! ## EO3 (R93): CLK H; LINE 0 H; SVC moves the bus between the edge and its service -/

/-- The second operation breaks EO3; before the edge, or on the enable line, the same is allowed. -/
theorem test_bus_moved_while_pending :
    ¬ busHeld (.envSet (.bus 0) .d1) (edge ready) ∧ busHeld (.envSet (.bus 0) .d1) ready ∧ busHeld (.envSet .en .d0) (edge ready) :=
  ⟨fun h => h ⟨rfl, rfl, 0, .d1, rfl⟩, fun h => absurd h.2.1 (by decide), fun h => by simpa using h.2.2⟩

/-- Nothing reports the breach (R93): the service traces the bus as it stands then, 10000000, not as it stood at the edge, 00000000. -/
theorem test_moved_bus_is_sampled_moved :
    (nextOf (runLines [.clk true, .line 0 .d1, .svc] (bus (Lines.fill .d0) ready))).map (fun t => t.trace.drop ready.trace.length) =
      some [0x31, 0x30, 0x30, 0x30, 0x30, 0x30, 0x30, 0x30, 0x20, 0x72, 0x0A] := by decide

/-- The record of the bus: the edge notes it, a bus line set before the edge or the enable line set after it does not end it; a bus
line set after the edge does, so no claim about the sampled value speaks of CLK H; LINE 0 H; SVC, even where the line is set back. -/
theorem test_record_of_the_bus :
    (nextOf (runLines [.line 0 .d1, .clk true, .en .d0] ready)).map State.edgeBus = some (some ⟨.d1, .z, .z, .z, .z, .z, .z, .z⟩) ∧
    (nextOf (runLines [.clk true, .line 0 .d1] ready)).map State.edgeBus = some none ∧
    (nextOf (runLines [.clk true, .line 0 .d1, .line 0 .z] ready)).map State.edgeBus = some none ∧
    (nextOf (runLines [.clk true, .svc] ready)).map State.edgeBus = some none := by decide

/-! ## A fair schedule (R47): a rising edge, its service, an operation of the Mode Controller, a falling edge, for ever -/

def lively : Schedule := fun n =>
  match n % 4 with
  | 0 => ⟨.environment, .clk true⟩
  | 1 => ⟨.edgeHandler, .clk false⟩
  | 2 => ⟨.modeController, .clk false⟩
  | _ => ⟨.environment, .clk false⟩

/-- Where the run of `lively` from `ready` stands: sensing, the enable line released, the clock and `PEND` by the tick. -/
structure Lively (s : State) : Prop where
  run : s.run = true
  dir : s.dir = false
  xEn : s.xEn = .z
  enpu : s.enpu = true
  mcs : s.mcs = .idle ∨ s.mcs = .sampled false
  clk : s.xClk = (s.ticks % 4 != 0)
  pend : s.pend = (s.ticks % 4 == 1)

theorem lively_step {s : State} (h : Lively s) : ∃ t, lively.step s = .next t ∧ Lively t := by
  obtain ⟨h1, h2, h3, h4, h5, h6, h7⟩ := h
  have hlt : s.ticks % 4 < 4 := Nat.mod_lt _ (by decide)
  have cases4 : s.ticks % 4 = 0 ∨ s.ticks % 4 = 1 ∨ s.ticks % 4 = 2 ∨ s.ticks % 4 = 3 := by omega
  have hc : lively.step s = match chosen (lively s.ticks).agent (lively s.ticks).act s with
      | some i => exec i s.nextTick | none => .refused .notEnabled := rfl
  obtain k | k | k | k := cases4
  · refine ⟨_, by simp [hc, lively, k, chosen, envInstr, exec, execEnvSet, setClock, risingEdge, h1, h6, h7]; rfl, ?_⟩
    exact ⟨h1, h2, h3, h4, h5, by simp [Nat.add_mod, k], by simp [Nat.add_mod, k]⟩
  · obtain ⟨v, n, calls, e, _⟩ := handleRead_eq (interruptEntry s.nextTick)
    refine ⟨_, by
      simp [hc, lively, k, chosen, ehNext, edgeVariant, h1, h2, h7, exec, execEhR, State.serviceEnabled, State.agrees,
        interruptReturn, State.held, e]; rfl, ?_⟩
    exact ⟨h1, h2, h3, h4, h5, by simp [interruptEntry, Nat.add_mod, k, h6], by simp [interruptEntry, Nat.add_mod, k]⟩
  · obtain hm | hm := h5
    · refine ⟨takeSample s.nextTick, by
        simp [hc, lively, k, chosen, blockNext, mcNext, h1, h2, hm, exec, execMcSample, State.sampleEnabled, State.agrees, State.held], ?_⟩
      have hl : s.nextTick.level .en = some true := by simp [State.level, enableLevel, h3, h4]
      rw [takeSample_eq]
      exact ⟨h1, h2, h3, h4, .inr (by rw [readLevel_fst hl]; rfl), by simp [Nat.add_mod, k, h6], by simp [Nat.add_mod, k, h7]⟩
    · refine ⟨_, by
        simp [hc, lively, k, chosen, blockNext, mcNext, h1, h2, hm, commitVariant, exec, execMcCommitNopSense, State.commitEnabled]; rfl, ?_⟩
      exact ⟨h1, h2, h3, h4, .inl rfl, by simp [Nat.add_mod, k, h6, commitUnchanged], by simp [Nat.add_mod, k, h7, commitUnchanged]⟩
  · refine ⟨_, by simp [hc, lively, k, chosen, envInstr, exec, execEnvSet, setClock, risingEdge]; rfl, ?_⟩
    exact ⟨h1, h2, h3, h4, h5, by simp [Nat.add_mod, k], by simp [Nat.add_mod, k, h7]⟩

theorem lively_noMark : lively.NoMark ready := by
  have go : ∀ (n : Nat) (s : State), Lively s → ∃ t, lively.run n s = .next t := by
    intro n
    induction n with
    | zero => exact fun s _ => ⟨s, rfl⟩
    | succ n ih =>
      intro s h
      obtain ⟨t, ht, hl⟩ := lively_step h
      obtain ⟨u, hu⟩ := ih t hl
      exact ⟨u, by simp only [Schedule.run, ht]; exact hu⟩
  exact fun n => go n ready ⟨rfl, rfl, rfl, rfl, .inl rfl, by decide, by decide⟩

/-- The run is fair, and edges do come: the first step sets `PEND`. -/
theorem test_fair_run :
    lively.Fair ready ∧ (nextOf (lively.run 1 ready)).map State.pend = some true := by
  refine ⟨Schedule.fair_of_turnsForEver lively_noMark ⟨fun n => ⟨4 * n + 2, by omega, ?_⟩, fun n => ⟨4 * n + 1, by omega, ?_⟩⟩, by decide⟩
  · simp [lively, Nat.add_mod]
  · simp [lively, Nat.add_mod]

/-! ## Witnesses: for each obligation with hypotheses, states and operands that meet them, a clause at a time -/

/-- With the word scheduled. -/
def scheduling (f : Iface) (v : Byte) (s : State) : State := { s with script := [⟨f, v⟩] }

/-- The line where the Mode Controller stands between two commits agrees with the flag. -/
theorem agree_of_modes {s : State} (h1 : ∀ sb k, s.mcs ≠ .cfg sb k) (h2 : ∀ i : Fin 8, s.mode.get i = pinDirOf s.dir) :
    s.directionsAgree := by
  unfold State.directionsAgree
  cases h : s.mcs with
  | idle => exact h2
  | sampled _ => exact h2
  | cfg sb k => exact absurd h (h1 sb k)

theorem scheduling_operationsOnly (v : Byte) (s : State) : (scheduling .s v s).operationsOnly :=
  fun _ h => .inl (by rw [List.mem_singleton.1 h])

theorem ready_agree : ready.directionsAgree := agree_of_modes (fun _ _ h => Mcs.noConfusion h) (by decide)

theorem ready_inv : ready.directionInv := fun _ => ⟨ready_agree, rfl⟩

theorem driving_inv (v : Byte) : (edge (driving v)).directionInv :=
  fun _ => ⟨agree_of_modes (fun _ _ h => Mcs.noConfusion h) (by intro i; simp [edge, driving, pinDirOf]), rfl⟩

/-- In the per-line window, at its first and at its last point. -/
theorem turning_inv : (turning 1 ⟨.output, .input, .input, .input, .input, .input, .input, .input⟩).directionInv ∧
    (turning 8 (Lines.fill .output)).directionInv :=
  ⟨fun _ => ⟨⟨rfl, by decide, by decide, by decide, by decide⟩, rfl⟩, fun _ => ⟨⟨rfl, by decide, by decide, by decide, by decide⟩, rfl⟩⟩

theorem ready_traceInv : ready.traceInv := ⟨fun h => absurd h (by decide), fun _ => ⟨[], by decide, rfl⟩⟩

theorem witness_StartUpLeavesResetTable :
    State.reset.run = false ∧ ready.run = true := by decide

theorem witness_SampleKeepsComplementOfEnableLevel :
    (ready.run = true ∧ ready.mcs = .idle ∧ false = ready.dir ∧ ready.xEn = .z ∧ ready.enpu = true ∧ ready.level .en ≠ none) ∧
    { ready with xEn := .d0 }.xEn = .d0 ∧ { ready with xEn := .d1 }.xEn = .d1 ∧
    ¬ ((driving 0).run = true ∧ (driving 0).mcs = .idle ∧ false = false ∧ false = (driving 0).dir) := by decide

theorem witness_CommitOfUnchangedEnableWritesMcsOnly :
    ((at_ (.sampled false) ready).run = true ∧ (at_ (.sampled false) ready).mcs = .sampled false ∧ (at_ (.sampled false) ready).dir = false) ∧
    ((at_ (.sampled true) (driving 0)).run = true ∧ (at_ (.sampled true) (driving 0)).mcs = .sampled true ∧ (at_ (.sampled true) (driving 0)).dir = true) ∧
    ready.mcs ≠ .sampled false ∧ ready.mcs ≠ .sampled true := by decide

theorem witness_CommitDriveTurnsAllLinesToOutputs :
    (at_ (.sampled true) ready).run = true ∧ (at_ (.sampled true) ready).mcs = .sampled true ∧ (at_ (.sampled true) ready).dir = false ∧
    (at_ (.sampled true) ready).params.granularity = .group ∧ ready.xBus.get 7 = .z ∧ ready.mcs ≠ .sampled true := by decide

theorem witness_CommitSenseTurnsAllLinesToInputs :
    (at_ (.sampled false) (driving 9)).run = true ∧ (at_ (.sampled false) (driving 9)).mcs = .sampled false ∧
    (at_ (.sampled false) (driving 9)).dir = true ∧ (at_ (.sampled false) (driving 9)).params.granularity = .group ∧ ready.mcs ≠ .sampled false := by decide

/-- R72 at `ln` 0, 1 and 7; out of turn after line 7; and under `group`. -/
theorem witness_ConfigureTurnsOneLine :
    ((at_ (.sampled true) (perLine ready)).params.granularity = .perLine ∧ (at_ (.sampled true) (perLine ready)).run = true ∧
      false = (at_ (.sampled true) (perLine ready)).dir ∧ (at_ (.sampled true) (perLine ready)).mcs = .sampled true ∧ true ≠ (at_ (.sampled true) (perLine ready)).dir) ∧
    (turning 1 ready.mode).mcs = .cfg true (1 : Fin 8).val ∧ (turning 7 ready.mode).mcs = .cfg true (7 : Fin 8).val ∧ 1 ≤ (1 : Fin 8).val ∧
    (turning 8 ready.mode).mcs ≠ .cfg true (7 : Fin 8).val ∧ ready.params.granularity = .group := by decide

theorem witness_FlagCommitsNewDirection :
    ((turning 8 (Lines.fill .output)).params.granularity = .perLine ∧ (turning 8 (Lines.fill .output)).run = true ∧
      (turning 8 (Lines.fill .output)).mcs = .cfg true 8 ∧ false = (turning 8 (Lines.fill .output)).dir ∧ (turning 8 (Lines.fill .output)).directionsAgree) ∧
    (turning 7 ready.mode).mcs ≠ .cfg true 8 ∧ ready.params.granularity = .group := ⟨⟨rfl, rfl, rfl, rfl, (turning_inv.2 rfl).1⟩, by decide, rfl⟩

theorem witness_WriteServiceCountsDrivesAndTraces :
    ((edge (driving 0xFF)).run = true ∧ (edge (driving 0xFF)).pend = true ∧ (edge (driving 0xFF)).dir = true ∧ false = (edge (driving 0xFF)).held) ∧
    (driving 0).pend ≠ true := by decide

/-- A rising edge has arrived, and MC.SAMPLE has run since (EO3 kept). -/
def sampledSince (s : State) : State := takeSample { edge s with xClk := true, edgeBus := some s.xBus }

theorem held_inv {s : State} (hr : s.run = true) : (sampledSince s).edgeBusInv := by
  intro x hx
  simp only [sampledSince, takeSample_eq] at hx ⊢
  exact ⟨hr, rfl, Option.some.inj hx⟩

theorem witness_ReadServiceSamplesAndTraces :
    ((sampledSince (bus (Lines.fill .d1) ready)).run = true ∧ (sampledSince (bus (Lines.fill .d1) ready)).pend = true ∧
      (sampledSince (bus (Lines.fill .d1) ready)).dir = false ∧ false = (sampledSince (bus (Lines.fill .d1) ready)).held ∧
      (sampledSince (bus (Lines.fill .d1) ready)).edgeBusInv ∧
      BusHeldSinceEdge (sampledSince (bus (Lines.fill .d1) ready)) (Lines.fill .d1) ∧
      (∀ i : Fin 8, { sampledSince (bus (Lines.fill .d1) ready) with xBus := Lines.fill .d1 }.level (.bus i) = some true) ∧
      ∀ i : Fin 8, (sampledSince (bus (Lines.fill .d1) ready)).level (.bus i) ≠ none) ∧
    ready.pend ≠ true :=
  ⟨⟨rfl, rfl, rfl, rfl, held_inv rfl, rfl, by decide, by decide⟩, by decide⟩

theorem witness_FloatingBusIsSampledAsFreshDraws :
    (sampledSince ready).edgeBusInv ∧ BusHeldSinceEdge (sampledSince ready) (Lines.fill .z) ∧ (sampledSince ready).dir = false ∧
    ∀ i : Fin 8, (sampledSince ready).mode.get i = .input ∧ (Lines.fill Drive.z).get i = .z :=
  ⟨held_inv rfl, rfl, rfl, by decide⟩

theorem witness_WriteServiceIgnoresTheBus :
    ∃ t, exec (.ehW false) (edge (driving 5)) = .next t := ⟨_, rfl⟩

theorem witness_ConfigureDirectionRequest :
    ¬ ((∃ i, Line.clk = .bus i) ∧ (PinMode.output = .input ∨ PinMode.output = .output) ∨ Line.clk = .clk ∧ PinMode.output = .input ∨
      Line.clk = .en ∧ PinMode.output = .inputPullup) ∧
    ¬ ((∃ i, Line.bus 7 = .bus i) ∧ (PinMode.inputPullup = .input ∨ PinMode.inputPullup = .output) ∨ Line.bus 7 = .clk ∧ PinMode.inputPullup = .input ∨
      Line.bus 7 = .en ∧ PinMode.inputPullup = .inputPullup) := by simp

theorem witness_ReadLevelRequest :
    ready.level .en = some true ∧ (∃ i, Line.bus 7 = .bus i) ∧ ¬ (Line.clk = .en ∨ ∃ i, Line.clk = .bus i) ∧
    ¬ (Line.reserved 0 = .en ∨ ∃ i, Line.reserved 0 = .bus i) := ⟨rfl, ⟨7, rfl⟩, by simp, by simp⟩

theorem witness_LevelOfEachLine :
    ((driving 0x80).mode.get 0 = .output ∧ (driving 0x80).xBus.get 0 = .z) ∧
    (bus (Lines.fill .d1) (driving 0x80)).xBus.get 0 = (if (bus (Lines.fill .d1) (driving 0x80)).olat.get 0 then .d1 else .d0) ∧
    (bus (Lines.fill .d1) (driving 0x80)).xBus.get 7 = (if (bus (Lines.fill .d1) (driving 0x80)).olat.get 7 then .d0 else .d1) ∧
    (ready.mode.get 7 = .input ∧ (bus (Lines.fill .d0) ready).xBus.get 7 = .d0 ∧ (bus (Lines.fill .d1) ready).xBus.get 7 = .d1 ∧ ready.xBus.get 7 = .z) ∧
    (ready.xEn = .z ∧ ready.enpu = true) ∧ (State.reset.xEn = .z ∧ State.reset.enpu = false ∧ State.reset.level .en = none) ∧
    { ready with xEn := .d0 }.xEn = .d0 ∧ { ready with xEn := .d1 }.xEn = .d1 ∧ ready.level (.bus 0) = none := by decide

theorem witness_WriteLevelRequest :
    ((driving 1).mode.get 7 = .output ∧ (driving 1).xBus.get 7 = .z) ∧ ready.mode.get 7 = .input ∧ (∀ i, Line.clk ≠ .bus i) ∧ ∀ i, Line.reserved 5 ≠ .bus i := ⟨by decide, by decide, by simp, by simp⟩

theorem witness_PutByteRequest :
    ((0x47 : Byte) ∈ ([0x30, 0x31, 0x20, 0x77, 0x72, 0x52, 0x55, 0x4E, 0x49, 0x47] : List Byte) ∧ (0x0A : Byte) ∈ ready.params.nl) ∧
    ¬ ((0x41 : Byte) ∈ ([0x30, 0x31, 0x20, 0x77, 0x72, 0x52, 0x55, 0x4E, 0x49, 0x47] : List Byte) ∨ (0x41 : Byte) ∈ ready.params.nl) := by decide

theorem witness_PrimitiveSideEffects :
    (∃ t u, exec (.cfgdir (.bus 7) .output) ready = .next t ∧ exec (.cfgdir (.bus 7) .output) t = .next u) ∧
    (∃ t u, exec (.wrlvl (.bus 0) true) ready = .next t ∧ exec (.wrlvl (.bus 0) true) t = .next u) ∧
    (∃ t, exec (.rdlvl .en) ready = .next t) ∧ ∃ t, exec (.trput 0x77) ready = .next t := ⟨⟨_, _, rfl, rfl⟩, ⟨_, _, rfl, rfl⟩, ⟨_, rfl⟩, ⟨_, rfl⟩⟩

theorem witness_EnableLineIsSeenBySampleOnly :
    (ready.run = true ∧ ready.mcs = .idle ∧ ready.enpu = true) ∧
    ((Instr.ehR false).isOperation = true ∧ (∀ a b, Instr.ehR false ≠ .mcSample a b) ∧ (∀ y, Instr.ehR false ≠ .envSet .en y) ∧
      (∃ t, exec (.ehR false) (edge ready) = .next t) ∧ exec (.ehR false) ready = .refused .notEnabled) :=
  ⟨by decide, rfl, by simp, by simp, ⟨_, rfl⟩, rfl⟩

theorem witness_RisingClockEdgeBecomesPending :
    (ready.run = true ∧ ready.xClk = false ∧ ready.pend = false) ∧
    ((edge ready).run = true ∧ (edge ready).xClk = false ∧ (edge ready).pend = true) ∧ State.reset.run = false ∧ { ready with xClk := true }.xClk = true := by decide

/-- A rising edge, then MC.SAMPLE; and a rising edge, then line 0 moved. -/
def edgeThen (r : Request) : State := { ready with script := [⟨.e, 0x21⟩, r] }

theorem arrives (r : Request) :
    EdgeArrives (edgeThen r) { edgeThen r with script := [r], xClk := true, pend := true, edgeBus := some ready.xBus } :=
  ⟨rfl, ⟨_, rfl⟩, rfl, rfl, rfl⟩

/-- What holds of the operation of the one word scheduled holds of each step for one step. -/
theorem one_step {s : State} {i : Instr} {u : State} {p : Instr → State → Prop} (hf : fetch s = .ok (i, u)) (h : p i s) :
    EachStepFor 1 s p := by
  intro j hj t ht i' u' hf'
  obtain rfl : j = 0 := by omega
  cases ht
  rw [hf] at hf'
  cases hf'
  exact h

/-- Both cases of the statement: the bus held over one step, and moved by it. -/
theorem witness_EdgeBusRecordIsBusStability :
    (State.reset.edgeBusInv ∧ ∃ t, step (State.reset.withFetchWord 8 0x00) = .next t) ∧
    (∃ e s, EdgeArrives (edgeThen ⟨.s, 0x20⟩) e ∧ Sys2Proof.core.run 1 e = .next s ∧ EdgeWaitsFor 1 e ∧ BusHeldFor 1 e) ∧
    ∃ e s, EdgeArrives (edgeThen ⟨.e, 0x01⟩) e ∧ Sys2Proof.core.run 1 e = .next s ∧ EdgeWaitsFor 1 e ∧ ¬ BusHeldFor 1 e := by
  refine ⟨⟨fun _ h => by (cases h), _, rfl⟩,
    ⟨_, _, arrives _, rfl, one_step (i := .mcSample false false) rfl rfl,
      one_step (i := .mcSample false false) rfl ?_⟩,
    ⟨_, _, arrives _, rfl, one_step (i := .envSet (.bus 0) .d1) rfl rfl, fun h => ?_⟩⟩
  · rintro ⟨_, _, _, _, h⟩
    cases h
  · exact h 0 (by omega) _ rfl (.envSet (.bus 0) .d1) _ rfl ⟨rfl, rfl, 0, .d1, rfl⟩

theorem witness_DecodeOfEncodeIsIdentity :
    (Instr.mcCfg 7 true true).wellFormed tableParams = true ∧ (Instr.cfgdir .en .inputPullup).wellFormed Params.default = true ∧
    (Instr.trput 0x0A).wellFormed Params.default = true ∧ (Instr.envSet .en .z).wellFormed Params.default = true := by decide

theorem witness_EncodeOfDecodeIsIdentity :
    decode Params.default .s 0x63 = .ok (.ehW true) ∧ decode Params.default .p 0x64 = .ok (.rdlvl .en) := by decide

theorem witness_ReservedWordsAreRejected :
    ((0xC0 : Byte).extractLsb' 5 3 = 6 ∧ (0xFF : Byte).extractLsb' 5 3 = 7) ∧ ((0x04 : Byte).extractLsb' 2 3 ≠ 0 ∧ (0x04 : Byte).extractLsb' 5 3 ≠ 4) ∧
    ((0x80 : Byte).extractLsb' 5 3 = 4 ∧ (0xA0 : Byte).extractLsb' 5 3 = 5 ∧ Params.default.granularity = .group) ∧ (0xC0 : Byte).extractLsb' 6 2 = 3 ∧
    9 < ((0x28 : Byte).extractLsb' 2 4).toNat ∧ (0x03 : Byte).extractLsb' 0 2 = 3 ∧ ((0x41 : Byte).extractLsb' 6 2 = 1 ∧ (0x41 : Byte).extractLsb' 0 2 ≠ 0) ∧
    ((0x82 : Byte).extractLsb' 6 2 = 2 ∧ (0x82 : Byte).getLsbD 1 = true) ∧ (0x40 : Byte).extractLsb' 6 2 ≠ 0 ∧
    ((0x1E : Byte).extractLsb' 6 2 = 0 ∧ ((0x1E : Byte).extractLsb' 2 4).toNat = 7 ∧ (0x1E : Byte).extractLsb' 0 2 = 2) ∧
    (((0x22 : Byte).extractLsb' 2 4).toNat = 8 ∧ (0x22 : Byte).extractLsb' 0 2 ≠ 0) ∧
    (((0x25 : Byte).extractLsb' 2 4).toNat = 9 ∧ (0x25 : Byte).extractLsb' 0 2 ≠ 2) ∧ ((0x60 : Byte).extractLsb' 6 2 = 1 ∧ ((0x60 : Byte).extractLsb' 2 4).toNat = 8) ∧
    ((0xA5 : Byte).extractLsb' 6 2 = 2 ∧ ((0xA5 : Byte).extractLsb' 2 4).toNat = 9) ∧
    (0x0D : Byte) ∉ ([0x30, 0x31, 0x20, 0x77, 0x72, 0x52, 0x55, 0x4E, 0x49, 0x47] : List Byte) ∧ (0x0D : Byte) ∉ Params.default.nl := by decide

theorem witness_StepRunsTheScheduledWord :
    ((scheduling .s 0x20 ready).script = [⟨.s, 0x20⟩] ∧ decode (scheduling .s 0x20 ready).params .s 0x20 = .ok (.mcSample false false)) ∧
    (Instr.envSet .clk .d1).wellFormed ready.params = true ∧
    (scheduling .e 0x21 ready).script = [⟨(Instr.envSet .clk .d1).iface, encode (.envSet .clk .d1)⟩] := by decide

theorem witness_StepRefusesReservedWords :
    (scheduling .e 0x22 ready).script = [⟨.e, 0x22⟩] ∧ decode (scheduling .e 0x22 ready).params .e 0x22 = .error .clockReleased := by decide

theorem witness_StepFollowsTheFreeSchedule :
    (ready.script = [] ∧ ready.directionInv) ∧
    (turning 8 (Lines.fill .output)).script = [] ∧ (turning 8 (Lines.fill .output)).directionInv := ⟨⟨rfl, ready_inv⟩, rfl, turning_inv.2⟩

theorem witness_MarksAreTheClosedList :
    step (scheduling .s 0xFF ready) = .refused .reservedWord ∧ step (scheduling .s 0x40 ready) = .refused .notEnabled ∧
    step (scheduling .e 0x21 (edge ready)) = .refused .edgeOverrun := ⟨rfl, rfl, rfl⟩

/-- RDLVL stands in no list of writers, so it meets the hypotheses of every clause. -/
theorem witness_EveryElementHasItsWritersOnly :
    ∃ t, exec (.rdlvl .en) ready = .next t := ⟨_, rfl⟩

theorem witness_ModeControllerFrame :
    Instr.mcCommitDrv.byModeController = true ∧ ∃ t, exec .mcCommitDrv (at_ (.sampled true) ready) = .next t := ⟨rfl, _, rfl⟩

theorem witness_EdgeHandlerFrame :
    (Instr.ehW false).byEdgeHandler = true ∧ (∃ t, exec (.ehW false) (edge (driving 1)) = .next t) ∧ ∃ t, exec (.ehR false) (edge ready) = .next t := ⟨rfl, ⟨_, rfl⟩, _, rfl⟩

theorem witness_TraceOnlyGrows :
    (∃ t, step (scheduling .s 0x60 (edge ready)) = .next t) ∧
    ((Instr.init false false).isOperation = true ∧ ∃ t, exec (.init false false) State.reset = .next t) ∧
    ((Instr.ehR false).isOperation = true ∧ (Instr.ehR false).byEdgeHandler = true ∧ ∃ t, exec (.ehR false) (edge ready) = .next t) ∧
    (Instr.mcSample false false).isOperation = true ∧ (Instr.mcSample false false).byEdgeHandler = false ∧
    ∃ t, exec (.mcSample false false) ready = .next t :=
  ⟨⟨_, rfl⟩, ⟨rfl, _, rfl⟩, ⟨rfl, rfl, _, rfl⟩, rfl, rfl, _, rfl⟩

theorem witness_StepKeepsParameters :
    ∃ t, step (scheduling .s 0x00 State.reset) = .next t := ⟨_, rfl⟩

theorem witness_ExactlyOneModeControllerOperationIsEnabled :
    (ready.run = true ∧ ready.directionsAgree) ∧ State.reset.run = false ∧
    (∃ j t, j.byModeController = true ∧ exec j ready = .next t) ∧
    (turning 8 (Lines.fill .output)).run = true ∧ (turning 8 (Lines.fill .output)).directionsAgree := ⟨⟨rfl, ready_agree⟩, rfl, ⟨.mcSample false false, _, rfl, rfl⟩, rfl, (turning_inv.2 rfl).1⟩

theorem witness_PendingEdgeIsServicedByTheFlag :
    ((edge (driving 1)).run = true ∧ (edge (driving 1)).pend = true ∧ (edge (driving 1)).dir = true) ∧
    ((edge ready).run = true ∧ (edge ready).pend = true ∧ (edge ready).dir = false) ∧ ¬ (ready.run = true ∧ ready.pend = true) := by decide

theorem witness_EachEdgeIsServicedExactlyOnce :
    ((Instr.ehW false).isOperation = true ∧ (edge (driving 1)).run = true ∧ ∃ t, exec (.ehW false) (edge (driving 1)) = .next t) ∧
    (Instr.envSet .clk .d1).isOperation = true ∧ ready.run = true ∧ ∃ t, exec (.envSet .clk .d1) ready = .next t := ⟨⟨rfl, rfl, _, rfl⟩, rfl, rfl, _, rfl⟩

theorem witness_StepKeepsOperationsOnly :
    (scheduling .s 0x42 (at_ (.sampled true) ready)).operationsOnly ∧ ∃ t, step (scheduling .s 0x42 (at_ (.sampled true) ready)) = .next t := ⟨scheduling_operationsOnly _ _, _, rfl⟩

theorem witness_StepKeepsDirections :
    (scheduling .s 0x42 (at_ (.sampled true) ready)).operationsOnly ∧ (scheduling .s 0x42 (at_ (.sampled true) ready)).directionInv ∧
    ∃ t, step (scheduling .s 0x42 (at_ (.sampled true) ready)) = .next t := ⟨scheduling_operationsOnly _ _, fun _ => ⟨agree_of_modes (fun _ _ h => Mcs.noConfusion h) (by decide), rfl⟩, _, rfl⟩

theorem witness_DirectionInvariantGivesInv1AndInv2 :
    (ready.run = true ∧ ready.directionInv ∧ ready.params.granularity = .group) ∧
    (perLine ready).run = true ∧ (perLine ready).directionInv ∧ ∀ sb k, (perLine ready).mcs ≠ .cfg sb k := ⟨⟨rfl, ready_inv, rfl⟩, rfl, fun _ => ⟨agree_of_modes (fun _ _ h => Mcs.noConfusion h) (by decide), rfl⟩, fun _ _ h => Mcs.noConfusion h⟩

theorem witness_StepKeepsTraceHistory :
    (scheduling .s 0x60 (edge ready)).operationsOnly ∧ (scheduling .s 0x60 (edge ready)).traceInv ∧
    ∃ t, step (scheduling .s 0x60 (edge ready)) = .next t := ⟨scheduling_operationsOnly _ _, ready_traceInv, _, rfl⟩

/-- Driving at 1, with the banner and the one write line that counted to it. -/
def counted : State := { driving 1 with trace := bannerLine [0x0A] ++ traceLine [0x0A] 1 .w }

theorem counted_traceInv : counted.traceInv :=
  ⟨fun h => absurd h (by decide), fun _ => ⟨[⟨1, .w⟩], by decide, by decide, rfl⟩⟩

theorem witness_CounterIsStartPlusWriteEdges :
    (scheduling .s 0x61 (edge counted)).operationsOnly ∧ (scheduling .s 0x61 (edge counted)).counterInv ∧
    (∃ t, step (scheduling .s 0x61 (edge counted)) = .next t) ∧ counted.traceInv :=
  ⟨scheduling_operationsOnly _ _, ⟨fun h => absurd h (by decide), fun _ => ⟨[⟨1, .w⟩], by decide, by decide⟩⟩, ⟨_, rfl⟩,
    counted_traceInv⟩

theorem witness_FreeScheduleIsNeverRefused :
    State.reset.script = [] ∧ State.reset.directionInv ∧ ∀ i, scheduled State.reset = some i → edgeSpaced i State.reset := ⟨rfl, fun h => absurd h (by decide), fun _ _ h => absurd h.2.1 (by decide)⟩

theorem witness_RunsWithSpacedEdgesCarryNoMark :
    State.reset.script = [] ∧ State.reset.directionInv ∧ EdgesSpacedFor 1 State.reset := by
  refine ⟨rfl, fun h => absurd h (by decide), fun j hj t ht i u _ hi => ?_⟩
  obtain rfl : j = 0 := by omega
  injection ht with ht
  subst ht
  exact absurd hi.2.1 (by decide)

theorem witness_PollMakesDirectionFollowEnable :
    (ready.run = true ∧ ready.mcs = .idle ∧ ready.directionsAgree ∧ ready.level .en = some true) ∧
    (perLine { ready with xEn := .d0 }).run = true ∧ (perLine { ready with xEn := .d0 }).mcs = .idle ∧
    (perLine { ready with xEn := .d0 }).directionsAgree ∧ (perLine { ready with xEn := .d0 }).level .en = some false := ⟨⟨rfl, rfl, ready_agree, rfl⟩, rfl, rfl, agree_of_modes (fun _ _ h => Mcs.noConfusion h) (by decide), rfl⟩

theorem witness_PollWithUnchangedEnableIsIdempotent :
    ready.run = true ∧ ready.mcs = .idle ∧ ready.level .en = some (!ready.dir) := by decide

theorem witness_PerLineCommitEqualsGroupCommit :
    (at_ (.sampled true) (perLine ready)).run = true ∧ (at_ (.sampled true) (perLine ready)).params.granularity = .perLine ∧
    (at_ (.sampled true) (perLine ready)).mcs = .sampled true ∧ true ≠ (at_ (.sampled true) (perLine ready)).dir := by decide

theorem witness_EightBusReconfigurationsPerTurn :
    Instr.mcCommitDrv.isOperation = true ∧ (at_ (.sampled true) ready).run = true ∧ (at_ (.sampled true) ready).params.granularity = .group ∧
    ∃ t, exec .mcCommitDrv (at_ (.sampled true) ready) = .next t := ⟨rfl, rfl, rfl, _, rfl⟩

theorem witness_StaleSampleIsCommitted :
    { ready with xEn := .d0 }.run = true ∧ { ready with xEn := .d0 }.mcs = .idle ∧ { ready with xEn := .d0 }.dir = false ∧
    { ready with xEn := .d0 }.xEn = .d0 ∧ { ready with xEn := .d0 }.params.granularity = .group := by decide

theorem witness_EdgeBeforeCommitIsHandledUnderOldDirection :
    (edge (at_ (.sampled true) ready)).run = true ∧ (edge (at_ (.sampled true) ready)).mcs = .sampled true ∧ (edge (at_ (.sampled true) ready)).dir = false ∧
    (edge (at_ (.sampled true) ready)).pend = true ∧ (edge (at_ (.sampled true) ready)).params.granularity = .group := by decide

theorem witness_PendingEdgeIsHandledUnderCommittedDirection :
    (edge (at_ (.sampled true) ready)).run = true ∧ (edge (at_ (.sampled true) ready)).mcs = .sampled true ∧ (edge (at_ (.sampled true) ready)).dir = false ∧
    (edge (at_ (.sampled true) ready)).pend = true ∧ (edge (at_ (.sampled true) ready)).params.granularity = .group := witness_EdgeBeforeCommitIsHandledUnderOldDirection

theorem witness_PolledEnableMakesNextEdgeAWrite :
    ready.run = true ∧ ready.mcs = .idle ∧ ready.dir = false ∧ ready.pend = false ∧ ready.xClk = false ∧ ready.params.granularity = .group := by decide

theorem witness_UnpolledEnableLeavesNextEdgeARead :
    ready.run = true ∧ ready.mcs = .idle ∧ ready.dir = false ∧ ready.pend = false ∧ ready.xClk = false := by decide

theorem witness_DrivenBusShowsTheCounter :
    (edge (driving 1)).directionInv ∧ (∀ b k, (edge (driving 1)).mcs ≠ .cfg b k) ∧ (edge (driving 1)).noContention ∧
    ∃ t, exec (.ehW false) (edge (driving 1)) = .next t := ⟨driving_inv 1, fun _ _ h => Mcs.noConfusion h, by unfold State.noContention; decide, _, rfl⟩

theorem witness_DrivenBusReadsBackTheCounter :
    (edge (driving 1)).directionInv ∧ (∀ b k, (edge (driving 1)).mcs ≠ .cfg b k) ∧ (edge (driving 1)).noContention ∧
    ∃ t, exec (.ehW false) (edge (driving 1)) = .next t := witness_DrivenBusShowsTheCounter

theorem witness_DrivenInputsAreSampledAsAtTheEdge :
    (sampledSince (bus (Lines.fill .d0) ready)).edgeBusInv ∧
    BusHeldSinceEdge (sampledSince (bus (Lines.fill .d0) ready)) (Lines.fill .d0) ∧
    (∀ i : Fin 8, (sampledSince (bus (Lines.fill .d0) ready)).mode.get i = .input) ∧ (sampledSince (bus (Lines.fill .d0) ready)).busDriven ∧
    ∃ t, exec (.ehR false) (sampledSince (bus (Lines.fill .d0) ready)) = .next t :=
  ⟨held_inv rfl, rfl, by decide, by unfold State.busDriven; decide, _, rfl⟩

/-- `per_line`, turning to drive, `k` lines turned, an edge pending since with the bus held. -/
def windowEdge (k : Nat) (m : Lines PinDir) : State := { edge (turning k m) with edgeBus := some (Lines.fill .z) }

theorem witness_PerLineWindowReadsAMixture :
    ((windowEdge 1 ((Lines.fill .input).set 0 .output)).edgeBusInv ∧
      BusHeldSinceEdge (windowEdge 1 ((Lines.fill .input).set 0 .output)) (Lines.fill .z) ∧
      (windowEdge 1 ((Lines.fill .input).set 0 .output)).directionInv ∧
      (windowEdge 1 ((Lines.fill .input).set 0 .output)).mcs = .cfg true 1 ∧ (Lines.fill Drive.z).get 0 = .z) ∧
    (windowEdge 8 (Lines.fill .output)).edgeBusInv ∧ BusHeldSinceEdge (windowEdge 8 (Lines.fill .output)) (Lines.fill .z) ∧
    (windowEdge 8 (Lines.fill .output)).directionInv ∧ (windowEdge 8 (Lines.fill .output)).mcs = .cfg true 8 :=
  ⟨⟨fun _ h => ⟨rfl, rfl, Option.some.inj h⟩, rfl, turning_inv.1, rfl, rfl⟩, fun _ h => ⟨rfl, rfl, Option.some.inj h⟩, rfl, turning_inv.2,
    rfl⟩

/-- `per_line`, turning to sense, line 0 turned, an edge pending. -/
def turningBack : State :=
  { perLine (edge (driving 7)) with
    mode := ⟨.input, .output, .output, .output, .output, .output, .output, .output⟩, mcs := .cfg false 1 }

theorem witness_PerLineWindowWritesHiddenLatches :
    turningBack.run = true ∧ turningBack.directionInv ∧ turningBack.mcs = .cfg false 1 ∧ turningBack.pend = true ∧
    turningBack.xBus.get 7 = .z := ⟨rfl, fun _ => ⟨⟨rfl, by decide, by decide, by decide, by decide⟩, rfl⟩, rfl, rfl, rfl⟩

end Sys2Proof.Tests
end

section
/-! The schedule along a step (log 6): the fetch takes at most the first scheduled word, and no operation schedules one. -/

namespace Sys2Proof.Machine

/-- No operation writes the schedule. -/
theorem exec_script {i : Instr} {s t : State} (h : exec i s = .next t) : t.script = s.script := by
  cases i with
  | init => obtain ⟨_, rfl⟩ := exec_init_next.1 h; simp [startUp_eq]
  | mcSample | mcCommitNopSense | mcCommitNopDrive | mcCommitDrv | mcCommitSns | mcCfg | mcFlag =>
    obtain ⟨⟨_, _, _, hscript⟩, _⟩ := exec_byModeController rfl h
    exact hscript
  | ehR | ehW =>
    obtain ⟨_, _, _, hscript⟩ := exec_byEdgeHandler rfl h
    exact hscript
  | envSet =>
    obtain ⟨_, _, _, hscript, _⟩ := exec_envSet h
    exact hscript
  | cfgdir =>
    obtain ⟨_, _, _, _, rfl⟩ | ⟨_, _, rfl⟩ | ⟨_, _, rfl⟩ := exec_cfgdir_next.1 h <;> simp [cfgBus, cfgClock, cfgEnable]
  | rdlvl => obtain ⟨_, rfl⟩ := exec_rdlvl_next.1 h; simp [readLevel_state]
  | wrlvl => obtain ⟨_, _, rfl⟩ := exec_wrlvl_next.1 h; simp [writeLevel]
  | trput => obtain ⟨_, rfl⟩ := exec_trput_next.1 h; simp

/-- A step takes the first scheduled word, where there is one, and leaves the others. -/
theorem step_script {s t : State} (h : step s = .next t) : t.script = s.script.tail := by
  obtain ⟨r, rest, i, hs, _, hx⟩ | ⟨hs, i, _, hx⟩ := step_cases h
  · simp [exec_script hx, hs]
  · simp [exec_script hx, hs]

/-- Settles O39: the words scheduled after a step are among those scheduled before it. -/
theorem stepKeepsOperationsOnly : Obligations.StepKeepsOperationsOnly := by
  intro s t hs h r hr
  rw [step_script h] at hr
  exact hs r (List.mem_of_mem_tail hr)

end Sys2Proof.Machine
end

section
/-! What a step takes (log 6): an operation of the interface its word stands on, or one of an agent, in a state that differs in the
schedule only. -/

namespace Sys2Proof.Machine

@[simp] theorem commitVariant_iface (sb db : Bit) : (commitVariant sb db).iface = .s := by cases sb <;> cases db <;> rfl

@[simp] theorem edgeVariant_iface (sb db : Bit) : (edgeVariant sb db).iface = .s := by cases db <;> rfl

/-- A word decodes to an operation of the interface it stands on (R57). -/
theorem decode_iface {p : Params} {f : Iface} {w : Byte} {i : Instr} (h : decode p f w = .ok i) : i.iface = f := by
  cases f with
  | s =>
    simp only [decode, decodeS] at h
    split_ifs at h <;> cases h
    any_goals rfl
    · exact commitVariant_iface _ _
    · exact edgeVariant_iface _ _
  | p =>
    simp only [decode, decodeP] at h
    repeat' split at h
    all_goals cases h <;> rfl
  | t =>
    simp only [decode, decodeT] at h
    split at h <;> cases h
    rfl
  | e =>
    simp only [decode, decodeE] at h
    repeat' split at h
    all_goals cases h <;> rfl

theorem isOperation_iff {i : Instr} : i.isOperation = true ↔ i.iface = .s ∨ i.iface = .e := by
  simp [Instr.isOperation]

theorem isOperation_of_byModeController {i : Instr} (h : i.byModeController = true) : i.isOperation = true := by
  cases i <;> simp_all [Instr.byModeController, Instr.isOperation, Instr.iface]

theorem isOperation_of_envInstr (e : EnvAct) : (envInstr e).isOperation = true := by cases e <;> rfl

theorem blockNext_isOperation {s : State} {i : Instr} (h : blockNext s = some i) : i.isOperation = true := by
  unfold blockNext at h
  split at h
  · exact isOperation_of_byModeController (mcNext_byModeController h)
  · cases h; rfl

/-- The free schedule's operations are agents' operations (R29, R100). -/
theorem chosen_isOperation {a : Agent} {e : EnvAct} {s : State} {i : Instr} (h : chosen a e s = some i) :
    i.isOperation = true := by
  cases a with
  | environment => cases h; exact isOperation_of_envInstr e
  | modeController => exact blockNext_isOperation h
  | edgeHandler =>
    obtain h | ⟨_, h⟩ := Option.or_eq_some_iff.1 h
    · unfold ehNext at h
      split at h
      · cases h; exact isOperation_iff.2 (.inl (edgeVariant_iface _ _))
      · cases h
    · exact blockNext_isOperation h

/-- A step of a program of agents' operations takes an agent's operation. -/
theorem fetch_isOperation {s u : State} {i : Instr} (hs : s.operationsOnly) (h : fetch s = .ok (i, u)) :
    i.isOperation = true := by
  unfold fetch at h
  split at h
  next r rest hscript =>
    split at h
    next j hd =>
      cases h
      exact isOperation_iff.2 (decode_iface hd ▸ hs r (by simp [hscript]))
    next => cases h
  next =>
    split at h
    next j hj => cases h; exact chosen_isOperation hj
    next => cases h

/-- What the fetch leaves: all but the schedule. -/
theorem fetch_state {s u : State} {i : Instr} (h : fetch s = .ok (i, u)) :
    ∃ script ticks, u = { s with script := script, ticks := ticks } := by
  unfold fetch at h
  split at h <;> split at h <;> cases h
  · exact ⟨_, s.ticks, rfl⟩
  · exact ⟨s.script, _, rfl⟩

end Sys2Proof.Machine
end

section
/-! Reading the bus: what a service of sense leaves, and the draws it takes on lines that nothing drives (10_state.md R24;
log 5). -/

namespace Sys2Proof.Machine

/-- EH.R's body (R77) through the sample of the bus it takes. -/
theorem handleRead_eq_sampleBus (s : State) :
    handleRead s =
      { s with
        draws := (sampleBus s).2.draws, gpio := (sampleBus s).2.gpio
        trace := s.trace ++ traceLine s.params.nl (sampleBus s).1 .r } := by
  obtain ⟨n, calls, h⟩ := sampleBus_state s
  simp [handleRead, putLine_eq, h]

@[simp] theorem interruptEntry_level (s : State) (ln : Line) : (interruptEntry s).level ln = s.level ln := by
  simp [interruptEntry]

/-- Every line that is a draw takes one. -/
theorem readLines_draws_of_draws {s : State} (is : List (Fin 8)) (acc : Lines Level)
    (h : ∀ i : Fin 8, s.level (.bus i) = none) : (readLines is acc s).2.draws = s.draws + is.length := by
  induction is generalizing acc s with
  | nil => rfl
  | cons i is ih =>
    simp only [readLines]
    rw [ih _ (by simpa using h), readLevel_of_draw (h i), List.length_cons]
    simp only [State.addCall_draws, State.nextDraw_draws]
    omega

/-- The line read at place `k` has the `k`-th draw as entry, where every line is a draw. -/
theorem readLines_get_of_draws {s : State} {is : List (Fin 8)} {acc : Lines Level} {k : Nat} {j : Fin 8} (hn : is.Nodup)
    (h : ∀ i : Fin 8, s.level (.bus i) = none) (hk : is[k]? = some j) :
    (readLines is acc s).1.get j = Config.freeBit (s.draws + k) := by
  induction is generalizing acc s k with
  | nil => simp at hk
  | cons i is ih =>
    obtain ⟨hi, hn⟩ := List.nodup_cons.1 hn
    cases k with
    | zero =>
      obtain rfl : i = j := by simpa using hk
      simp [readLines, readLines_get_of_not_mem hi, readLevel_of_draw (h i)]
    | succ k =>
      simp only [readLines]
      rw [ih hn (by simpa using h) (by simpa using hk), readLevel_of_draw (h i)]
      simp only [State.addCall_draws, State.nextDraw_draws]
      congr 1
      omega

/-- A bus of draws is sampled as eight fresh draws, the `i`-th on `L[i]` (R24, R77). -/
theorem sampleBus_of_draws {s : State} (h : ∀ i : Fin 8, s.level (.bus i) = none) :
    (sampleBus s).2.draws = s.draws + 8 ∧ ∀ i : Fin 8, busBit (sampleBus s).1 i = Config.freeBit (s.draws + i.val) := by
  refine ⟨readLines_draws_of_draws busOrder (Lines.fill false) h, fun i => ?_⟩
  simp only [sampleBus, busBit_byteOfLines]
  exact readLines_get_of_draws (by decide) h (by revert i; decide)

/-- An input line that nothing drives floats: its level is a draw (R24). -/
theorem level_bus_of_floating {s : State} {i : Fin 8} (hm : s.mode.get i = .input) (hx : s.xBus.get i = .z) :
    s.level (.bus i) = none := by
  simp [State.level, hm, hx, busLevel]

/-- Settles O11: the bus is still as it was at the edge, so all eight lines float when the service samples them. -/
theorem floatingBusIsSampledAsFreshDraws : Obligations.FloatingBusIsSampledAsFreshDraws := by
  intro s x hinv hheld hdir hfloat
  obtain ⟨hrun, hpend, hx⟩ := hinv x hheld
  have hlevel (i : Fin 8) : (interruptEntry s).level (.bus i) = none := by
    obtain ⟨hm, hz⟩ := hfloat i
    rw [interruptEntry_level]
    exact level_bus_of_floating hm (hx ▸ hz)
  obtain ⟨hdraws, hbits⟩ := sampleBus_of_draws hlevel
  refine ⟨(sampleBus (interruptEntry s)).1, _, exec_ehR_next.2 ⟨⟨hrun, hpend, hdir, rfl⟩, rfl⟩, ?_, ?_, hbits⟩
  · rw [handleRead_eq_sampleBus]; rfl
  · rw [handleRead_eq_sampleBus]; exact hdraws

/-- Settles O15: the branches of the level, and each read of a draw advancing the counter of draws by one. -/
theorem levelOfEachLine : Obligations.LevelOfEachLine := by
  intro s
  refine ⟨fun i => ⟨?_, ?_, ?_, ?_, ?_, level_bus_of_floating⟩, rfl, ?_, ?_, ?_, ?_, ?_⟩
  · intro hm hx; simp [State.level, busLevel, hm, hx]
  · intro hm hx; cases ho : s.olat.get i <;> simp [State.level, busLevel, hm, hx, ho]
  · intro hm hx; cases ho : s.olat.get i <;> simp [State.level, busLevel, hm, hx, ho]
  · intro hm hx; simp [State.level, busLevel, hm, hx]
  · intro hm hx; simp [State.level, busLevel, hm, hx]
  · intro hx; simp [State.level, enableLevel, hx]
  · intro hx; simp [State.level, enableLevel, hx]
  · intro hx hp; simp [State.level, enableLevel, hx, hp]
  · intro hx hp; simp [State.level, enableLevel, hx, hp]
  · intro ln hln hdraw
    have hdraw' : (readLevel ln s).2.level ln = none := by rw [readLevel_level, hdraw]
    rw [execAll_cons (exec_rdlvl_next.2 ⟨hln, rfl⟩), execAll_cons (exec_rdlvl_next.2 ⟨hln, rfl⟩), execAll_nil,
      readLevel_of_draw hdraw', readLevel_of_draw hdraw]
    simp [State.addCall, State.nextDraw]

end Sys2Proof.Machine
end

section
/-! The frame of every operation, and what it says of the launch parameters (10_state.md R26, R29). -/

namespace Sys2Proof.Machine

/-- Settles O31, operation by operation: each leaves what its equation does not write. -/
theorem everyElementHasItsWritersOnly : Obligations.EveryElementHasItsWritersOnly := by
  intro i s t h
  cases i with
  | init => obtain ⟨_, rfl⟩ := exec_init_next.1 h; simp [startUp_eq]
  | mcSample => obtain ⟨_, rfl⟩ := exec_mcSample_next.1 h; simp [takeSample_eq, Instr.byModeController]
  | mcCommitNopSense => obtain ⟨_, rfl⟩ := exec_mcCommitNopSense_next.1 h; simp [Instr.byModeController]
  | mcCommitNopDrive => obtain ⟨_, rfl⟩ := exec_mcCommitNopDrive_next.1 h; simp [Instr.byModeController]
  | mcCommitDrv => obtain ⟨_, rfl⟩ := exec_mcCommitDrv_next.1 h; simp [commitTurn_eq, Instr.byModeController]
  | mcCommitSns => obtain ⟨_, rfl⟩ := exec_mcCommitSns_next.1 h; simp [commitTurn_eq, Instr.byModeController]
  | ehR => obtain ⟨_, rfl⟩ := exec_ehR_next.1 h; simp [handleRead_eq_sampleBus, interruptEntry, Instr.byEdgeHandler]
  | ehW => obtain ⟨_, rfl⟩ := exec_ehW_next.1 h; simp [handleWrite_eq, interruptEntry, Instr.byEdgeHandler]
  | mcCfg => obtain ⟨_, _, rfl⟩ := exec_mcCfg_next.1 h; simp [turnOneLine_eq, Instr.byModeController]
  | mcFlag => obtain ⟨_, _, rfl⟩ := exec_mcFlag_next.1 h; simp [commitFlag, Instr.byModeController]
  | cfgdir =>
    obtain ⟨_, _, rfl, rfl, rfl⟩ | ⟨rfl, rfl, rfl⟩ | ⟨rfl, rfl, rfl⟩ := exec_cfgdir_next.1 h <;>
      simp [cfgBus, cfgClock, cfgEnable]
  | rdlvl => obtain ⟨_, rfl⟩ := exec_rdlvl_next.1 h; simp [readLevel_state]
  | wrlvl => obtain ⟨_, rfl, rfl⟩ := exec_wrlvl_next.1 h; simp [writeLevel]
  | trput => obtain ⟨_, rfl⟩ := exec_trput_next.1 h; simp
  | envSet =>
    obtain ⟨_, rfl, rfl⟩ | ⟨rfl, rfl⟩ | ⟨rfl, rfl, e⟩ | ⟨rfl, rfl, e⟩ := exec_envSet_next.1 h
    · simp [setBusLine_eq]
    · simp
    all_goals obtain ⟨_, _, _, _, rfl⟩ | ⟨_, rfl⟩ := setClock_cases e <;> simp

/-- Settles O35: neither the fetch nor an operation writes the parameters. -/
theorem stepKeepsParameters : Obligations.StepKeepsParameters := by
  intro s t h
  obtain ⟨i, u, hf, hx⟩ := step_next_iff.1 h
  obtain ⟨_, _, rfl⟩ := fetch_state hf
  obtain ⟨-, -, -, -, -, -, -, -, -, -, -, hparams, -⟩ := everyElementHasItsWritersOnly i _ t hx
  exact hparams

end Sys2Proof.Machine
end

section
/-! The trace (10_state.md R22): who appends to it, and that nothing reads it. -/

namespace Sys2Proof.Machine

/-! ### The bytes an operation appends -/

theorem exec_init_trace {sb db : Bit} {s t : State} (h : exec (.init sb db) s = .next t) :
    t.trace = s.trace ++ bannerLine s.params.nl := by
  obtain ⟨_, rfl⟩ := exec_init_next.1 h
  simp [startUp_eq]

theorem exec_byEdgeHandler_trace {i : Instr} {s t : State} (hi : i.byEdgeHandler = true) (h : exec i s = .next t) :
    ∃ v tag, t.trace = s.trace ++ traceLine s.params.nl v tag := by
  cases i with
  | ehR sb => obtain ⟨_, rfl⟩ := exec_ehR_next.1 h; exact ⟨_, .r, by rw [handleRead_eq_sampleBus]; rfl⟩
  | ehW sb => obtain ⟨_, rfl⟩ := exec_ehW_next.1 h; exact ⟨_, .w, by rw [handleWrite_eq]; rfl⟩
  | _ => simp [Instr.byEdgeHandler] at hi

/-- Every other operation but a bare TRPUT leaves the trace alone (R26). -/
theorem exec_trace_of_not_writer {i : Instr} {s t : State} (hinit : ∀ a b, i ≠ .init a b) (heh : i.byEdgeHandler = false)
    (hput : ∀ b, i ≠ .trput b) (h : exec i s = .next t) : t.trace = s.trace := by
  obtain ⟨-, -, -, -, -, -, -, -, -, htrace, -⟩ := everyElementHasItsWritersOnly i s t h
  exact htrace hinit heh hput

/-! ### Nothing reads the trace -/

theorem readLevel_withTrace (ln : Line) (s : State) (trace : List Byte) :
    readLevel ln { s with trace := trace } = ((readLevel ln s).1, { (readLevel ln s).2 with trace := trace }) := by
  have e : State.level { s with trace := trace } ln = s.level ln := by cases ln <;> rfl
  simp only [readLevel, e]
  cases s.level ln <;> rfl

theorem drawsOf_withTrace (ln : Line) (s : State) (trace : List Byte) : drawsOf { s with trace := trace } ln = drawsOf s ln := by
  cases ln <;> rfl

theorem sampleBus_withTrace (s : State) (trace : List Byte) :
    sampleBus { s with trace := trace } = ((sampleBus s).1, { (sampleBus s).2 with trace := trace }) := by
  obtain ⟨n, calls, h⟩ := sampleBus_state s
  have := readLines_with busOrder (Lines.fill false) s s.xEn trace
  simp only [sampleBus] at h ⊢
  simp [this, h]

theorem setClock_withTrace {b : Level} {s t : State} (trace : List Byte) (h : setClock b s = .next t) :
    setClock b { s with trace := trace } = .next { t with trace := trace } := by
  simp only [setClock] at h ⊢
  split_ifs at h ⊢ <;> cases h <;> rfl

/-- Whatever the trace was, an operation appends the same bytes and leaves the same state besides (R22). -/
theorem exec_withTrace {i : Instr} {s t : State} (h : exec i s = .next t) :
    ∃ added, ∀ trace, exec i { s with trace := trace } = .next { t with trace := trace ++ added } := by
  cases i with
  | init =>
    obtain ⟨g, rfl⟩ := exec_init_next.1 h
    exact ⟨bannerLine s.params.nl, fun trace => exec_init_next.2 ⟨g, by simp [startUp_eq]⟩⟩
  | ehR =>
    obtain ⟨g, rfl⟩ := exec_ehR_next.1 h
    refine ⟨traceLine s.params.nl (sampleBus (interruptEntry s)).1 .r, fun trace => exec_ehR_next.2 ⟨g, ?_⟩⟩
    have hsample := sampleBus_withTrace (interruptEntry s) trace
    simp only [interruptEntry_eq] at hsample
    simp [handleRead_eq_sampleBus, interruptEntry_eq, hsample]
  | ehW =>
    obtain ⟨g, rfl⟩ := exec_ehW_next.1 h
    exact ⟨traceLine s.params.nl (s.cnt + 1) .w, fun trace =>
      exec_ehW_next.2 ⟨g, by simp [handleWrite_eq, interruptEntry_eq]⟩⟩
  | trput b =>
    obtain ⟨g, rfl⟩ := exec_trput_next.1 h
    exact ⟨[b], fun trace => exec_trput_next.2 ⟨g, rfl⟩⟩
  | mcSample =>
    obtain ⟨g, rfl⟩ := exec_mcSample_next.1 h
    refine ⟨[], fun trace => exec_mcSample_next.2 ⟨g, ?_⟩⟩
    simp [takeSample_eq, readLevel_withTrace, drawsOf_withTrace]
  | mcCommitNopSense =>
    obtain ⟨g, rfl⟩ := exec_mcCommitNopSense_next.1 h
    exact ⟨[], fun trace => exec_mcCommitNopSense_next.2 ⟨g, by simp [State.setMcs]⟩⟩
  | mcCommitNopDrive =>
    obtain ⟨g, rfl⟩ := exec_mcCommitNopDrive_next.1 h
    exact ⟨[], fun trace => exec_mcCommitNopDrive_next.2 ⟨g, by simp [State.setMcs]⟩⟩
  | mcCommitDrv =>
    obtain ⟨g, rfl⟩ := exec_mcCommitDrv_next.1 h
    exact ⟨[], fun trace => exec_mcCommitDrv_next.2 ⟨g, by simp [commitTurn_eq]⟩⟩
  | mcCommitSns =>
    obtain ⟨g, rfl⟩ := exec_mcCommitSns_next.1 h
    exact ⟨[], fun trace => exec_mcCommitSns_next.2 ⟨g, by simp [commitTurn_eq]⟩⟩
  | mcCfg =>
    obtain ⟨hp, g, rfl⟩ := exec_mcCfg_next.1 h
    exact ⟨[], fun trace => exec_mcCfg_next.2 ⟨hp, g, by simp [turnOneLine_eq]⟩⟩
  | mcFlag =>
    obtain ⟨hp, g, rfl⟩ := exec_mcFlag_next.1 h
    exact ⟨[], fun trace => exec_mcFlag_next.2 ⟨hp, g, by simp [commitFlag, State.setDir, State.setMcs]⟩⟩
  | cfgdir =>
    obtain ⟨i, d, rfl, rfl, rfl⟩ | ⟨rfl, rfl, rfl⟩ | ⟨rfl, rfl, rfl⟩ := exec_cfgdir_next.1 h
    · exact ⟨[], fun trace => exec_cfgdir_next.2 (.inl ⟨i, d, rfl, rfl, by simp [cfgBus, State.setMode, State.addCall]⟩)⟩
    · exact ⟨[], fun trace => exec_cfgdir_next.2 (.inr (.inl ⟨rfl, rfl, by simp [cfgClock, State.addCall]⟩))⟩
    · exact ⟨[], fun trace => exec_cfgdir_next.2 (.inr (.inr ⟨rfl, rfl, by simp [cfgEnable, State.setEnpu, State.addCall]⟩))⟩
  | rdlvl =>
    obtain ⟨g, rfl⟩ := exec_rdlvl_next.1 h
    exact ⟨[], fun trace => exec_rdlvl_next.2 ⟨g, by simp [readLevel_withTrace]⟩⟩
  | wrlvl =>
    obtain ⟨i, rfl, rfl⟩ := exec_wrlvl_next.1 h
    exact ⟨[], fun trace => exec_wrlvl_next.2 ⟨i, rfl, by simp [writeLevel, State.setOlat, State.addCall]⟩⟩
  | envSet =>
    refine ⟨[], fun trace => exec_envSet_next.2 ?_⟩
    obtain ⟨i, rfl, rfl⟩ | ⟨rfl, rfl⟩ | ⟨rfl, rfl, e⟩ | ⟨rfl, rfl, e⟩ := exec_envSet_next.1 h
    · exact .inl ⟨i, rfl, by simp [setBusLine_eq]⟩
    · exact .inr (.inl ⟨rfl, by simp [State.setXEn]⟩)
    · exact .inr (.inr (.inl ⟨rfl, rfl, by simpa using setClock_withTrace trace e⟩))
    · exact .inr (.inr (.inr ⟨rfl, rfl, by simpa using setClock_withTrace trace e⟩))

/-- Those bytes are the ones the operation appends to the trace it finds (R22). -/
theorem exec_appends {i : Instr} {s t : State} (h : exec i s = .next t) :
    ∃ added, t.trace = s.trace ++ added ∧
      ∀ trace, exec i { s with trace := trace } = .next { t with trace := trace ++ added } := by
  obtain ⟨added, hadded⟩ := exec_withTrace h
  exact ⟨added, congrArg State.trace (Host.Outcome.next.inj (h.symm.trans (hadded s.trace))), hadded⟩

/-- Settles O34: `exec_appends` gives the bytes appended, the laws of each operation's trace say which they are. -/
theorem traceOnlyGrows : Obligations.TraceOnlyGrows := by
  refine ⟨rfl, fun s t h => ?_, fun i s t hi h => ⟨?_, fun heh => exec_byEdgeHandler_trace heh h, fun hinit heh => ?_, ?_⟩⟩
  · obtain ⟨i, u, hf, hx⟩ := step_next_iff.1 h
    obtain ⟨_, _, rfl⟩ := fetch_state hf
    obtain ⟨added, htrace, _⟩ := exec_appends hx
    exact ⟨added, htrace⟩
  · rintro ⟨a, b, rfl⟩
    exact exec_init_trace h
  · exact exec_trace_of_not_writer hinit heh (by rintro b rfl; simp [Instr.isOperation, Instr.iface] at hi) h
  · obtain ⟨added, htrace, hadded⟩ := exec_appends h
    simpa [htrace] using hadded

end Sys2Proof.Machine
end

section
/-! The directions along a step (10_state.md R25). -/

namespace Sys2Proof.Machine

/-- Outside `Cfg(s, k)` the directions agree when every line has the direction of the flag (R25). -/
theorem directionsAgree_iff_of_not_cfg {s : State} (hm : ∀ sb k, s.mcs ≠ .cfg sb k) :
    s.directionsAgree ↔ ∀ i : Fin 8, s.mode.get i = pinDirOf s.dir := by
  unfold State.directionsAgree
  cases hs : s.mcs with
  | idle => exact Iff.rfl
  | sampled sb => exact Iff.rfl
  | cfg sb k => exact absurd hs (hm sb k)

/-- In `Cfg(s, k)`, which is of `per_line` only, the first `k` lines have the new direction and the rest the old (R25). -/
theorem directionsAgree_iff_of_cfg {s : State} {sb : Bit} {k : Nat} (hs : s.mcs = .cfg sb k) :
    s.directionsAgree ↔ s.params.granularity = .perLine ∧ 1 ≤ k ∧ k ≤ 8 ∧ sb ≠ s.dir ∧
      ∀ i : Fin 8, s.mode.get i = pinDirOf (if i.val < k then sb else s.dir) := by
  unfold State.directionsAgree
  rw [hs]

/-- Settles O41: outside `Cfg(s, k)` the one direction of the lines is the flag's, and `group` has no `Cfg(s, k)`. -/
theorem directionInvariantGivesInv1AndInv2 : Obligations.DirectionInvariantGivesInv1AndInv2 := by
  intro s hr hi hw
  obtain ⟨ha, _⟩ := hi hr
  have hm : ∀ sb k, s.mcs ≠ .cfg sb k := by
    obtain hg | hm := hw
    · intro sb k hs
      obtain ⟨hp, _⟩ := (directionsAgree_iff_of_cfg hs).1 ha
      simp [hg] at hp
    · exact hm
  have hall := (directionsAgree_iff_of_not_cfg hm).1 ha
  exact ⟨fun i j => by rw [hall i, hall j], by simp [hall], by simp [hall]⟩

/-- The invariant of the directions reads these elements only. -/
theorem directionInv_congr {s t : State} (hrun : t.run = s.run) (hdir : t.dir = s.dir) (hmode : t.mode = s.mode)
    (henpu : t.enpu = s.enpu) (hmcs : t.mcs = s.mcs) (hparams : t.params = s.params) : t.directionInv ↔ s.directionInv := by
  simp only [State.directionInv, State.directionsAgree, hrun, hdir, hmode, henpu, hmcs, hparams]

/-- INIT leaves all lines inputs, the flag 0 and the pull-up on (R28). -/
theorem startUp_directionInv (s : State) : (startUp s).directionInv := by
  rw [startUp_eq]
  exact fun _ => ⟨by simp [State.directionsAgree, pinDirOf], rfl⟩

/-- A commit of the whole bus leaves every line with the direction of the flag (R70, R71). -/
theorem commitTurn_directionsAgree (d : Bit) (s : State) : (commitTurn d s).directionsAgree := by
  rw [commitTurn_eq]
  simp [State.directionsAgree]

/-- MC.CFG on the line after those turned turns one more (R72). -/
theorem turnOneLine_directionsAgree {s : State} {ln : Fin 8} {sb : Bit} (hp : s.params.granularity = .perLine)
    (hsb : sb ≠ s.dir) (hmode : ∀ i : Fin 8, s.mode.get i = pinDirOf (if i.val < ln.val then sb else s.dir)) :
    (turnOneLine ln sb s).directionsAgree := by
  rw [turnOneLine_eq, directionsAgree_iff_of_cfg rfl]
  refine ⟨hp, by omega, by omega, hsb, fun i => ?_⟩
  simp only [Lines.get_set]
  by_cases hi : i = ln
  · simp [hi]
  · have : i.val < ln.val + 1 ↔ i.val < ln.val := by omega
    simp only [if_neg hi, hmode i, this]

/-- An operation of the Mode Controller keeps the directions as R25 says. -/
theorem exec_byModeController_directionsAgree {i : Instr} {s t : State} (hi : i.byModeController = true)
    (ha : s.directionsAgree) (h : exec i s = .next t) : t.directionsAgree := by
  cases i with
  | mcSample a b =>
    obtain ⟨⟨_, hm, _, _⟩, rfl⟩ := exec_mcSample_next.1 h
    rw [directionsAgree_iff_of_not_cfg (by simp [hm])] at ha
    simpa [takeSample_eq, State.directionsAgree] using ha
  | mcCommitNopSense =>
    obtain ⟨⟨_, hm, _⟩, rfl⟩ := exec_mcCommitNopSense_next.1 h
    rw [directionsAgree_iff_of_not_cfg (by simp [hm])] at ha
    exact ha
  | mcCommitNopDrive =>
    obtain ⟨⟨_, hm, _⟩, rfl⟩ := exec_mcCommitNopDrive_next.1 h
    rw [directionsAgree_iff_of_not_cfg (by simp [hm])] at ha
    exact ha
  | mcCommitDrv => obtain ⟨_, rfl⟩ := exec_mcCommitDrv_next.1 h; exact commitTurn_directionsAgree true s
  | mcCommitSns => obtain ⟨_, rfl⟩ := exec_mcCommitSns_next.1 h; exact commitTurn_directionsAgree false s
  | mcCfg ln sb db =>
    obtain ⟨hp, ⟨_, _, ⟨hm, hsb, rfl⟩ | ⟨hm, _⟩⟩, rfl⟩ := exec_mcCfg_next.1 h
    · rw [directionsAgree_iff_of_not_cfg (by simp [hm])] at ha
      exact turnOneLine_directionsAgree hp hsb (by simpa using ha)
    · obtain ⟨_, _, _, hsb, hmode⟩ := (directionsAgree_iff_of_cfg hm).1 ha
      exact turnOneLine_directionsAgree hp hsb hmode
  | mcFlag sb db =>
    obtain ⟨_, ⟨_, hm, _⟩, rfl⟩ := exec_mcFlag_next.1 h
    obtain ⟨_, _, _, _, hmode⟩ := (directionsAgree_iff_of_cfg hm).1 ha
    intro i
    simpa [commitFlag, i.isLt] using hmode i
  | _ => simp [Instr.byModeController] at hi

/-- An agent's operation keeps the invariant of the directions (R25). -/
theorem exec_directionInv {i : Instr} {s t : State} (hi : i.isOperation = true) (hinv : s.directionInv)
    (h : exec i s = .next t) : t.directionInv := by
  obtain ⟨hrun, hdir, -, hmode, -, henpu, -, -, hmcs, -, -, hparams, -⟩ := everyElementHasItsWritersOnly i s t h
  have hcfgdir : ∀ l m, i ≠ .cfgdir l m := by rintro l m rfl; simp [Instr.isOperation, Instr.iface] at hi
  by_cases hinit : ∃ a b, i = .init a b
  · obtain ⟨a, b, rfl⟩ := hinit
    obtain ⟨_, rfl⟩ := exec_init_next.1 h
    exact startUp_directionInv s
  · simp only [not_exists] at hinit
    cases hmc : i.byModeController with
    | true =>
      intro hr
      obtain ⟨ha, hp⟩ := hinv ((hrun hinit).symm.trans hr)
      exact ⟨exec_byModeController_directionsAgree hmc ha h, (henpu hinit hcfgdir).trans hp⟩
    | false =>
      have hne {j : Instr} (hj : j.byModeController = true) : i ≠ j := by rintro rfl; simp [hmc] at hj
      exact (directionInv_congr (hrun hinit) (hdir hinit (hne rfl) (hne rfl) fun _ _ => hne rfl)
        (hmode hinit (hne rfl) (hne rfl) (fun _ _ _ => hne rfl) hcfgdir) (henpu hinit hcfgdir) (hmcs hinit hmc) hparams).2 hinv

/-- Settles O40: the fetch takes an agent's operation, and that keeps the invariant. -/
theorem stepKeepsDirections : Obligations.StepKeepsDirections := by
  intro s t hops hinv h
  obtain ⟨i, u, hf, hx⟩ := step_next_iff.1 h
  have hi := fetch_isOperation hops hf
  obtain ⟨_, _, rfl⟩ := fetch_state hf
  refine exec_directionInv hi ?_ hx
  exact (directionInv_congr rfl rfl rfl rfl rfl rfl).2 hinv

end Sys2Proof.Machine
end

section
/-! Progress of the free schedule (20_memory.md R47, 60_exceptions.md R106; log 6): each agent named has an operation, and of
these only a rising clock edge while one is pending is refused. -/

namespace Sys2Proof.Machine

/-- A commit is enabled where nothing changes, and under `group` always (R69 to R71). -/
theorem exec_commitVariant_exists {s : State} {sb : Bit} (hr : s.run = true) (hm : s.mcs = .sampled sb)
    (h : sb = s.dir ∨ s.params.granularity = .group) : ∃ t, exec (commitVariant sb s.dir) s = .next t := by
  cases hd : s.dir <;> cases sb
  · exact ⟨_, exec_mcCommitNopSense_next.2 ⟨⟨hr, hm, hd⟩, rfl⟩⟩
  · exact ⟨_, exec_mcCommitDrv_next.2 ⟨⟨hr, hm, hd, by simpa [hd] using h⟩, rfl⟩⟩
  · exact ⟨_, exec_mcCommitSns_next.2 ⟨⟨hr, hm, hd, by simpa [hd] using h⟩, rfl⟩⟩
  · exact ⟨_, exec_mcCommitNopDrive_next.2 ⟨⟨hr, hm, hd⟩, rfl⟩⟩

/-- Where the directions agree, the control state names an operation of the Mode Controller, and it is enabled (R65). -/
theorem mcNext_progress {s : State} (hr : s.run = true) (ha : s.directionsAgree) :
    ∃ i t, mcNext s = some i ∧ exec i s = .next t := by
  simp only [mcNext, hr]
  cases hm : s.mcs with
  | idle => exact ⟨_, _, rfl, exec_mcSample_next.2 ⟨⟨hr, hm, by simp [State.held, hm], rfl⟩, rfl⟩⟩
  | sampled sb =>
    by_cases hsb : sb = s.dir
    · obtain ⟨t, h⟩ := exec_commitVariant_exists hr hm (.inl hsb)
      exact ⟨_, t, by simp [hsb], h⟩
    · cases hg : s.params.granularity with
      | group =>
        obtain ⟨t, h⟩ := exec_commitVariant_exists hr hm (.inr hg)
        exact ⟨_, t, by simp [hsb], h⟩
      | perLine => exact ⟨.mcCfg 0 sb s.dir, _, by simp [hsb], exec_mcCfg_next.2 ⟨hg, ⟨hr, rfl, .inl ⟨hm, hsb, rfl⟩⟩, rfl⟩⟩
  | cfg sb k =>
    obtain ⟨hg, hk1, hk8, _, _⟩ := (directionsAgree_iff_of_cfg hm).1 ha
    by_cases hk : k = 8
    · subst hk
      exact ⟨.mcFlag sb s.dir, _, by simp [hg], exec_mcFlag_next.2 ⟨hg, ⟨hr, hm, rfl⟩, rfl⟩⟩
    · have hlt : k < 8 := by omega
      exact ⟨.mcCfg ⟨k, hlt⟩ sb s.dir, _, by simp [hg, hk, hk1, hlt], exec_mcCfg_next.2 ⟨hg, ⟨hr, rfl, .inr ⟨hm, hk1⟩⟩, rfl⟩⟩

/-- The block always has an operation for MC's turn: INIT before start-up, then the Mode Controller's (R12, R113). -/
theorem blockNext_progress {s : State} (hinv : s.directionInv) : ∃ i t, blockNext s = some i ∧ exec i s = .next t := by
  unfold blockNext
  cases hr : s.run with
  | false => exact ⟨_, _, rfl, exec_init_next.2 ⟨hr, rfl⟩⟩
  | true =>
    obtain ⟨ha, _⟩ := hinv hr
    exact mcNext_progress hr ha

/-- The operation a pending edge names is enabled (R75). -/
theorem ehNext_enabled {s : State} {i : Instr} (h : ehNext s = some i) : ∃ t, exec i s = .next t := by
  obtain ⟨⟨hr, hp⟩, rfl⟩ : (s.run = true ∧ s.pend = true) ∧ edgeVariant s.held s.dir = i := by simpa [ehNext] using h
  cases hd : s.dir
  · exact ⟨_, exec_ehR_next.2 ⟨⟨hr, hp, hd, rfl⟩, rfl⟩⟩
  · exact ⟨_, exec_ehW_next.2 ⟨⟨hr, hp, hd, rfl⟩, rfl⟩⟩

/-- The clock is refused a new level only for a rising edge while one is pending (R105). -/
theorem setClock_exists {b : Level} {s : State} (h : ¬ (s.run = true ∧ s.xClk = false ∧ b = true ∧ s.pend = true)) :
    ∃ t, setClock b s = .next t := by
  unfold setClock risingEdge
  split_ifs with hedge hpend
  · simp only [Bool.and_eq_true, Bool.not_eq_true'] at hedge
    obtain ⟨hr, hclk, hb⟩ := hedge
    exact absurd ⟨hr, hclk, hb, hpend⟩ h
  · exact ⟨_, rfl⟩
  · exact ⟨_, rfl⟩

/-- An act of the environment that keeps EO1 completes (R90, R93). -/
theorem exec_envInstr_exists {e : EnvAct} {s : State} (h : edgeSpaced (envInstr e) s) : ∃ t, exec (envInstr e) s = .next t := by
  cases e with
  | bus i x => exact ⟨_, rfl⟩
  | en x => exact ⟨_, rfl⟩
  | clk high =>
    cases high with
    | false => exact setClock_exists (by simp)
    | true => exact setClock_exists fun ⟨hr, hclk, _, hp⟩ => h ⟨rfl, hr, hclk, hp⟩

/-- Whichever agent is named, an operation is chosen, and it completes while edges are spaced (R47, R100). -/
theorem chosen_progress (a : Agent) (e : EnvAct) {s : State} (hinv : s.directionInv) :
    ∃ i, chosen a e s = some i ∧ (edgeSpaced i s → ∃ t, exec i s = .next t) := by
  obtain ⟨i, t, hi, hx⟩ := blockNext_progress hinv
  cases a with
  | environment => exact ⟨_, rfl, exec_envInstr_exists⟩
  | modeController => exact ⟨i, hi, fun _ => ⟨t, hx⟩⟩
  | edgeHandler =>
    cases he : ehNext s with
    | none => exact ⟨i, by simp [chosen, he, hi], fun _ => ⟨t, hx⟩⟩
    | some j => exact ⟨j, by simp [chosen, he], fun _ => ehNext_enabled he⟩

/-- Settles O45: the count of the free schedule's steps, which the fetch advances, is read by no choice and no guard. -/
theorem freeScheduleIsNeverRefused : Obligations.FreeScheduleIsNeverRefused := by
  intro s hs hinv hspaced
  have hinv' : s.nextTick.directionInv := (directionInv_congr rfl rfl rfl rfl rfl rfl).2 hinv
  obtain ⟨i, hi, hx⟩ := chosen_progress (Config.freeAgent s.ticks) (Config.freeEnv s.ticks) hinv'
  have hi' : scheduled s = some i := hi
  simpa [step, fetch, hs, hi'] using hx (hspaced i hi')

end Sys2Proof.Machine
end

section
/-! The primitives done twice, on the tuple of R11 (20_memory.md R39). -/

namespace Sys2Proof.Machine

/-- Settles O18: the second CFGDIR or WRLVL sets what the first has set. -/
theorem primitiveSideEffects : Obligations.PrimitiveSideEffects := by
  refine fun s t u => ⟨fun ln md h h' => ?_, fun ln b h h' => ?_, fun ln h => ?_, fun b h => ?_⟩
  · obtain ⟨i, d, rfl, rfl, rfl⟩ | ⟨rfl, rfl, rfl⟩ | ⟨rfl, rfl, rfl⟩ := exec_cfgdir_next.1 h
    · cases d <;> cases h' <;> simp [State.elements, cfgBus, Lines.set_set]
    · cases h'; rfl
    · cases h'; rfl
  · obtain ⟨i, rfl, rfl⟩ := exec_wrlvl_next.1 h
    cases h'
    simp [State.elements, writeLevel, Lines.set_set]
  · obtain ⟨_, rfl⟩ := exec_rdlvl_next.1 h
    rw [readLevel_state]
    rfl
  · obtain ⟨_, rfl⟩ := exec_trput_next.1 h
    simp

end Sys2Proof.Machine
end

section
/-! The decoder on the words of the encoder (30_encoding.md R57 to R62), and the step that takes such a word. -/

namespace Sys2Proof

/-! ### The fields of a word -/

@[simp] theorem wordS_event (ev ln : BitVec 3) (sb db : Bit) : (wordS ev ln sb db).extractLsb' 5 3 = ev := by
  revert ev ln sb db; decide

@[simp] theorem wordS_line (ev ln : BitVec 3) (sb db : Bit) : (wordS ev ln sb db).extractLsb' 2 3 = ln := by
  revert ev ln sb db; decide

@[simp] theorem wordS_s (ev ln : BitVec 3) (sb db : Bit) : (wordS ev ln sb db)[1] = sb := by
  revert ev ln sb db; decide

@[simp] theorem wordS_d (ev ln : BitVec 3) (sb db : Bit) : (wordS ev ln sb db)[0] = db := by
  revert ev ln sb db; decide

/-! Formats P and E have the same three places, of two, four and two bits (R59, R61). -/

theorem extractLsb'_append_high (hi : BitVec 2) (n : BitVec 4) (lo : BitVec 2) : (hi ++ n ++ lo).extractLsb' 6 2 = hi := by
  revert hi n lo; decide

theorem extractLsb'_append_line (hi : BitVec 2) (n : BitVec 4) (lo : BitVec 2) : (hi ++ n ++ lo).extractLsb' 2 4 = n := by
  revert hi n lo; decide

theorem extractLsb'_append_low (hi : BitVec 2) (n : BitVec 4) (lo : BitVec 2) : (hi ++ n ++ lo).extractLsb' 0 2 = lo := by
  revert hi n lo; decide

@[simp] theorem wordP_primitive (pr : BitVec 2) (ln : Line) (arg : BitVec 2) : (wordP pr ln arg).extractLsb' 6 2 = pr :=
  extractLsb'_append_high _ _ _

@[simp] theorem wordP_line (pr : BitVec 2) (ln : Line) (arg : BitVec 2) :
    (wordP pr ln arg).extractLsb' 2 4 = lineIndex ln :=
  extractLsb'_append_line _ _ _

@[simp] theorem wordP_argument (pr : BitVec 2) (ln : Line) (arg : BitVec 2) : (wordP pr ln arg).extractLsb' 0 2 = arg :=
  extractLsb'_append_low _ _ _

@[simp] theorem wordE_prefix (ln : Line) (dd : BitVec 2) : (wordE ln dd).extractLsb' 6 2 = 0 :=
  extractLsb'_append_high _ _ _

@[simp] theorem wordE_line (ln : Line) (dd : BitVec 2) : (wordE ln dd).extractLsb' 2 4 = lineIndex ln :=
  extractLsb'_append_line _ _ _

@[simp] theorem wordE_drive (ln : Line) (dd : BitVec 2) : (wordE ln dd).extractLsb' 0 2 = dd :=
  extractLsb'_append_low _ _ _

/-! ### The decoder on the words of the encoder -/

/-- The line field of a legal request or act is none of the reserved ones, so the decoder goes on to the other
fields (R59, R61). -/
theorem decode_encode {p : Params} {i : Instr} (h : i.wellFormed p = true) : decode p i.iface (encode i) = .ok i := by
  cases i with
  | init | mcSample => simp [Instr.iface, encode, decode, decodeS]
  | mcCommitNopSense | mcCommitNopDrive | mcCommitDrv | mcCommitSns =>
    simp [Instr.iface, encode, decode, decodeS, commitVariant]
  | ehR | ehW => simp [Instr.iface, encode, decode, decodeS, edgeVariant]
  | mcCfg | mcFlag =>
    have hg : p.granularity = .perLine := by simpa [Instr.wellFormed] using h
    simp [Instr.iface, encode, decode, decodeS, hg]
  | cfgdir ln =>
    cases ln with
    | reserved => simp [Instr.wellFormed, legalCfg] at h
    | _ => simpa [Instr.wellFormed, Instr.iface, encode, decode, decodeP] using h
  | rdlvl ln =>
    cases ln with
    | bus | en => simp [Instr.iface, encode, decode, decodeP, legalRead]
    | clk | reserved => simp [Instr.wellFormed, legalRead] at h
  | wrlvl ln b =>
    cases ln with
    | bus => cases b <;> simp [Instr.iface, encode, decode, decodeP, legalWrite]
    | _ => simp [Instr.wellFormed, legalWrite] at h
  | trput b =>
    have hb : legalTraceByte p.nl b = true := h
    simp [Instr.iface, encode, decode, decodeT, hb]
  | envSet ln =>
    cases ln with
    | reserved => simp [Instr.wellFormed, legalEnv] at h
    | _ => simpa [Instr.wellFormed, Instr.iface, encode, decode, decodeE] using h

end Sys2Proof

namespace Sys2Proof.Machine

/-- Settles O26: the step of a word that decodes, and that an operation's own word decodes to it. -/
theorem stepRunsTheScheduledWord : Obligations.StepRunsTheScheduledWord :=
  ⟨fun _ _ _ _ hs hd => step_of_decoded hs hd, fun _ _ _ hw hs => step_of_decoded hs (decode_encode hw)⟩

end Sys2Proof.Machine
end

section
/-! The history a trace tells, along a step (30_encoding.md R56, 41_edge_handler.md R78). -/

namespace Sys2Proof.Machine

/-! ### The history with one edge more -/

/-- A serviced edge adds its line at the end of the trace (R56). -/
theorem traceOf_concat (nl : List Byte) (edges : List Edge) (e : Edge) :
    traceOf nl (edges ++ [e]) = traceOf nl edges ++ traceLine nl e.value e.tag := by
  simp [traceOf]

/-- Counting over two stretches of edges is counting over the first, then over the second (R78). -/
theorem countsTo_append {c c' : Byte} {edges more : List Edge} :
    countsTo c (edges ++ more) c' ↔ ∃ m, countsTo c edges m ∧ countsTo m more c' := by
  induction edges generalizing c with
  | nil => simp [countsTo]
  | cons e edges ih =>
    obtain ⟨v, tag⟩ := e
    cases tag with
    | w => simp [countsTo, ih, and_assoc]
    | r => simp [countsTo, ih]

/-- A service adds one line to the trace, and the counter goes over that one edge as R78 says. -/
theorem exec_byEdgeHandler_edge {i : Instr} {s t : State} (hi : i.byEdgeHandler = true) (h : exec i s = .next t) :
    ∃ e : Edge, t.trace = s.trace ++ traceLine s.params.nl e.value e.tag ∧ countsTo s.cnt [e] t.cnt := by
  cases i with
  | ehR =>
    obtain ⟨_, rfl⟩ := exec_ehR_next.1 h
    exact ⟨⟨(sampleBus (interruptEntry s)).1, .r⟩, by simp [handleRead_eq_sampleBus, interruptEntry_eq, countsTo]⟩
  | ehW =>
    obtain ⟨_, rfl⟩ := exec_ehW_next.1 h
    exact ⟨⟨s.cnt + 1, .w⟩, by simp [handleWrite_eq, interruptEntry_eq, countsTo]⟩
  | _ => simp [Instr.byEdgeHandler] at hi

/-- Only after start-up is an edge serviced (R75). -/
theorem run_of_exec_byEdgeHandler {i : Instr} {s t : State} (hi : i.byEdgeHandler = true) (h : exec i s = .next t) :
    s.run = true := by
  cases i with
  | ehR => obtain ⟨⟨hrun, _⟩, _⟩ := exec_ehR_next.1 h; exact hrun
  | ehW => obtain ⟨⟨hrun, _⟩, _⟩ := exec_ehW_next.1 h; exact hrun
  | _ => simp [Instr.byEdgeHandler] at hi

/-! ### The invariant -/

theorem traceInv_congr {s t : State} (hrun : t.run = s.run) (htrace : t.trace = s.trace) (hcnt : t.cnt = s.cnt)
    (hparams : t.params = s.params) : t.traceInv ↔ s.traceInv := by
  simp [State.traceInv, hrun, htrace, hcnt, hparams]

/-- Start-up begins the history: the banner, no edge, the counter at `CNT_INIT` (R114). -/
theorem startUp_traceInv {s : State} (htrace : s.trace = []) : (startUp s).traceInv := by
  refine ⟨fun hrun => ?_, fun _ => ⟨[], ?_⟩⟩
  · simp [startUp_eq] at hrun
  · simp [startUp_eq, htrace, traceOf, countsTo]

/-- A service adds its edge to the history (R56, R78). -/
theorem exec_byEdgeHandler_traceInv {i : Instr} {s t : State} (hi : i.byEdgeHandler = true) (hinv : s.traceInv)
    (h : exec i s = .next t) : t.traceInv := by
  have hs := run_of_exec_byEdgeHandler hi h
  obtain ⟨_, hafter⟩ := hinv
  obtain ⟨edges, htrace, hcount⟩ := hafter hs
  obtain ⟨e, hline, he⟩ := exec_byEdgeHandler_edge hi h
  obtain ⟨hrun, _⟩ := exec_byEdgeHandler hi h
  obtain ⟨-, -, -, -, -, -, -, -, -, -, -, hparams, -⟩ := everyElementHasItsWritersOnly i s t h
  refine ⟨fun ht => ?_, fun _ => ⟨edges ++ [e], ?_, ?_⟩⟩
  · simp [hrun, hs] at ht
  · rw [hline, htrace, hparams, traceOf_concat]
  · rw [hparams]
    exact countsTo_append.2 ⟨_, hcount, he⟩

/-- An agent's operation keeps the history: INIT begins it, a service adds to it, the others write nothing it speaks of. -/
theorem exec_traceInv {i : Instr} {s t : State} (hi : i.isOperation = true) (hinv : s.traceInv) (h : exec i s = .next t) :
    t.traceInv := by
  by_cases hinit : ∃ a b, i = .init a b
  · obtain ⟨a, b, rfl⟩ := hinit
    obtain ⟨hrun, rfl⟩ := exec_init_next.1 h
    obtain ⟨hbefore, _⟩ := hinv
    exact startUp_traceInv (hbefore hrun)
  cases heh : i.byEdgeHandler with
  | true => exact exec_byEdgeHandler_traceInv heh hinv h
  | false =>
    simp only [not_exists] at hinit
    have hput : ∀ b, i ≠ .trput b := by rintro b rfl; simp [Instr.isOperation, Instr.iface] at hi
    have hehW : ∀ a, i ≠ .ehW a := by rintro a rfl; simp [Instr.byEdgeHandler] at heh
    obtain ⟨hrun, -, hcnt, -, -, -, -, -, -, htrace, -, hparams, -⟩ := everyElementHasItsWritersOnly i s t h
    exact (traceInv_congr (hrun hinit) (htrace hinit heh hput) (hcnt hinit hehW) hparams).2 hinv

/-- Settles O42: the fetch takes an agent's operation, and that keeps the history. -/
theorem stepKeepsTraceHistory : Obligations.StepKeepsTraceHistory := by
  intro s t hops hinv h
  obtain ⟨i, u, hf, hx⟩ := step_next_iff.1 h
  have hi := fetch_isOperation hops hf
  obtain ⟨_, _, rfl⟩ := fetch_state hf
  refine exec_traceInv hi ?_ hx
  exact (traceInv_congr rfl rfl rfl rfl).2 hinv

end Sys2Proof.Machine
end

section
/-! The decoder and the encoder, each the other's inverse (30_encoding.md R57 to R62), and the reserved words. -/

namespace Sys2Proof

/-! ### Every byte is its fields -/

/-- A byte is the format S word of its four fields (R58). -/
theorem exists_wordS (w : Byte) : ∃ ev ln sb db, w = wordS ev ln sb db :=
  ⟨w.extractLsb' 5 3, w.extractLsb' 2 3, w.getLsbD 1, w.getLsbD 0, by revert w; decide⟩

/-- A byte is the format P word of its three fields (R59). -/
theorem exists_wordP (w : Byte) : ∃ pr ln arg, w = wordP pr ln arg :=
  ⟨w.extractLsb' 6 2, lineOfIndex (w.extractLsb' 2 4), w.extractLsb' 0 2, by
    simp only [wordP, lineIndex_lineOfIndex]; revert w; decide⟩

/-- Format E has the places of format P, the first of them zero (R61). -/
theorem wordE_eq_wordP (ln : Line) (dd : BitVec 2) : wordE ln dd = wordP 0 ln dd := rfl

theorem encode_commitVariant (sb db : Bit) : encode (commitVariant sb db) = wordS 2 0 sb db := by
  cases sb <;> cases db <;> rfl

theorem encode_edgeVariant (sb db : Bit) : encode (edgeVariant sb db) = wordS 3 0 sb db := by
  cases db <;> rfl

theorem commitVariant_wellFormed (p : Params) (sb db : Bit) : (commitVariant sb db).wellFormed p = true := by
  cases sb <;> cases db <;> rfl

theorem edgeVariant_wellFormed (p : Params) (sb db : Bit) : (edgeVariant sb db).wellFormed p = true := by
  cases db <;> rfl

theorem pinModeField_of_pinModeOfField {m : BitVec 2} {md : PinMode} (h : pinModeOfField m = some md) : pinModeField md = m := by
  unfold pinModeOfField at h
  split_ifs at h with h0 h1 h2 <;> cases h
  · exact h0.symm
  · exact h1.symm
  · exact h2.symm

theorem driveField_of_driveOfField {m : BitVec 2} {x : Drive} (h : driveOfField m = some x) : driveField x = m := by
  unfold driveOfField at h
  split_ifs at h with h0 h1 h2 <;> cases h
  · exact h0.symm
  · exact h1.symm
  · exact h2.symm

/-- The `arg` field of WRLVL is its level, bit 1 being zero (R59). -/
theorem levelField_of_bit_clear {arg : BitVec 2} (h : ¬ arg.getLsbD 1 = true) :
    (0 : BitVec 1) ++ BitVec.ofBool (arg.getLsbD 0) = arg := by
  revert arg; decide

/-! ### The encoder on what the decoder reads -/

theorem encode_of_decodeS {p : Params} {w : Byte} {i : Instr} (h : decodeS p.granularity w = .ok i) :
    i.wellFormed p = true ∧ encode i = w := by
  obtain ⟨ev, ln, sb, db, rfl⟩ := exists_wordS w
  simp only [decodeS, wordS_event, wordS_line, BitVec.getLsbD_eq_getElem, Nat.reduceLT, wordS_s, wordS_d] at h
  split_ifs at h with hres h4 hg hln h0 h1 h2 h3 hg <;> cases h
  · exact ⟨by simp [Instr.wellFormed, hg], by rw [h4]; rfl⟩
  all_goals obtain rfl : ln = 0 := not_not.1 hln
  · exact ⟨rfl, by rw [h0]; rfl⟩
  · exact ⟨rfl, by rw [h1]; rfl⟩
  · exact ⟨commitVariant_wellFormed p sb db, by rw [h2, encode_commitVariant]⟩
  · exact ⟨edgeVariant_wellFormed p sb db, by rw [h3, encode_edgeVariant]⟩
  · have h5 : ev = 5 := by bv_omega
    exact ⟨by simp [Instr.wellFormed, hg], by rw [h5]; rfl⟩

theorem encode_of_decodeP {p : Params} {w : Byte} {i : Instr} (h : decodeP w = .ok i) :
    i.wellFormed p = true ∧ encode i = w := by
  obtain ⟨pr, ln, arg, rfl⟩ := exists_wordP w
  simp only [decodeP, wordP_primitive, wordP_line, wordP_argument, lineOfIndex_lineIndex] at h
  split at h
  next => split_ifs at h
  next =>
    split_ifs at h with h0 h1 harg hlegal h2 hbit hlegal
    · subst h0
      split at h
      next => cases h
      next md hmd =>
        split_ifs at h with hlegal
        cases h
        exact ⟨hlegal, by rw [encode, pinModeField_of_pinModeOfField hmd]⟩
    · obtain rfl : arg = 0 := not_not.1 harg
      cases h
      exact ⟨hlegal, by rw [h1]; rfl⟩
    · cases h
      exact ⟨hlegal, by rw [encode, levelField_of_bit_clear hbit, h2]⟩

theorem encode_of_decodeE {p : Params} {w : Byte} {i : Instr} (h : decodeE w = .ok i) :
    i.wellFormed p = true ∧ encode i = w := by
  obtain ⟨pr, ln, dd, rfl⟩ := exists_wordP w
  simp only [decodeE, wordP_primitive, wordP_line, wordP_argument, lineOfIndex_lineIndex] at h
  split_ifs at h with hpr
  obtain rfl : pr = 0 := not_not.1 hpr
  split at h
  next => cases h
  next =>
    split at h
    next => cases h
    next x hx =>
      split_ifs at h with hlegal
      cases h
      exact ⟨hlegal, by rw [encode, wordE_eq_wordP, driveField_of_driveOfField hx]⟩

/-- What decodes is a well-formed operation, and the word is that operation's (R57 to R62). -/
theorem encode_of_decode {p : Params} {f : Iface} {w : Byte} {i : Instr} (h : decode p f w = .ok i) :
    i.wellFormed p = true ∧ encode i = w := by
  cases f with
  | s => exact encode_of_decodeS h
  | p => exact encode_of_decodeP h
  | t =>
    simp only [decode, decodeT] at h
    split_ifs at h with hlegal
    cases h
    exact ⟨hlegal, rfl⟩
  | e => exact encode_of_decodeE h

/-! ### The fields of a word that decodes -/

/-- A word that no operation is read from is rejected. -/
theorem decode_error_of_forall_ne {p : Params} {f : Iface} {w : Byte} (h : ∀ i, decode p f w ≠ .ok i) :
    ∃ e, decode p f w = .error e := by
  cases hd : decode p f w with
  | ok i => exact absurd hd (h i)
  | error e => exact ⟨e, rfl⟩

theorem lineIndex_bus_lt (i : Fin 8) : (lineIndex (.bus i)).toNat < 8 := by revert i; decide

/-- The legal column of CFGDIR, on the fields (R59). -/
theorem fields_of_legalCfg {ln : Line} {md : PinMode} (h : legalCfg ln md = true) :
    ((lineIndex ln).toNat < 8 ∧ (pinModeField md = 0 ∨ pinModeField md = 1)) ∨
      ((lineIndex ln).toNat = 8 ∧ pinModeField md = 0) ∨ ((lineIndex ln).toNat = 9 ∧ pinModeField md = 2) := by
  cases ln with
  | bus j => exact .inl ⟨lineIndex_bus_lt j, by cases md <;> simp_all [legalCfg, pinModeField]⟩
  | clk =>
    obtain rfl : md = .input := by simpa [legalCfg] using h
    exact .inr (.inl ⟨rfl, rfl⟩)
  | en =>
    obtain rfl : md = .inputPullup := by simpa [legalCfg] using h
    exact .inr (.inr ⟨rfl, rfl⟩)
  | reserved => cases h

theorem index_of_legalRead {ln : Line} (h : legalRead ln = true) : (lineIndex ln).toNat < 8 ∨ (lineIndex ln).toNat = 9 := by
  cases ln with
  | bus j => exact .inl (lineIndex_bus_lt j)
  | en => exact .inr rfl
  | clk | reserved => cases h

theorem index_of_legalWrite {ln : Line} (h : legalWrite ln = true) : (lineIndex ln).toNat < 8 := by
  cases ln with
  | bus j => exact lineIndex_bus_lt j
  | clk | en | reserved => cases h

theorem index_of_legalEnv {ln : Line} {x : Drive} (h : legalEnv ln x = true) : (lineIndex ln).toNat ≤ 9 := by
  cases ln with
  | bus j => exact (lineIndex_bus_lt j).le.trans (by decide)
  | clk | en => decide
  | reserved => cases h

theorem driveField_ne_three (x : Drive) : driveField x ≠ 3 := by cases x <;> decide

/-- Format S (R58): an event of the table, the line field zero outside MC.CFG, the two events of `per_line` only there. -/
theorem fields_of_decode_s {p : Params} {w : Byte} {i : Instr} (h : decode p .s w = .ok i) :
    (w.extractLsb' 5 3 ≠ 6 ∧ w.extractLsb' 5 3 ≠ 7) ∧ (w.extractLsb' 2 3 = 0 ∨ w.extractLsb' 5 3 = 4) ∧
      (w.extractLsb' 5 3 = 4 ∨ w.extractLsb' 5 3 = 5 → p.granularity = .perLine) := by
  have hf := Machine.decode_iface h
  obtain ⟨hwf, rfl⟩ := encode_of_decode h
  cases i with
  | mcCfg | mcFlag => simpa [encode, Instr.wellFormed] using hwf
  | cfgdir | rdlvl | wrlvl | trput | envSet => cases hf
  | _ => simp [encode]

/-- Format P (R59): the legal columns of CFGDIR, RDLVL and WRLVL. -/
theorem fields_of_decode_p {p : Params} {w : Byte} {i : Instr} (h : decode p .p w = .ok i) :
    (w.extractLsb' 6 2 = 0 ∧
        (((w.extractLsb' 2 4).toNat < 8 ∧ (w.extractLsb' 0 2 = 0 ∨ w.extractLsb' 0 2 = 1)) ∨
          ((w.extractLsb' 2 4).toNat = 8 ∧ w.extractLsb' 0 2 = 0) ∨
          ((w.extractLsb' 2 4).toNat = 9 ∧ w.extractLsb' 0 2 = 2))) ∨
      (w.extractLsb' 6 2 = 1 ∧ ((w.extractLsb' 2 4).toNat < 8 ∨ (w.extractLsb' 2 4).toNat = 9) ∧ w.extractLsb' 0 2 = 0) ∨
      (w.extractLsb' 6 2 = 2 ∧ (w.extractLsb' 2 4).toNat < 8 ∧ (w.extractLsb' 0 2).getLsbD 1 = false) := by
  have hf := Machine.decode_iface h
  obtain ⟨hwf, rfl⟩ := encode_of_decode h
  cases i with
  | cfgdir => exact .inl ⟨by simp [encode], by simpa [encode] using fields_of_legalCfg hwf⟩
  | rdlvl => exact .inr (.inl (by simpa [encode] using index_of_legalRead hwf))
  | wrlvl ln b =>
    have hbit : ((0 : BitVec 1) ++ BitVec.ofBool b).getLsbD 1 = false := by cases b <;> rfl
    exact .inr (.inr ⟨by simp [encode], by simpa [encode] using index_of_legalWrite hwf, by rw [encode, wordP_argument, hbit]⟩)
  | _ => cases hf

/-- Format E (R61): bits 7:6 zero, a line that exists, a drive that exists. -/
theorem fields_of_decode_e {p : Params} {w : Byte} {i : Instr} (h : decode p .e w = .ok i) :
    w.extractLsb' 6 2 = 0 ∧ (w.extractLsb' 2 4).toNat ≤ 9 ∧ w.extractLsb' 0 2 ≠ 3 := by
  have hf := Machine.decode_iface h
  obtain ⟨hwf, rfl⟩ := encode_of_decode h
  cases i with
  | envSet ln x =>
    exact ⟨by simp [encode], by simpa [encode] using index_of_legalEnv hwf, by simpa [encode] using driveField_ne_three x⟩
  | _ => cases hf

/-- Format T (R60): a byte that is neither a printing character of the trace nor of `NL` is rejected. -/
theorem decode_t_error {p : Params} {w : Byte}
    (hchar : w ∉ ([0x30, 0x31, 0x20, 0x77, 0x72, 0x52, 0x55, 0x4E, 0x49, 0x47] : List Byte)) (hnl : w ∉ p.nl) :
    ∃ e, decode p .t w = .error e := by
  have hillegal : legalTraceByte p.nl w = false := by
    simp only [legalTraceByte, Bool.or_eq_false_iff, List.contains_eq_mem, decide_eq_false_iff_not]
    exact ⟨hchar, hnl⟩
  exact ⟨.reservedByte, by simp [decode, decodeT, hillegal]⟩

end Sys2Proof

namespace Sys2Proof.Machine

/-- Settles O22: the decoder reads the fields the encoder writes. -/
theorem decodeOfEncodeIsIdentity : Obligations.DecodeOfEncodeIsIdentity :=
  fun _ _ h => decode_encode h

/-- Settles O23: the encoder writes back the fields the decoder has read. -/
theorem encodeOfDecodeIsIdentity : Obligations.EncodeOfDecodeIsIdentity := by
  intro p f w i h
  obtain ⟨hwf, hw⟩ := encode_of_decode h
  exact ⟨hwf, decode_iface h, hw⟩

/-- Settles O24: each word is the one the encoder writes for a well-formed operation. -/
theorem wordsOfEachFamilyDecode : Obligations.WordsOfEachFamilyDecode :=
  ⟨decode_encode (i := .init false false) rfl, decode_encode (i := .mcSample false true) rfl,
    decode_encode (i := .mcCommitDrv) rfl, decode_encode (i := .ehR true) rfl, decode_encode (i := .ehW false) rfl,
    decode_encode (i := .mcCfg 5 true false) rfl, decode_encode (i := .cfgdir (.bus 3) .output) rfl,
    decode_encode (i := .wrlvl (.bus 7) false) rfl, decode_encode (i := .trput 0x77) rfl,
    decode_encode (i := .envSet .en .d0) rfl⟩

/-- Settles O25: the fields of such a byte are not those of a word that decodes on that interface. -/
theorem reservedWordsAreRejected : Obligations.ReservedWordsAreRejected := by
  intro p w
  refine ⟨fun hev => ?_, fun hln hev => ?_, fun hev hg => ?_, fun hpr => ?_, fun hln => ?_, fun harg => ?_, fun hpr harg => ?_,
    fun hpr hbit => ?_, fun hpre => ?_, fun hln => ?_, fun hdd => ?_, rfl, fun hpr hln harg => ?_, fun hpr hln harg => ?_,
    fun hpr hln harg => ?_, fun hpr hln => ?_, fun hpr hln => ?_, decode_t_error⟩
  all_goals refine decode_error_of_forall_ne fun i hd => ?_
  · have hf := fields_of_decode_s hd; bv_omega
  · have hf := fields_of_decode_s hd; bv_omega
  · obtain ⟨-, -, hper⟩ := fields_of_decode_s hd; simp [hper hev] at hg
  · have hf := fields_of_decode_p hd; bv_omega
  · have hf := fields_of_decode_p hd; omega
  · have hf := fields_of_decode_p hd; simp [harg] at hf
  · have hf := fields_of_decode_p hd; simp_all
  · have hf := fields_of_decode_p hd; simp_all
  · obtain ⟨hzero, -⟩ := fields_of_decode_e hd; exact hpre hzero
  · obtain ⟨-, hle, -⟩ := fields_of_decode_e hd; omega
  · obtain ⟨-, -, hdrive⟩ := fields_of_decode_e hd; exact hdrive hdd
  · have hf := fields_of_decode_p hd; bv_omega
  · have hf := fields_of_decode_p hd; bv_omega
  · have hf := fields_of_decode_p hd; bv_omega
  · have hf := fields_of_decode_p hd; bv_omega
  · have hf := fields_of_decode_p hd; bv_omega

/-- Settles O28: the fetch refuses what the decoder rejects. -/
theorem stepRefusesReservedWords : Obligations.StepRefusesReservedWords :=
  fun _ _ _ _ hs hd => step_of_reserved hs hd

end Sys2Proof.Machine
end

section
/-! The answers of the Mode Controller's operations (40_mode_controller.md R65 to R73): where one is refused, what a commit
does by its variant, and that `MCS` names the one that completes. -/

namespace Sys2Proof.Machine

/-! ### Refusals -/

/-- A guard that is not met refuses the operation (R62). -/
theorem requires_of_not {c : Bool} {s : State} (h : ¬ c = true) : requires c s = .refused .notEnabled :=
  requires_eq_refused.2 ⟨by simpa using h, rfl⟩

theorem exec_mcCfg_of_perLine {ln : Fin 8} {sb db : Bit} {s : State} (hg : s.params.granularity = .perLine) :
    exec (.mcCfg ln sb db) s = requires (s.cfgEnabled ln sb db) (turnOneLine ln sb s) :=
  if_pos hg

theorem exec_mcFlag_of_perLine {sb db : Bit} {s : State} (hg : s.params.granularity = .perLine) :
    exec (.mcFlag sb db) s = requires (s.flagEnabled sb db) (commitFlag sb s) :=
  if_pos hg

theorem exec_mcCfg_of_group {ln : Fin 8} {sb db : Bit} {s : State} (hg : s.params.granularity = .group) :
    exec (.mcCfg ln sb db) s = .refused .reservedWord :=
  if_neg (by simp [hg])

theorem exec_mcFlag_of_group {sb db : Bit} {s : State} (hg : s.params.granularity = .group) :
    exec (.mcFlag sb db) s = .refused .reservedWord :=
  if_neg (by simp [hg])

/-! ### Samples and commits -/

/-- MC.SAMPLE's effect where the level of the enable line is no draw (R66). -/
theorem takeSample_of_level {s : State} {lvl : Level} (h : s.level .en = some lvl) :
    takeSample s = { s with mcs := .sampled (!lvl), gpio := s.gpio ++ [.rdlvl .en lvl] } := by
  simp [takeSample_eq, readLevel_of_level h, drawsOf, h]

/-- The sample of a level that is no draw, as the first operation of a poll (R65, R66). -/
theorem exec_mcSample_of_level {s : State} {lvl : Level} (hr : s.run = true) (hm : s.mcs = .idle)
    (hl : s.level .en = some lvl) :
    exec (.mcSample false s.dir) s = .next { s with mcs := .sampled (!lvl), gpio := s.gpio ++ [.rdlvl .en lvl] } :=
  exec_mcSample_next.2 ⟨⟨hr, hm, rfl, rfl⟩, (takeSample_of_level hl).symm⟩

/-- The commit of an unchanged enable value writes `MCS` only (R69). -/
theorem exec_commitVariant_unchanged {s : State} {sb : Bit} (hr : s.run = true) (hm : s.mcs = .sampled sb) (hd : s.dir = sb) :
    exec (commitVariant sb sb) s = .next (s.setMcs .idle) := by
  cases sb with
  | false => exact exec_mcCommitNopSense_next.2 ⟨⟨hr, hm, hd⟩, rfl⟩
  | true => exact exec_mcCommitNopDrive_next.2 ⟨⟨hr, hm, hd⟩, rfl⟩

/-- The commit of a changed enable value turns the bus, under `group` (R70, R71). -/
theorem exec_commitVariant_changed {s : State} {sb db : Bit} (hr : s.run = true) (hm : s.mcs = .sampled sb) (hd : s.dir = db)
    (hsb : sb ≠ db) (hg : s.params.granularity = .group) : exec (commitVariant sb db) s = .next (commitTurn sb s) := by
  cases sb <;> cases db
  · exact absurd rfl hsb
  · exact exec_mcCommitSns_next.2 ⟨⟨hr, hm, hd, hg⟩, rfl⟩
  · exact exec_mcCommitDrv_next.2 ⟨⟨hr, hm, hd, hg⟩, rfl⟩
  · exact absurd rfl hsb

/-! ### The operation that completes -/

/-- An operation of the Mode Controller that completes is the one the control state names (R65). -/
theorem mcNext_of_exec {i : Instr} {s t : State} (hi : i.byModeController = true) (h : exec i s = .next t) :
    mcNext s = some i := by
  cases i with
  | mcSample sb db =>
    obtain ⟨⟨hr, hm, rfl, rfl⟩, _⟩ := exec_mcSample_next.1 h
    simp [mcNext, hr, hm, State.held]
  | mcCommitNopSense =>
    obtain ⟨⟨hr, hm, hd⟩, _⟩ := exec_mcCommitNopSense_next.1 h
    simp [mcNext, hr, hm, hd, commitVariant]
  | mcCommitNopDrive =>
    obtain ⟨⟨hr, hm, hd⟩, _⟩ := exec_mcCommitNopDrive_next.1 h
    simp [mcNext, hr, hm, hd, commitVariant]
  | mcCommitDrv =>
    obtain ⟨⟨hr, hm, hd, hg⟩, _⟩ := exec_mcCommitDrv_next.1 h
    simp [mcNext, hr, hm, hd, hg, commitVariant]
  | mcCommitSns =>
    obtain ⟨⟨hr, hm, hd, hg⟩, _⟩ := exec_mcCommitSns_next.1 h
    simp [mcNext, hr, hm, hd, hg, commitVariant]
  | mcCfg ln sb db =>
    obtain ⟨hg, ⟨hr, rfl, ⟨hm, hsb, rfl⟩ | ⟨hm, hln⟩⟩, _⟩ := exec_mcCfg_next.1 h
    · simp [mcNext, hr, hm, hsb, hg]
    · have hln8 : ln.val ≠ 8 := by omega
      simp [mcNext, hr, hm, hg, hln, hln8]
  | mcFlag sb db =>
    obtain ⟨hg, ⟨hr, hm, rfl⟩, _⟩ := exec_mcFlag_next.1 h
    simp [mcNext, hr, hm, hg]
  | _ => simp [Instr.byModeController] at hi

/-- Settles O36: the control state names an operation that completes, and whatever completes is the one it names. -/
theorem exactlyOneModeControllerOperationIsEnabled : Obligations.ExactlyOneModeControllerOperationIsEnabled := by
  intro s
  constructor
  · intro hr ha
    obtain ⟨i, t, hi, hx⟩ := mcNext_progress hr ha
    refine ⟨i, hi, mcNext_byModeController hi, ⟨t, hx⟩, fun j u hj hu => ?_⟩
    have hij := (mcNext_of_exec hj hu).symm.trans hi
    simpa using hij
  · intro hr j t hj h
    have hnext := mcNext_of_exec hj h
    simp [mcNext, hr] at hnext

end Sys2Proof.Machine
end

section
/-! The operations of the Mode Controller one by one: word, answer, refusal (40_mode_controller.md R66 to R73). -/

namespace Sys2Proof.Machine

/-! ### MC.SAMPLE and MC.COMMIT.NOP -/

/-- Settles O3: the answer of the read is the level of the enable line wherever that is no draw. -/
theorem sampleKeepsComplementOfEnableLevel : Obligations.SampleKeepsComplementOfEnableLevel := by
  intro s sb db
  refine ⟨fun p => decode_encode (p := p) (i := .mcSample sb db) rfl, fun hr hm hsb hdb => ?_,
    fun h => requires_of_not (mt sampleEnabled_iff.1 h)⟩
  refine ⟨(readLevel .en s).1, s.draws + drawsOf s .en, exec_mcSample_next.2 ⟨⟨hr, hm, hsb, hdb⟩, (takeSample_eq s).symm⟩,
    fun hx => readLevel_fst ?_, fun hx => readLevel_fst ?_, fun hx hpu => readLevel_fst ?_, fun hl => ?_⟩
  · simp [State.level, hx, enableLevel]
  · simp [State.level, hx, enableLevel]
  · simp [State.level, hx, hpu, enableLevel]
  · simp [drawsOf, hl]

/-- Settles O4: the guard of R69 for each of the two words. -/
theorem commitOfUnchangedEnableWritesMcsOnly : Obligations.CommitOfUnchangedEnableWritesMcsOnly :=
  fun _ =>
    ⟨fun p => ⟨decode_encode (p := p) (i := .mcCommitNopSense) rfl, decode_encode (p := p) (i := .mcCommitNopDrive) rfl⟩,
      fun hr hm hd => exec_mcCommitNopSense_next.2 ⟨⟨hr, hm, hd⟩, rfl⟩,
      fun hr hm hd => exec_mcCommitNopDrive_next.2 ⟨⟨hr, hm, hd⟩, rfl⟩,
      fun h => requires_of_not (mt commitEnabled_iff.1 h), fun h => requires_of_not (mt commitEnabled_iff.1 h)⟩

/-! ### The commits that turn the bus -/

/-- An output line that nothing drives from outside shows its latch (R24, R121). -/
theorem level_bus_of_output {s : State} {i : Fin 8} (hm : s.mode.get i = .output) (hx : s.xBus.get i = .z) :
    s.level (.bus i) = some (s.olat.get i) := by
  simp [State.level, hm, hx, busLevel]

/-- A commit that turns the bus gives every line the direction of the new flag (R70, R71). -/
theorem commitTurn_mode (d : Bit) (s : State) (i : Fin 8) : (commitTurn d s).mode.get i = pinDirOf d := by
  simp [commitTurn_eq]

/-- Settles O5: the commit writes the modes and no latch, so an undriven line shows its old one. -/
theorem commitDriveTurnsAllLinesToOutputs : Obligations.CommitDriveTurnsAllLinesToOutputs := by
  refine fun s => ⟨fun p => decode_encode (p := p) (i := .mcCommitDrv) rfl, fun hr hm hd hg => ?_,
    fun h => requires_of_not (mt turnEnabled_iff.1 h)⟩
  have hmode := commitTurn_mode true s
  refine ⟨_, exec_mcCommitDrv_next.2 ⟨⟨hr, hm, hd, hg⟩, rfl⟩, ?_, fun i => ⟨hmode i, fun hx => ?_⟩⟩
  · rw [commitTurn_eq]; rfl
  · rw [level_bus_of_output (hmode i) (by simpa [commitTurn_eq] using hx)]
    simp [commitTurn_eq]

/-- Settles O6: the guard and the effect of R71. -/
theorem commitSenseTurnsAllLinesToInputs : Obligations.CommitSenseTurnsAllLinesToInputs := by
  refine fun s => ⟨fun p => decode_encode (p := p) (i := .mcCommitSns) rfl, fun hr hm hd hg => ?_,
    fun h => requires_of_not (mt turnEnabled_iff.1 h)⟩
  refine ⟨_, exec_mcCommitSns_next.2 ⟨⟨hr, hm, hd, hg⟩, rfl⟩, ?_, commitTurn_mode false s⟩
  rw [commitTurn_eq]; rfl

/-! ### The turn line by line -/

/-- The word of MC.CFG, with its line field as a number (R58). -/
theorem encode_mcCfg (ln : Fin 8) (sb db : Bit) :
    encode (.mcCfg ln sb db) = 0b100#3 ++ BitVec.ofNat 3 ln.val ++ BitVec.ofBool sb ++ BitVec.ofBool db := by
  revert ln sb db; decide

/-- Settles O7: the guard and the effect of R72, under `per_line` only. -/
theorem configureTurnsOneLine : Obligations.ConfigureTurnsOneLine := by
  refine fun s ln sb db => ⟨fun p hg => ?_, fun hg hr hdb hturn => ?_, fun hg h => ?_, exec_mcCfg_of_group⟩
  · rw [← encode_mcCfg]
    exact decode_encode (i := .mcCfg ln sb db) (by simp [Instr.wellFormed, hg])
  · refine ⟨_, exec_mcCfg_next.2 ⟨hg, ⟨hr, hdb, hturn⟩, rfl⟩, ?_, fun j => ?_⟩
    · rw [turnOneLine_eq, pinModeOf_pinDirOf]
    · rw [turnOneLine_eq]; exact Lines.get_set _ _ _ _
  · rw [exec_mcCfg_of_perLine hg]
    exact requires_of_not (mt cfgEnabled_iff.1 h)

/-- Lines that all have the direction of the flag meet INV1 and INV2 (R25). -/
theorem inv1_inv2_of_mode {s : State} (h : ∀ i : Fin 8, s.mode.get i = pinDirOf s.dir) : s.inv1 ∧ s.inv2 :=
  ⟨fun i j => by rw [h i, h j], by simp [h], by simp [h]⟩

/-- Settles O8: the guard and the effect of R73, under `per_line` only; MCS is `Idle` after it, where R25 asks of every line the
direction of the flag. -/
theorem flagCommitsNewDirection : Obligations.FlagCommitsNewDirection := by
  refine fun s sb db => ⟨fun p hg => ?_, fun hg hr hm hdb => ?_, fun hg h => ?_, exec_mcFlag_of_group⟩
  · exact decode_encode (i := .mcFlag sb db) (by simp [Instr.wellFormed, hg])
  · have hflag : exec (.mcFlag sb db) s = .next { s with dir := sb, mcs := .idle } :=
      exec_mcFlag_next.2 ⟨hg, ⟨hr, hm, hdb⟩, rfl⟩
    exact ⟨hflag, fun ha => inv1_inv2_of_mode (exec_byModeController_directionsAgree rfl ha hflag)⟩
  · rw [exec_mcFlag_of_perLine hg]
    exact requires_of_not (mt flagEnabled_iff.1 h)

end Sys2Proof.Machine
end

section
/-! The requests to the GPIO bank (log 8) that the operations make (40_mode_controller.md R74). -/

namespace Sys2Proof.Machine

/-- An operation of the Mode Controller appends requests, and none is a WRLVL (R74 (c)). -/
theorem exec_byModeController_gpio {i : Instr} {s t : State} (hi : i.byModeController = true) (h : exec i s = .next t) :
    ∃ calls, t.gpio = s.gpio ++ calls ∧ ∀ l b, .wrlvl l b ∉ calls := by
  cases i with
  | mcSample => obtain ⟨_, rfl⟩ := exec_mcSample_next.1 h; exact ⟨_, by rw [takeSample_eq], by simp⟩
  | mcCommitNopSense => obtain ⟨_, rfl⟩ := exec_mcCommitNopSense_next.1 h; exact ⟨[], by simp⟩
  | mcCommitNopDrive => obtain ⟨_, rfl⟩ := exec_mcCommitNopDrive_next.1 h; exact ⟨[], by simp⟩
  | mcCommitDrv => obtain ⟨_, rfl⟩ := exec_mcCommitDrv_next.1 h; exact ⟨_, by rw [commitTurn_eq], by simp⟩
  | mcCommitSns => obtain ⟨_, rfl⟩ := exec_mcCommitSns_next.1 h; exact ⟨_, by rw [commitTurn_eq], by simp⟩
  | mcCfg => obtain ⟨_, _, rfl⟩ := exec_mcCfg_next.1 h; exact ⟨_, by rw [turnOneLine_eq], by simp⟩
  | mcFlag => obtain ⟨_, _, rfl⟩ := exec_mcFlag_next.1 h; exact ⟨[], by simp [commitFlag]⟩
  | _ => simp [Instr.byModeController] at hi

/-- Settles O32: the Mode Controller is in the list of writers of none of these elements (R26). -/
theorem modeControllerFrame : Obligations.ModeControllerFrame := by
  intro i s t hi h
  have hne {j : Instr} (hj : j.byModeController = false) : i ≠ j := by rintro rfl; simp [hi] at hj
  have hinit (a b : Bit) : i ≠ .init a b := hne rfl
  have henv (l : Line) (x : Drive) : i ≠ .envSet l x := hne rfl
  have heh : i.byEdgeHandler = false := by cases i <;> simp_all [Instr.byModeController, Instr.byEdgeHandler]
  obtain ⟨hrun, -, hcnt, -, holat, henpu, hx, hpend, -, htrace, hedge, -⟩ := everyElementHasItsWritersOnly i s t h
  obtain ⟨hxBus, hxClk, hxEn⟩ := hx henv
  exact ⟨hcnt hinit fun _ => hne rfl, holat hinit (fun _ => hne rfl) fun _ _ => hne rfl, hpend hinit (henv .clk) heh,
    htrace hinit heh fun _ => hne rfl, hxBus, hxClk, hxEn, hrun hinit, henpu hinit fun _ _ => hne rfl,
    hedge hinit henv heh, exec_byModeController_gpio hi h⟩

/-! ### Reconfigurations of the bus -/

theorem busCfgCalls_congr {s t : State} (h : t.gpio = s.gpio) : t.busCfgCalls = s.busCfgCalls := by
  simp [State.busCfgCalls, h]

@[simp] theorem readLevel_busCfgCalls (ln : Line) (s : State) : (readLevel ln s).2.busCfgCalls = s.busCfgCalls := by
  rw [readLevel_state]
  simp [State.busCfgCalls, GpioCall.isBusCfg]

@[simp] theorem readLines_busCfgCalls (is : List (Fin 8)) (acc : Lines Level) (s : State) :
    (readLines is acc s).2.busCfgCalls = s.busCfgCalls := by
  induction is generalizing acc s with
  | nil => rfl
  | cons i is ih => simp [readLines, ih]

/-- A service configures no direction (R79). -/
theorem exec_byEdgeHandler_busCfgCalls {i : Instr} {s t : State} (hi : i.byEdgeHandler = true) (h : exec i s = .next t) :
    t.busCfgCalls = s.busCfgCalls := by
  cases i with
  | ehR =>
    obtain ⟨_, rfl⟩ := exec_ehR_next.1 h
    rw [handleRead_eq_sampleBus]
    exact readLines_busCfgCalls busOrder (Lines.fill false) (interruptEntry s)
  | ehW =>
    obtain ⟨_, rfl⟩ := exec_ehW_next.1 h
    rw [handleWrite_eq, interruptEntry_eq]
    simp [State.busCfgCalls, busOrder, GpioCall.isBusCfg]
  | _ => simp [Instr.byEdgeHandler] at hi

/-- A commit that turns the bus reconfigures each of its eight lines (R70, R71). -/
theorem commitTurn_busCfgCalls (d : Bit) (s : State) : (commitTurn d s).busCfgCalls = s.busCfgCalls + 8 := by
  rw [commitTurn_eq]
  simp [State.busCfgCalls, busOrder, List.countP_cons, GpioCall.isBusCfg]

/-- The environment makes no request (R90). -/
theorem exec_envSet_gpio {l : Line} {x : Drive} {s t : State} (h : exec (.envSet l x) s = .next t) : t.gpio = s.gpio := by
  obtain ⟨_, rfl, rfl⟩ | ⟨rfl, rfl⟩ | ⟨rfl, rfl, e⟩ | ⟨rfl, rfl, e⟩ := exec_envSet_next.1 h
  · rfl
  · rfl
  all_goals obtain ⟨_, _, _, _, rfl⟩ | ⟨_, rfl⟩ := setClock_cases e <;> rfl

/-- Settles O50: of the operations there are under `group`, only a commit that turns the bus writes `DIR` or configures a bus
line. -/
theorem eightBusReconfigurationsPerTurn : Obligations.EightBusReconfigurationsPerTurn := by
  intro i s t hi hr hg h
  obtain ⟨-, hdir, -⟩ := everyElementHasItsWritersOnly i s t h
  cases i with
  | init => obtain ⟨hr0, _⟩ := exec_init_next.1 h; simp [hr] at hr0
  | mcSample =>
    obtain ⟨_, rfl⟩ := exec_mcSample_next.1 h
    simp [takeSample_eq, State.busCfgCalls, GpioCall.isBusCfg]
  | mcCommitNopSense => obtain ⟨_, rfl⟩ := exec_mcCommitNopSense_next.1 h; simp [State.busCfgCalls]
  | mcCommitNopDrive => obtain ⟨_, rfl⟩ := exec_mcCommitNopDrive_next.1 h; simp [State.busCfgCalls]
  | mcCommitDrv =>
    obtain ⟨⟨_, _, hd, _⟩, rfl⟩ := exec_mcCommitDrv_next.1 h
    rw [commitTurn_busCfgCalls]
    simp [commitTurn_eq, hd]
  | mcCommitSns =>
    obtain ⟨⟨_, _, hd, _⟩, rfl⟩ := exec_mcCommitSns_next.1 h
    rw [commitTurn_busCfgCalls]
    simp [commitTurn_eq, hd]
  | mcCfg => obtain ⟨hp, _⟩ := exec_mcCfg_next.1 h; simp [hg] at hp
  | mcFlag => obtain ⟨hp, _⟩ := exec_mcFlag_next.1 h; simp [hg] at hp
  | ehR | ehW => simp [exec_byEdgeHandler_busCfgCalls rfl h, hdir]
  | envSet => simp [busCfgCalls_congr (exec_envSet_gpio h), hdir]
  | cfgdir | rdlvl | wrlvl | trput => simp [Instr.isOperation, Instr.iface] at hi

end Sys2Proof.Machine
end

section
/-! The turn of the bus line by line, and polls (40_mode_controller.md R64, R65, R73, R74). -/

namespace Sys2Proof.Machine

/-! ### CFG 0 to CFG 7 and FLAG make one commit -/

/-- MC.CFG on the listed lines, in order. -/
def turnLines (sb : Bit) (is : List (Fin 8)) (s : State) : State := is.foldl (fun s i => turnOneLine i sb s) s

/-- The flag after all eight lines leaves what the atomic commit leaves (R73). -/
theorem commitFlag_turnLines (sb : Bit) (s : State) : commitFlag sb (turnLines sb busOrder s) = commitTurn sb s := by
  simp [commitTurn_eq, turnLines, busOrder, turnOneLine_eq, commitFlag, State.setDir, State.setMcs, Lines.set, Lines.fill]

theorem busOrder_drop {k : Nat} (hk : k < 8) : busOrder.drop k = ⟨k, hk⟩ :: busOrder.drop (k + 1) := by
  revert k; decide

/-- From `Cfg(s, k)` the remaining lines and the flag complete in order (R72, R73). -/
theorem execAll_turnLines {sb db : Bit} {s : State} {k : Nat} (hr : s.run = true) (hg : s.params.granularity = .perLine)
    (hd : db = s.dir) (hm : s.mcs = .cfg sb k) (hk1 : 1 ≤ k) (hk8 : k ≤ 8) :
    execAll ((busOrder.drop k).map (fun i => .mcCfg i sb db) ++ [.mcFlag sb db]) s =
      .next (commitFlag sb (turnLines sb (busOrder.drop k) s)) := by
  induction hk8 using Nat.decreasingInduction generalizing s with
  | self => exact execAll_cons (exec_mcFlag_next.2 ⟨hg, ⟨hr, hm, hd⟩, rfl⟩)
  | of_succ k hk ih =>
    rw [busOrder_drop hk, List.map_cons, List.cons_append,
      execAll_cons (exec_mcCfg_next.2 ⟨hg, ⟨hr, hd, .inr ⟨hm, hk1⟩⟩, rfl⟩)]
    exact ih hr hg hd rfl (by omega)

/-- CFG 0 to CFG 7 and FLAG (R73). -/
def turnSequence (sb db : Bit) : List Instr := busOrder.map (fun i => .mcCfg i sb db) ++ [.mcFlag sb db]

theorem turnSequence_byModeController (sb db : Bit) : ∀ i ∈ turnSequence sb db, i.byModeController = true := by
  simp only [turnSequence, List.forall_mem_append, List.forall_mem_map, List.forall_mem_singleton]
  exact ⟨fun _ _ => rfl, rfl⟩

/-- The sequence completes and leaves what the atomic commit leaves (R73). -/
theorem execAll_turnSequence {sb : Bit} {s : State} (hr : s.run = true) (hg : s.params.granularity = .perLine)
    (hm : s.mcs = .sampled sb) (hsb : sb ≠ s.dir) : execAll (turnSequence sb s.dir) s = .next (commitTurn sb s) := by
  have hfirst : exec (.mcCfg 0 sb s.dir) s = .next (turnOneLine 0 sb s) :=
    exec_mcCfg_next.2 ⟨hg, ⟨hr, rfl, .inl ⟨hm, hsb, rfl⟩⟩, rfl⟩
  rw [← commitFlag_turnLines, turnSequence, show busOrder = 0 :: busOrder.drop 1 from rfl]
  exact (execAll_cons hfirst).trans (execAll_turnLines hr hg rfl rfl le_rfl (by decide))

/-- Settles O49: both leave the state of `commitTurn`, which does not read the parameters. -/
theorem perLineCommitEqualsGroupCommit : Obligations.PerLineCommitEqualsGroupCommit := by
  intro s sb hr hg hm hsb
  refine ⟨_, _, execAll_turnSequence hr hg hm hsb, exec_commitVariant_changed hr hm rfl hsb rfl, ?_⟩
  rw [commitTurn_eq, commitTurn_eq]

/-! ### Polls -/

/-- Operations of the Mode Controller that complete in a row are those its control state names (R65). -/
theorem mcSteps_of_execAll {is : List Instr} {s t : State} (hi : ∀ i ∈ is, i.byModeController = true)
    (h : execAll is s = .next t) : mcSteps is.length s = .next t := by
  induction is generalizing s with
  | nil => exact h
  | cons i is ih =>
    obtain ⟨hi, his⟩ := List.forall_mem_cons.1 hi
    cases hx : exec i s with
    | next u =>
      rw [execAll_cons hx] at h
      rw [List.length_cons, mcSteps_succ (mcNext_of_exec hi hx) hx]
      exact ih his h
    | fault r => simp [execAll, hx, andThen] at h
    | refused r => simp [execAll, hx, andThen] at h

/-- With the flag right already, one commit ends the poll (R69). -/
theorem mcSteps_commit_unchanged {s : State} (hr : s.run = true) (hm : s.mcs = .sampled s.dir) :
    mcSteps 1 s = .next (s.setMcs .idle) :=
  mcSteps_of_execAll (is := [commitVariant s.dir s.dir]) (by simp [commitVariant_byModeController])
    (execAll_cons (exec_commitVariant_unchanged hr hm rfl))

/-- With the flag to be changed, one operation turns the bus under `group`, nine under `per_line` (R70 to R73). -/
theorem mcSteps_commit_changed {s : State} {sb : Bit} (hr : s.run = true) (hm : s.mcs = .sampled sb) (hsb : sb ≠ s.dir) :
    mcSteps (if s.params.granularity = .group then 1 else 9) s = .next (commitTurn sb s) := by
  cases hg : s.params.granularity with
  | group =>
    exact mcSteps_of_execAll (is := [commitVariant sb s.dir]) (by simp [commitVariant_byModeController])
      (execAll_cons (exec_commitVariant_changed hr hm rfl hsb hg))
  | perLine =>
    exact mcSteps_of_execAll (is := turnSequence sb s.dir) (turnSequence_byModeController sb s.dir)
      (execAll_turnSequence hr hg hm hsb)

/-- Settles O47: the sample holds the complement of the level; one commit, or the line by line turn, makes it the flag. -/
theorem pollMakesDirectionFollowEnable : Obligations.PollMakesDirectionFollowEnable := by
  intro s lvl hr hm ha hl
  obtain ⟨u, hsample, hu⟩ : ∃ u, exec (.mcSample false s.dir) s = .next u ∧ u = { s with mcs := .sampled (!lvl), gpio := _ } :=
    ⟨_, exec_mcSample_of_level hr hm hl, rfl⟩
  have hpoll (n : Nat) : mcSteps (n + 1) s = mcSteps n u := mcSteps_succ (mcNext_of_exec rfl hsample) hsample
  have hur : u.run = true := by rw [hu]; exact hr
  by_cases hd : s.dir = !lvl
  · have hsteps : mcSteps 1 u = .next (u.setMcs .idle) := mcSteps_commit_unchanged hur (by rw [hu, hd])
    rw [directionsAgree_iff_of_not_cfg (by simp [hm])] at ha
    refine ⟨_, by rw [if_pos (.inr hd), hpoll, hsteps], ?_⟩
    subst hu
    exact ⟨hd, rfl, ha, rfl, rfl, rfl⟩
  · have hsteps := mcSteps_commit_changed (sb := !lvl) hur (by rw [hu]) (by rw [hu]; exact Ne.symm hd)
    have hcount : (if s.params.granularity = .group ∨ s.dir = !lvl then 2 else 10) =
        (if u.params.granularity = .group then 1 else 9) + 1 := by
      subst hu
      simp only [hd, or_false]
      split <;> rfl
    refine ⟨_, by rw [hcount, hpoll, hsteps], ?_⟩
    subst hu
    simp [commitTurn_eq, State.directionsAgree]

/-- Settles O48: the sample finds the complement of the level in `DIR`, and the commit writes `MCS` only. -/
theorem pollWithUnchangedEnableIsIdempotent : Obligations.PollWithUnchangedEnableIsIdempotent := by
  intro s hr hm hl
  calc execAll [.mcSample false s.dir, commitVariant s.dir s.dir] s
    _ = execAll [commitVariant s.dir s.dir] { s with mcs := .sampled (!!s.dir), gpio := s.gpio ++ [.rdlvl .en (!s.dir)] } :=
      execAll_cons (exec_mcSample_of_level hr hm hl)
    _ = .next { s with mcs := .idle, gpio := s.gpio ++ [.rdlvl .en (!s.dir)] } :=
      execAll_cons (exec_commitVariant_unchanged hr (by simp) rfl)
    _ = .next { s with gpio := s.gpio ++ [.rdlvl .en (!s.dir)] } := by rw [← hm]

end Sys2Proof.Machine
end

section
/-! The Edge Handler's operations (41_edge_handler.md R75 to R77): which one completes, and the whole of what it leaves. -/

namespace Sys2Proof.Machine

/-! ### What an operation that completes is not -/

theorem ne_trput_of_isOperation {i : Instr} (hi : i.isOperation = true) (b : Byte) : i ≠ .trput b := by
  rintro rfl
  simp [Instr.isOperation, Instr.iface] at hi

/-- INIT does not complete after start-up (R114). -/
theorem ne_init_of_exec {i : Instr} {s t : State} (hr : s.run = true) (h : exec i s = .next t) (sb db : Bit) :
    i ≠ .init sb db := by
  rintro rfl
  obtain ⟨hrun, _⟩ := exec_init_next.1 h
  simp [hr] at hrun

/-! ### Reading the bus: the requests and the draws -/

/-- Each line read is one request, answered the entry the line gets (R77, R83). -/
theorem readLines_gpio {is : List (Fin 8)} {acc : Lines Level} {s : State} (hn : is.Nodup) :
    (readLines is acc s).2.gpio = s.gpio ++ is.map fun i => .rdlvl (.bus i) ((readLines is acc s).1.get i) := by
  induction is generalizing acc s with
  | nil => simp [readLines]
  | cons i is ih =>
    obtain ⟨hi, hn⟩ := List.nodup_cons.1 hn
    simp only [readLines]
    rw [ih hn, readLevel_state]
    simp [readLines_get_of_not_mem hi]

/-- Where no line's level is a draw, none is taken (R24). -/
theorem readLines_draws_of_levels {s : State} (is : List (Fin 8)) (acc : Lines Level)
    (h : ∀ i : Fin 8, s.level (.bus i) ≠ none) : (readLines is acc s).2.draws = s.draws := by
  induction is generalizing acc s with
  | nil => rfl
  | cons i is ih =>
    simp only [readLines]
    rw [ih _ (by simpa using h), readLevel_state]
    simp [drawsOf, h i]

/-- RDLVL of the listed lines one by one leaves what reading the list leaves (R77). -/
theorem execAll_rdlvl (is : List (Fin 8)) (acc : Lines Level) (s : State) :
    execAll (is.map fun i => .rdlvl (.bus i)) s = .next (readLines is acc s).2 := by
  induction is generalizing acc s with
  | nil => rfl
  | cons i is ih =>
    rw [List.map_cons, execAll_cons (exec_rdlvl_next.2 ⟨.inr ⟨i, rfl⟩, rfl⟩)]
    exact ih _ _

/-- The entry into the interrupt is not seen by a read. -/
theorem readLevel_interruptEntry (ln : Line) (s : State) :
    readLevel ln (interruptEntry s) = ((readLevel ln s).1, interruptEntry (readLevel ln s).2) := by
  simp only [readLevel, interruptEntry_level]
  cases s.level ln <;> rfl

theorem readLines_interruptEntry (is : List (Fin 8)) (acc : Lines Level) (s : State) :
    readLines is acc (interruptEntry s) = ((readLines is acc s).1, interruptEntry (readLines is acc s).2) := by
  induction is generalizing acc s with
  | nil => rfl
  | cons i is ih => simp only [readLines, readLevel_interruptEntry, ih]

theorem sampleBus_interruptEntry (s : State) :
    sampleBus (interruptEntry s) = ((sampleBus s).1, interruptEntry (sampleBus s).2) := by
  simp only [sampleBus, readLines_interruptEntry]

/-- The eight requests of a sample, answered the bits of its value (R52, R77). -/
theorem sampleBus_gpio (s : State) :
    (sampleBus s).2.gpio = s.gpio ++ busOrder.map fun i => .rdlvl (.bus i) (busBit (sampleBus s).1 i) := by
  simp only [sampleBus, busBit_byteOfLines]
  exact readLines_gpio (by decide)

theorem sampleBus_draws_of_levels {s : State} (h : ∀ i : Fin 8, s.level (.bus i) ≠ none) :
    (sampleBus s).2.draws = s.draws :=
  readLines_draws_of_levels busOrder (Lines.fill false) h

/-! ### The two services -/

/-- What EH.W leaves (R76, R101). -/
theorem handleWrite_interruptEntry (s : State) :
    handleWrite (interruptEntry s) =
      { s with
        pend := false, edgeBus := none, cnt := s.cnt + 1, olat := linesOfByte (s.cnt + 1)
        trace := s.trace ++ traceLine s.params.nl (s.cnt + 1) .w
        gpio := s.gpio ++ busOrder.map fun i => .wrlvl (.bus i) (busBit (s.cnt + 1) i) } := by
  rw [handleWrite_eq, interruptEntry_eq]

/-- What EH.R leaves (R77, R101). -/
theorem handleRead_interruptEntry (s : State) :
    handleRead (interruptEntry s) =
      { s with
        pend := false, edgeBus := none, draws := (sampleBus s).2.draws
        trace := s.trace ++ traceLine s.params.nl (sampleBus s).1 .r
        gpio := s.gpio ++ busOrder.map fun i => .rdlvl (.bus i) (busBit (sampleBus s).1 i) } := by
  rw [handleRead_eq_sampleBus, sampleBus_interruptEntry, interruptEntry_eq, interruptEntry_eq, sampleBus_gpio]

/-- What a service can be: after start-up, with an edge pending, the one that `DIR` names (R75). -/
theorem exec_byEdgeHandler_cases {i : Instr} {s t : State} (hi : i.byEdgeHandler = true) (h : exec i s = .next t) :
    s.run = true ∧ s.pend = true ∧
      ((s.dir = true ∧ i = .ehW s.held ∧ t = handleWrite (interruptEntry s)) ∨
        (s.dir = false ∧ i = .ehR s.held ∧ t = handleRead (interruptEntry s))) := by
  cases i with
  | ehR sb =>
    obtain ⟨⟨hr, hp, hd, rfl⟩, ht⟩ := exec_ehR_next.1 h
    exact ⟨hr, hp, .inr ⟨hd, rfl, ht⟩⟩
  | ehW sb =>
    obtain ⟨⟨hr, hp, hd, rfl⟩, ht⟩ := exec_ehW_next.1 h
    exact ⟨hr, hp, .inl ⟨hd, rfl, ht⟩⟩
  | _ => simp [Instr.byEdgeHandler] at hi

/-- A trace line, written out (R53, R55). -/
theorem traceLine_eq_map (nl : List Byte) (v : Byte) (tag : Tag) :
    traceLine nl v tag =
      ([7, 6, 5, 4, 3, 2, 1, 0].map fun k => if v.getLsbD k then 0x31 else 0x30) ++ [0x20, tag.byte] ++ nl := rfl

end Sys2Proof.Machine
end

section
/-! The counter as the trace tells it (41_edge_handler.md R78). -/

namespace Sys2Proof.Machine

@[simp] theorem writeEdges_append (edges more : List Edge) :
    writeEdges (edges ++ more) = writeEdges edges + writeEdges more :=
  List.countP_append

/-- The counter goes up by the number of write edges, modulo 256 (R78). -/
theorem cnt_of_countsTo {c c' : Byte} {edges : List Edge} (h : countsTo c edges c') :
    c' = BitVec.ofNat 8 (c.toNat + writeEdges edges) := by
  induction edges generalizing c with
  | nil =>
    obtain rfl : c' = c := h
    simp [writeEdges]
  | cons e edges ih =>
    obtain ⟨v, tag⟩ := e
    cases tag with
    | w =>
      obtain ⟨_, hrest⟩ : v = c + 1 ∧ countsTo (c + 1) edges c' := h
      have hw : writeEdges (⟨v, .w⟩ :: edges) = writeEdges edges + 1 := by simp [writeEdges]
      rw [ih hrest, hw]
      bv_omega
    | r =>
      have hw : writeEdges (⟨v, .r⟩ :: edges) = writeEdges edges := by simp [writeEdges]
      rw [hw]
      exact ih h

/-- The history of the trace says where the counter stands (R56, R78). -/
theorem State.traceInv.counterInv {s : State} (h : s.traceInv) : s.counterInv := by
  obtain ⟨hbefore, hafter⟩ := h
  refine ⟨hbefore, fun hr => ?_⟩
  obtain ⟨edges, htrace, hcount⟩ := hafter hr
  exact ⟨edges, htrace, cnt_of_countsTo hcount⟩

theorem counterInv_congr {s t : State} (hrun : t.run = s.run) (htrace : t.trace = s.trace) (hcnt : t.cnt = s.cnt)
    (hparams : t.params = s.params) : t.counterInv ↔ s.counterInv := by
  simp [State.counterInv, hrun, htrace, hcnt, hparams]

/-- What an agent's operation does to the history: INIT begins it, a service adds one edge to it, the others write nothing it
speaks of (R26, R56). -/
theorem exec_history_cases {i : Instr} {s t : State} (hi : i.isOperation = true) (h : exec i s = .next t) :
    (s.run = false ∧ t = startUp s) ∨
      ((s.run = true ∧ t.run = true ∧ t.params = s.params) ∧
        ∃ e : Edge, t.trace = s.trace ++ traceLine s.params.nl e.value e.tag ∧ countsTo s.cnt [e] t.cnt) ∨
      (t.run = s.run ∧ t.trace = s.trace ∧ t.cnt = s.cnt ∧ t.params = s.params) := by
  obtain ⟨hrun, -, hcnt, -, -, -, -, -, -, htrace, -, hparams, -⟩ := everyElementHasItsWritersOnly i s t h
  by_cases hinit : ∃ a b, i = .init a b
  · obtain ⟨a, b, rfl⟩ := hinit
    exact .inl (exec_init_next.1 h)
  · simp only [not_exists] at hinit
    cases heh : i.byEdgeHandler with
    | true =>
      have hs := run_of_exec_byEdgeHandler heh h
      exact .inr (.inl ⟨⟨hs, (hrun hinit).trans hs, hparams⟩, exec_byEdgeHandler_edge heh h⟩)
    | false =>
      have hehW : ∀ a, i ≠ .ehW a := by rintro a rfl; simp [Instr.byEdgeHandler] at heh
      exact .inr (.inr ⟨hrun hinit, htrace hinit heh (ne_trput_of_isOperation hi), hcnt hinit hehW, hparams⟩)

/-- An agent's operation keeps what the trace tells of the counter: each edge added counts if it is a write (R78). -/
theorem exec_counterInv {i : Instr} {s t : State} (hi : i.isOperation = true) (hinv : s.counterInv) (h : exec i s = .next t) :
    t.counterInv := by
  obtain ⟨hbefore, hafter⟩ := hinv
  obtain ⟨hrun, rfl⟩ | ⟨⟨hs, ht, hparams⟩, e, hline, he⟩ | ⟨hrun, htrace, hcnt, hparams⟩ := exec_history_cases hi h
  · exact (startUp_traceInv (hbefore hrun)).counterInv
  · obtain ⟨edges, htrace, hcnt⟩ := hafter hs
    refine ⟨fun hf => by simp [ht] at hf, fun _ => ⟨edges ++ [e], ?_, ?_⟩⟩
    · rw [hline, htrace, hparams, traceOf_concat]
    · rw [cnt_of_countsTo he, hcnt, hparams, writeEdges_append]
      bv_omega
  · exact (counterInv_congr hrun htrace hcnt hparams).2 ⟨hbefore, hafter⟩

/-- Settles O43: the fetch takes an agent's operation, and that keeps the invariant; the history of the trace implies it. -/
theorem counterIsStartPlusWriteEdges : Obligations.CounterIsStartPlusWriteEdges := by
  refine ⟨fun s t hops hinv h => ?_, fun s h => h.counterInv⟩
  obtain ⟨i, u, hf, hx⟩ := step_next_iff.1 h
  have hi := fetch_isOperation hops hf
  obtain ⟨_, _, rfl⟩ := fetch_state hf
  refine exec_counterInv hi ?_ hx
  exact (counterInv_congr rfl rfl rfl rfl).2 hinv

end Sys2Proof.Machine
end

section
/-! What the Edge Handler's operations do and leave unchanged (41_edge_handler.md sections 1 to 4). -/

namespace Sys2Proof.Machine

/-! ### Which service completes -/

/-- Settles O37: the guards of EH.W and EH.R, and that a service that completes is one of these two. -/
theorem pendingEdgeIsServicedByTheFlag : Obligations.PendingEdgeIsServicedByTheFlag := by
  refine fun s => ⟨fun hr hp hd => ⟨⟨_, exec_ehW_next.2 ⟨⟨hr, hp, hd, rfl⟩, rfl⟩⟩, fun j t hj h => ?_⟩,
    fun hr hp hd => ⟨⟨_, exec_ehR_next.2 ⟨⟨hr, hp, hd, rfl⟩, rfl⟩⟩, fun j t hj h => ?_⟩, fun hn j t hj h => ?_⟩
  all_goals obtain ⟨hr', hp', ⟨hd', hj, _⟩ | ⟨hd', hj, _⟩⟩ := exec_byEdgeHandler_cases hj h
  · exact hj
  · simp [hd] at hd'
  · simp [hd] at hd'
  · exact hj
  · exact hn ⟨hr', hp'⟩
  · exact hn ⟨hr', hp'⟩

/-- Settles O9: the effect of EH.W, with the latches and the trace line written out. -/
theorem writeServiceCountsDrivesAndTraces : Obligations.WriteServiceCountsDrivesAndTraces := by
  refine fun s sb => ⟨fun p => decode_encode (p := p) (i := .ehW sb) rfl, fun hr hp hd hsb => ?_,
    fun h => requires_of_not (mt serviceEnabled_iff.1 h)⟩
  refine ⟨_, exec_ehW_next.2 ⟨⟨hr, hp, hd, hsb⟩, rfl⟩, ?_, fun i => ?_⟩
  · rw [handleWrite_interruptEntry, traceLine_eq_map]
    simp only [List.append_assoc]
    rfl
  · rw [handleWrite_interruptEntry]
    exact linesOfByte_get _ i

/-- Settles O53: the commit turns the flag and frees `MCS`, so the pending edge is serviced by EH.W with `s` = 0. -/
theorem pendingEdgeIsHandledUnderCommittedDirection : Obligations.PendingEdgeIsHandledUnderCommittedDirection := by
  intro s hr hm hd hp hg
  have hcommit : exec .mcCommitDrv s = .next (commitTurn true s) := exec_mcCommitDrv_next.2 ⟨⟨hr, hm, hd, hg⟩, rfl⟩
  have hservice : exec (.ehW false) (commitTurn true s) = .next (handleWrite (interruptEntry (commitTurn true s))) :=
    exec_ehW_next.2 ⟨by simp [commitTurn_eq, hr, hp, State.held], rfl⟩
  refine ⟨_, by rw [execAll_cons hcommit, execAll_cons hservice, execAll_nil], ?_⟩
  rw [handleWrite_interruptEntry, commitTurn_eq]
  exact ⟨rfl, rfl⟩

/-! ### What a service reads -/

/-- The bus as it stood at the edge is the bus as it stands, where EO3 has been kept (R93; log 28). -/
theorem xBus_of_busHeldSinceEdge {s : State} {x : Lines Drive} (hinv : s.edgeBusInv) (h : BusHeldSinceEdge s x) : s.xBus = x := by
  obtain ⟨_, _, hx⟩ := hinv x h
  exact hx

/-- Settles O10: the effect of EH.R, with the value the eight requests in order answer. -/
theorem readServiceSamplesAndTraces : Obligations.ReadServiceSamplesAndTraces := by
  refine fun s sb => ⟨fun p => decode_encode (p := p) (i := .ehR sb) rfl, fun hr hp hd hsb => ?_,
    fun h => requires_of_not (mt serviceEnabled_iff.1 h)⟩
  refine ⟨(sampleBus s).1, (sampleBus s).2.draws, exec_ehR_next.2 ⟨⟨hr, hp, hd, hsb⟩, ?_⟩,
    ⟨_, execAll_rdlvl busOrder (Lines.fill false) s, rfl, sampleBus_gpio s⟩, fun x hinv hheld i b hb => ?_,
    sampleBus_draws_of_levels⟩
  · rw [handleRead_interruptEntry, traceLine_eq_map]
    simp only [List.append_assoc]
    rfl
  · obtain rfl := xBus_of_busHeldSinceEdge hinv hheld
    exact sampleBus_bit hb

/-- An input line that the outside drives has the level driven (R24). -/
theorem level_bus_of_driven_input {s : State} {i : Fin 8} (hm : s.mode.get i = .input) (hx : s.xBus.get i ≠ .z) :
    s.level (.bus i) = some (s.xBus.get i == .d1) := by
  cases h : s.xBus.get i with
  | z => exact absurd h hx
  | d0 => simp [State.level, busLevel, hm, h]
  | d1 => simp [State.level, busLevel, hm, h]

/-- Settles O58: every line has the level driven, so the sample takes no draw. -/
theorem drivenInputsAreSampledAsAtTheEdge : Obligations.DrivenInputsAreSampledAsAtTheEdge := by
  intro s t x sb hinv hheld hin hdriven h
  obtain rfl := xBus_of_busHeldSinceEdge hinv hheld
  obtain ⟨_, rfl⟩ := exec_ehR_next.1 h
  have hlevel (i : Fin 8) := level_bus_of_driven_input (hin i) (hdriven i)
  rw [handleRead_interruptEntry]
  refine ⟨sampleBus_draws_of_levels fun i => by simp [hlevel i], rfl, (sampleBus s).1, rfl, fun i => ?_⟩
  rw [sampleBus_bit (hlevel i), beq_iff_eq]

/-! ### Frame and discipline -/

/-- A service ends the edge and the record of the bus since it (R101; log 28). -/
theorem exec_byEdgeHandler_pend {i : Instr} {s t : State} (hi : i.byEdgeHandler = true) (h : exec i s = .next t) :
    t.pend = false ∧ t.edgeBus = none := by
  obtain ⟨_, _, ⟨_, _, rfl⟩ | ⟨_, _, rfl⟩⟩ := exec_byEdgeHandler_cases hi h
  · rw [handleWrite_interruptEntry]; exact ⟨rfl, rfl⟩
  · rw [handleRead_interruptEntry]; exact ⟨rfl, rfl⟩

/-- The requests of a service are reads and writes of bus lines (R79). -/
theorem exec_byEdgeHandler_gpio {i : Instr} {s t : State} (hi : i.byEdgeHandler = true) (h : exec i s = .next t) :
    ∃ calls, t.gpio = s.gpio ++ calls ∧ (∀ b, .rdlvl .en b ∉ calls) ∧ ∀ l m, .cfgdir l m ∉ calls := by
  obtain ⟨_, _, ⟨_, _, rfl⟩ | ⟨_, _, rfl⟩⟩ := exec_byEdgeHandler_cases hi h
  · exact ⟨_, by rw [handleWrite_interruptEntry], by simp, by simp⟩
  · exact ⟨_, by rw [handleRead_interruptEntry], by simp, by simp⟩

/-- Settles O33: the Edge Handler is in the list of writers of none of these elements (R26). -/
theorem edgeHandlerFrame : Obligations.EdgeHandlerFrame := by
  intro i s t hi h
  have hne {j : Instr} (hj : j.byEdgeHandler = false) : i ≠ j := by rintro rfl; simp [hi] at hj
  have hinit (a b : Bit) : i ≠ .init a b := hne rfl
  have hcfgdir (l : Line) (m : PinMode) : i ≠ .cfgdir l m := hne rfl
  have hmc : i.byModeController = false := by
    obtain ⟨_, _, ⟨_, rfl, _⟩ | ⟨_, rfl, _⟩⟩ := exec_byEdgeHandler_cases hi h <;> rfl
  obtain ⟨hrun, hdir, -, hmode, -, henpu, hx, -, hmcs, -⟩ := everyElementHasItsWritersOnly i s t h
  obtain ⟨hxBus, hxClk, hxEn⟩ := hx fun _ _ => hne rfl
  obtain ⟨-, hedge⟩ := exec_byEdgeHandler_pend hi h
  exact ⟨hdir hinit (hne rfl) (hne rfl) fun _ _ => hne rfl,
    hmode hinit (hne rfl) (hne rfl) (fun _ _ _ => hne rfl) hcfgdir, hmcs hinit hmc, henpu hinit hcfgdir, hxBus, hxClk, hxEn,
    hrun hinit, hedge, exec_byEdgeHandler_gpio hi h⟩

/-- The trace line of a service is tagged by the flag (R53, R75). -/
theorem exec_byEdgeHandler_tag {i : Instr} {s t : State} (hi : i.byEdgeHandler = true) (h : exec i s = .next t) :
    ∃ v tag, t.trace = s.trace ++ traceLine s.params.nl v tag ∧ (tag = .w ↔ s.dir = true) := by
  obtain ⟨_, _, ⟨hd, _, rfl⟩ | ⟨hd, _, rfl⟩⟩ := exec_byEdgeHandler_cases hi h
  · exact ⟨_, .w, by rw [handleWrite_interruptEntry], by simp [hd]⟩
  · exact ⟨_, .r, by rw [handleRead_interruptEntry], by simp [hd]⟩

/-- After start-up, `PEND` is cleared by a service and set by a rising clock edge, and nothing else writes it (R20, R80, R92). -/
theorem exec_pend_cases {i : Instr} {s t : State} (hr : s.run = true) (h : exec i s = .next t) :
    (i.byEdgeHandler = true ∧ s.pend = true ∧ t.pend = false) ∨
      ((i = .envSet .clk .d1 ∧ s.xClk = false) ∧ s.pend = false ∧ t.pend = true) ∨
      (i.byEdgeHandler = false ∧ ¬ (i = .envSet .clk .d1 ∧ s.xClk = false) ∧ t.pend = s.pend) := by
  cases heh : i.byEdgeHandler with
  | true =>
    obtain ⟨_, hp, _⟩ := exec_byEdgeHandler_cases heh h
    obtain ⟨hp', _⟩ := exec_byEdgeHandler_pend heh h
    exact .inl ⟨rfl, hp, hp'⟩
  | false =>
    by_cases hclk : ∃ x, i = .envSet .clk x
    · obtain ⟨x, rfl⟩ := hclk
      obtain ⟨_, hl, _⟩ | ⟨hl, _⟩ | ⟨_, rfl, e⟩ | ⟨_, rfl, e⟩ := exec_envSet_next.1 h
      · cases hl
      · cases hl
      all_goals obtain ⟨_, hlow, hb, hp, rfl⟩ | ⟨hedge, rfl⟩ := setClock_cases e
      · cases hb
      · simp
      · exact .inr (.inl ⟨⟨rfl, hlow⟩, hp, rfl⟩)
      · exact .inr (.inr ⟨rfl, fun ⟨_, hlow⟩ => hedge ⟨hr, hlow, rfl⟩, rfl⟩)
    · simp only [not_exists] at hclk
      obtain ⟨-, -, -, -, -, -, -, hpend, -⟩ := everyElementHasItsWritersOnly i s t h
      exact .inr (.inr ⟨rfl, fun ⟨hi, _⟩ => hclk _ hi, hpend (ne_init_of_exec hr h) hclk heh⟩)

/-- Settles O38: `exec_pend_cases` for the flag `PEND`, the tag of the service for the trace. -/
theorem eachEdgeIsServicedExactlyOnce : Obligations.EachEdgeIsServicedExactlyOnce := by
  intro i s t hi hr h
  refine ⟨?_, ?_, fun heh => exec_byEdgeHandler_tag heh h,
    fun heh => exec_trace_of_not_writer (ne_init_of_exec hr h) heh (ne_trput_of_isOperation hi) h⟩
  · obtain ⟨heh, hp⟩ | ⟨⟨rfl, _⟩, hs, _⟩ | ⟨heh, _, hp⟩ := exec_pend_cases hr h
    · simp [heh, hp]
    · simp [hs, Instr.byEdgeHandler]
    · simp [heh, hp]
  · obtain ⟨heh, hs, _⟩ | ⟨hedge, hp⟩ | ⟨_, hedge, hp⟩ := exec_pend_cases hr h
    · have hne : i ≠ .envSet .clk .d1 := by rintro rfl; simp [Instr.byEdgeHandler] at heh
      simp [hne, hs]
    · simp [hedge, hp]
    · simp [hedge, hp]

end Sys2Proof.Machine
end

section
/-! The requests to the GPIO bank and to the trace sink one by one: word, answer, refusal
(42_gpio_trace_primitives.md R82 to R85; log 7, log 20). -/

namespace Sys2Proof.Machine

/-! ### The words, with the line field as a number (30_encoding.md R59) -/

theorem encode_cfgdir_bus (i : Fin 8) (md : PinMode) :
    encode (.cfgdir (.bus i) md) = 0b000#3 ++ BitVec.ofNat 3 i.val ++ pinModeField md := by
  cases md <;> revert i <;> decide

theorem encode_rdlvl_bus (i : Fin 8) : encode (.rdlvl (.bus i)) = 0b010#3 ++ BitVec.ofNat 3 i.val ++ 0b00#2 := by
  revert i; decide

theorem encode_wrlvl_bus (i : Fin 8) (b : Bit) :
    encode (.wrlvl (.bus i) b) = 0b100#3 ++ BitVec.ofNat 3 i.val ++ 0b0#1 ++ BitVec.ofBool b := by
  revert i b; decide

/-! ### CFGDIR -/

theorem decode_cfgdir_bus (p : Params) (i : Fin 8) (d : PinDir) :
    decode p .p (0b000#3 ++ BitVec.ofNat 3 i.val ++ pinModeField (pinModeOf d)) = .ok (.cfgdir (.bus i) (pinModeOf d)) := by
  rw [← encode_cfgdir_bus]
  exact decode_encode (i := .cfgdir (.bus i) (pinModeOf d)) (by cases d <;> rfl)

/-- CFGDIR on a bus line writes the mode of that line and notes the request (R82; log 8). -/
theorem exec_cfgdir_bus (i : Fin 8) (d : PinDir) (s : State) :
    ∃ t, exec (.cfgdir (.bus i) (pinModeOf d)) s = .next t ∧
      t = { s with mode := t.mode, gpio := s.gpio ++ [.cfgdir (.bus i) (pinModeOf d)] } ∧
      ∀ j : Fin 8, t.mode.get j = if j = i then d else s.mode.get j :=
  ⟨cfgBus i d s, exec_cfgdir_next.2 (.inl ⟨i, d, rfl, rfl, rfl⟩), rfl, fun _ => Lines.get_set _ _ _ _⟩

/-- CFGDIR refuses what R59 does not list (R81, R82). -/
theorem exec_cfgdir_of_not_legal {ln : Line} {md : PinMode} (h : ¬ legalCfg ln md = true) (s : State) :
    exec (.cfgdir ln md) s = .refused .reservedRequest := by
  cases ln with
  | bus => cases md with
    | inputPullup => rfl
    | _ => exact absurd rfl h
  | clk => cases md with
    | input => exact absurd rfl h
    | _ => rfl
  | en => cases md with
    | inputPullup => exact absurd rfl h
    | _ => rfl
  | reserved => rfl

/-- The legal column of R59, in the words of R82. -/
theorem legalCfg_iff {ln : Line} {md : PinMode} :
    legalCfg ln md = true ↔
      (∃ i, ln = .bus i) ∧ (md = .input ∨ md = .output) ∨ ln = .clk ∧ md = .input ∨ ln = .en ∧ md = .inputPullup := by
  cases ln with
  | bus => cases md <;> simp [legalCfg]
  | _ => simp [legalCfg]

/-- Settles O13: the words are the encoder's, the effects those of `exec_cfgdir_next`. -/
theorem configureDirectionRequest : Obligations.ConfigureDirectionRequest :=
  fun s => ⟨fun p i => ⟨decode_cfgdir_bus p i .input, decode_cfgdir_bus p i .output⟩,
    fun p => ⟨decode_encode (p := p) (i := .cfgdir .clk .input) rfl, decode_encode (p := p) (i := .cfgdir .en .inputPullup) rfl⟩,
    fun i => exec_cfgdir_bus i .input s, fun i => exec_cfgdir_bus i .output s,
    exec_cfgdir_next.2 (.inr (.inl ⟨rfl, rfl, rfl⟩)), exec_cfgdir_next.2 (.inr (.inr ⟨rfl, rfl, rfl⟩)),
    fun _ _ h => exec_cfgdir_of_not_legal (mt legalCfg_iff.1 h) s⟩

/-! ### RDLVL -/

/-- A level that is no draw is the answer, and takes no draw (R83, R24). -/
theorem readLevel_answer {ln : Line} {s : State} {c : Level} (h : s.level ln = some c) :
    (readLevel ln s).1 = c ∧ s.draws + drawsOf s ln = s.draws :=
  ⟨readLevel_fst h, by simp [drawsOf, h]⟩

/-- RDLVL refuses the lines R59 does not list (R81). -/
theorem exec_rdlvl_of_not_readable {ln : Line} (h : ¬ (ln = .en ∨ ∃ i, ln = .bus i)) (s : State) :
    exec (.rdlvl ln) s = .refused .reservedRequest := by
  cases ln with
  | bus i => exact absurd (.inr ⟨i, rfl⟩) h
  | en => exact absurd (.inl rfl) h
  | clk | reserved => rfl

/-- Settles O14: a read changes the record and the number of draws, and takes a draw only where there is no level. -/
theorem readLevelRequest : Obligations.ReadLevelRequest := by
  refine fun s => ⟨fun p => ⟨fun i => ?_, decode_encode (p := p) (i := .rdlvl .en) rfl⟩, fun ln hln => ?_,
    fun ln h => exec_rdlvl_of_not_readable h s⟩
  · rw [← encode_rdlvl_bus]
    exact decode_encode (i := .rdlvl (.bus i)) rfl
  · exact ⟨_, _, exec_rdlvl_next.2 ⟨hln, (readLevel_state ln s).symm⟩, fun _ h => readLevel_answer h⟩

/-! ### WRLVL -/

/-- The latch of an input line does not show on the pin (R24, R84, D14). -/
theorem busLevel_input (latch latch' : Level) (x : Drive) : busLevel .input latch x = busLevel .input latch' x := by
  cases x <;> rfl

/-- A bus line in mode `IN` has the level it had before WRLVL (R84). -/
theorem writeLevel_level_of_input {s : State} {i : Fin 8} (hm : s.mode.get i = .input) (b : Level) :
    (writeLevel i b s).level (.bus i) = s.level (.bus i) := by
  simp only [State.level, writeLevel, State.addCall_mode, State.setOlat_mode, State.addCall_xBus, State.setOlat_xBus, hm]
  exact busLevel_input _ _ _

/-- A bus line in mode `OUT` that nothing drives from outside takes the level written (R84). -/
theorem writeLevel_level_of_output {s : State} {i : Fin 8} (hm : s.mode.get i = .output) (hx : s.xBus.get i = .z) (b : Level) :
    (writeLevel i b s).level (.bus i) = some b := by
  rw [level_bus_of_output (by simpa [writeLevel] using hm) (by simpa [writeLevel] using hx)]
  simp [writeLevel]

/-- WRLVL refuses every line that is no bus line (R81). -/
theorem exec_wrlvl_of_not_bus {ln : Line} (h : ∀ i, ln ≠ .bus i) (b : Bit) (s : State) :
    exec (.wrlvl ln b) s = .refused .reservedRequest := by
  cases ln with
  | bus i => exact absurd rfl (h i)
  | clk | en | reserved => rfl

/-- Settles O16: the latch is set and the mode is not, so what the pin shows depends on the mode. -/
theorem writeLevelRequest : Obligations.WriteLevelRequest := by
  refine fun s b => ⟨fun p i => ?_, fun i => ?_, fun ln h => exec_wrlvl_of_not_bus h b s⟩
  · rw [← encode_wrlvl_bus]
    exact decode_encode (i := .wrlvl (.bus i) b) rfl
  · exact ⟨writeLevel i b s, exec_wrlvl_next.2 ⟨i, rfl, rfl⟩, rfl, fun _ => Lines.get_set _ _ _ _,
      fun hm hx => writeLevel_level_of_output hm hx b, fun hm => writeLevel_level_of_input hm b⟩

/-! ### TRPUT -/

/-- The legal column of R60. -/
theorem legalTraceByte_iff {nl : List Byte} {b : Byte} :
    legalTraceByte nl b = true ↔
      b ∈ ([0x30, 0x31, 0x20, 0x77, 0x72, 0x52, 0x55, 0x4E, 0x49, 0x47] : List Byte) ∨ b ∈ nl := by
  simp only [legalTraceByte, Bool.or_eq_true, List.contains_iff_mem]

theorem decodeT_of_not_legal {nl : List Byte} {b : Byte} (h : ¬ legalTraceByte nl b = true) :
    decodeT nl b = .error .reservedByte :=
  if_neg h

theorem exec_trput_of_not_legal {s : State} {b : Byte} (h : ¬ legalTraceByte s.params.nl b = true) :
    exec (.trput b) s = .refused .reservedWord :=
  if_neg h

/-- Settles O17: the decoder and the operation ask the same question of the byte (log 20). -/
theorem putByteRequest : Obligations.PutByteRequest := by
  intro s b
  rw [← legalTraceByte_iff]
  exact ⟨fun h => ⟨decode_encode (p := s.params) (i := .trput b) h, exec_trput_next.2 ⟨h, rfl⟩⟩,
    fun h => ⟨decodeT_of_not_legal h, exec_trput_of_not_legal h⟩⟩

end Sys2Proof.Machine
end

section
/-! The environment's operation ENV.SET (43_environment.md R90 to R92): its answer on each line. -/

namespace Sys2Proof.Machine

/-! ### A bus line, the enable line and the reserved acts -/

/-- Settles O19: the arm of each line, and `Lines.get_set` for the bus. -/
theorem environmentSetsOneLine : Obligations.EnvironmentSetsOneLine :=
  fun s x => ⟨fun i => ⟨setBusLine i x s, rfl, rfl, fun _ => Lines.get_set _ _ _ _⟩, rfl, rfl, fun _ => rfl⟩

/-! ### The clock line -/

/-- A rising edge after start-up, none pending, becomes pending, and the bus is noted (R92; log 28). -/
theorem setClock_of_edge {s : State} (hr : s.run = true) (hclk : s.xClk = false) (hp : s.pend = false) :
    setClock true s = .next { s with xClk := true, pend := true, edgeBus := some s.xBus } := by
  simp [setClock, risingEdge, hr, hclk, hp, State.setXClk, State.setPend, State.setEdgeBus]

/-- A rising edge after start-up while one is pending is refused (R105). -/
theorem setClock_of_overrun {s : State} (hr : s.run = true) (hclk : s.xClk = false) (hp : s.pend = true) :
    setClock true s = .refused .edgeOverrun := by
  simp [setClock, risingEdge, hr, hclk, hp]

/-- Every other setting of the clock changes the line only (R90, R116). -/
theorem setClock_of_not_edge {b : Level} {s : State} (h : ¬ (s.run = true ∧ s.xClk = false ∧ b = true)) :
    setClock b s = .next { s with xClk := b } := by
  obtain ⟨t, ht⟩ := setClock_exists fun ⟨hr, hclk, hb, _⟩ => h ⟨hr, hclk, hb⟩
  obtain ⟨hr, hclk, hb, _⟩ | ⟨_, rfl⟩ := setClock_cases ht
  · exact absurd ⟨hr, hclk, hb⟩ h
  · exact ht

/-- Settles O20: a rising edge after start-up, with none or one pending, and every other setting of the clock. -/
theorem risingClockEdgeBecomesPending : Obligations.RisingClockEdgeBecomesPending := by
  refine fun s => ⟨setClock_of_edge, setClock_of_overrun, fun hr => setClock_of_not_edge (by simp [hr]), fun hclk => ?_,
    setClock_of_not_edge (by simp)⟩
  have hsame : { s with xClk := true } = s := by rw [← hclk]
  exact (setClock_of_not_edge (by simp [hclk])).trans (congrArg _ hsame)

end Sys2Proof.Machine
end

section
/-! The record of the bus since an edge (43_environment.md R93, 70_reset_and_hazards.md R124; log 28): its invariant, and that
along a run it says whether EO3 has been kept. -/

namespace Sys2Proof.Machine

/-! ### The invariant of the record -/

theorem edgeBusInv_of_none {s : State} (h : s.edgeBus = none) : s.edgeBusInv := by
  intro x hx
  simp [h] at hx

/-- The invariant of the record reads these elements only. -/
theorem edgeBusInv_congr {s t : State} (hrun : t.run = s.run) (hpend : t.pend = s.pend) (hxBus : t.xBus = s.xBus)
    (hedge : t.edgeBus = s.edgeBus) : t.edgeBusInv ↔ s.edgeBusInv := by
  simp only [State.edgeBusInv, hrun, hpend, hxBus, hedge]

/-- A rising edge begins the record while `RUN = 1` and makes itself pending; another setting of the clock writes nothing the
invariant speaks of. -/
theorem setClock_edgeBusInv {b : Level} {s t : State} (hinv : s.edgeBusInv) (h : setClock b s = .next t) : t.edgeBusInv := by
  obtain ⟨hr, _, _, _, rfl⟩ | ⟨_, rfl⟩ := setClock_cases h
  · exact fun _ hx => ⟨hr, rfl, Option.some.inj hx⟩
  · exact (edgeBusInv_congr rfl rfl rfl rfl).2 hinv

theorem exec_envSet_edgeBusInv {l : Line} {x : Drive} {s t : State} (hinv : s.edgeBusInv)
    (h : exec (.envSet l x) s = .next t) : t.edgeBusInv := by
  obtain ⟨_, _, rfl⟩ | ⟨_, rfl⟩ | ⟨_, _, e⟩ | ⟨_, _, e⟩ := exec_envSet_next.1 h
  · exact edgeBusInv_of_none rfl
  · exact (edgeBusInv_congr rfl rfl rfl rfl).2 hinv
  · exact setClock_edgeBusInv hinv e
  · exact setClock_edgeBusInv hinv e

/-- INIT and a service end the record, ENV.SET writes it as the invariant asks, and no other operation writes what it speaks
of. -/
theorem exec_edgeBusInv {i : Instr} {s t : State} (hinv : s.edgeBusInv) (h : exec i s = .next t) : t.edgeBusInv := by
  by_cases hinit : ∃ a b, i = .init a b
  · obtain ⟨a, b, rfl⟩ := hinit
    obtain ⟨_, rfl⟩ := exec_init_next.1 h
    exact edgeBusInv_of_none (by simp [startUp_eq])
  by_cases henv : ∃ l x, i = .envSet l x
  · obtain ⟨l, x, rfl⟩ := henv
    exact exec_envSet_edgeBusInv hinv h
  cases heh : i.byEdgeHandler with
  | true =>
    obtain ⟨_, hedge⟩ := exec_byEdgeHandler_pend heh h
    exact edgeBusInv_of_none hedge
  | false =>
    simp only [not_exists] at hinit henv
    obtain ⟨hrun, -, -, -, -, -, hx, hpend, -, -, hedge, -⟩ := everyElementHasItsWritersOnly i s t h
    obtain ⟨hxBus, _⟩ := hx henv
    exact (edgeBusInv_congr (hrun hinit) (hpend hinit (henv .clk) heh) hxBus (hedge hinit henv heh)).2 hinv

theorem step_edgeBusInv {s t : State} (hinv : s.edgeBusInv) (h : step s = .next t) : t.edgeBusInv := by
  obtain ⟨i, u, hf, hx⟩ := step_next_iff.1 h
  obtain ⟨hrun, hpend, -, hxBus, hedge⟩ := fetch_eq hf
  exact exec_edgeBusInv ((edgeBusInv_congr hrun hpend hxBus hedge).2 hinv) hx

/-! ### The record along a run -/

/-- While an edge waits, EO3 forbids ENV.SET on a bus line and nothing else (R93). -/
theorem busHeld_iff_of_waiting {i : Instr} {s : State} (hr : s.run = true) (hp : s.pend = true) :
    busHeld i s ↔ ¬ ∃ ln x, i = .envSet (.bus ln) x := by
  simp [busHeld, hr, hp]

/-- The first of `k + 1` steps, and the `k` after it. -/
theorem exists_step_of_run_succ {k : Nat} {e s : State} (h : Sys2Proof.core.run (k + 1) e = .next s) :
    ∃ t, step e = .next t ∧ Sys2Proof.core.run k t = .next s := by
  simp only [Host.Core.run] at h
  split at h
  next t ht => exact ⟨t, ht, h⟩
  next => cases h
  next => cases h

/-- Steps without a service, from a state with an edge pending, leave the record alone if EO3 is kept and end it if not: an
ENV.SET on a bus line ends the record, and no later step before the service can write it again. -/
theorem edgeBus_of_waiting {k : Nat} {e s : State} (hr : e.run = true) (hp : e.pend = true)
    (h : Sys2Proof.core.run k e = .next s) (hw : EdgeWaitsFor k e) :
    (BusHeldFor k e → s.edgeBus = e.edgeBus) ∧ (¬ BusHeldFor k e → s.edgeBus = none) := by
  induction k generalizing e with
  | zero =>
    cases h
    exact ⟨fun _ => rfl, fun hn => absurd (fun j hj => absurd hj (Nat.not_lt_zero j)) hn⟩
  | succ k ih =>
    obtain ⟨t, hstep, hrest⟩ := exists_step_of_run_succ h
    obtain ⟨i, u, hf, hx⟩ := step_next_iff.1 hstep
    obtain ⟨hi, hw'⟩ := (EachStepFor.succ_iff hf hx).1 hw
    have hheld : BusHeldFor (k + 1) e ↔ busHeld i e ∧ BusHeldFor k t := EachStepFor.succ_iff hf hx
    rw [hheld, busHeld_iff_of_waiting hr hp]
    obtain ⟨hru, hpu, -, -, hedge⟩ := fetch_eq hf
    obtain ⟨hr', hp', hrecord⟩ := exec_waiting (hru.trans hr) (hpu.trans hp) hi hx
    obtain ⟨hkept, hended⟩ := ih hr' hp' hrest hw'
    obtain ⟨hmove, ht⟩ | ⟨hstill, -, ht⟩ := hrecord
    · refine ⟨fun ⟨hstill, _⟩ => absurd hmove hstill, fun _ => ?_⟩
      by_cases hb : BusHeldFor k t
      · rw [hkept hb, ht]
      · exact hended hb
    · exact ⟨fun ⟨_, hb⟩ => (hkept hb).trans (ht.trans hedge), fun hn => hended fun hb => hn ⟨hstill, hb⟩⟩

/-- A rising edge leaves itself pending and the bus noted as it stands (R92; log 28). -/
theorem EdgeArrives.waiting {d e : State} (h : EdgeArrives d e) :
    e.run = true ∧ e.pend = true ∧ e.edgeBus = some d.xBus := by
  obtain ⟨hstep, ⟨u, hf⟩, hr, hclk, hp⟩ := h
  obtain ⟨hru, hpu, hclku, hxu, -⟩ := fetch_eq hf
  have he : setClock true u = .next e := by simpa only [step, hf, exec, execEnvSet] using hstep
  rw [setClock_of_edge (hru.trans hr) (hclku.trans hclk) (hpu.trans hp)] at he
  cases he
  exact ⟨hru.trans hr, rfl, congrArg some hxu⟩

/-- Settles O21: `step_edgeBusInv`, and `edgeBus_of_waiting` from the state that the edge leaves. -/
theorem edgeBusRecordIsBusStability : Obligations.EdgeBusRecordIsBusStability := by
  refine ⟨fun s t => step_edgeBusInv, fun d e s k hd h hw => ?_⟩
  obtain ⟨hr, hp, hnoted⟩ := hd.waiting
  obtain ⟨hkept, hended⟩ := edgeBus_of_waiting hr hp h hw
  exact ⟨fun hb => (hkept hb).trans hnoted, hended⟩

end Sys2Proof.Machine
end

section
/-! The enable line (43_environment.md R91): what MC.SAMPLE sees of it, and that no other operation of an agent reads it. -/

namespace Sys2Proof.Machine

/-! ### The sample -/

/-- With the pull-up on, the enable line is low exactly where the outside drives it low (R24). -/
theorem enableLevel_pullUp (x : Drive) : enableLevel true x = some (x != .d0) := by cases x <;> rfl

/-- ENV.SET on the enable line, then MC.SAMPLE (R66, R91). -/
theorem execAll_setEnable_mcSample {s : State} (x : Drive) (hr : s.run = true) (hm : s.mcs = .idle) (hpu : s.enpu = true) :
    ∃ t, execAll [.envSet .en x, .mcSample false s.dir] s = .next t ∧ t.mcs = .sampled (x == .d0) := by
  have hl : (s.setXEn x).level .en = some (x != .d0) := by
    rw [← enableLevel_pullUp, ← hpu]; rfl
  have hset : exec (.envSet .en x) s = .next (s.setXEn x) := rfl
  have hsample := exec_mcSample_of_level (s := s.setXEn x) hr hm hl
  exact ⟨_, by rw [execAll_cons hset]; exact execAll_cons hsample, by simp [bne]⟩

/-! ### Every other operation -/

/-- The answer with the enable line given the drive `x` in its next state, if it has one. -/
def withEnable (x : Drive) (a : Out) : Out := andThen a fun t => .next (t.setXEn x)

@[simp] theorem withEnable_next (x : Drive) (t : State) : withEnable x (.next t) = .next (t.setXEn x) := rfl

@[simp] theorem withEnable_refused (x : Drive) (r : Refusal) : withEnable x (.refused r) = .refused r := rfl

/-- A guard and an effect that do not look at the enable line. -/
theorem requires_setXEn {x : Drive} {c : Bool} {s t : State} (h : t = s.setXEn x) : requires c t = withEnable x (requires c s) := by
  subst h
  cases c <;> rfl

theorem setClock_setXEn (b : Level) (x : Drive) (s : State) : setClock b (s.setXEn x) = withEnable x (setClock b s) := by
  by_cases hedge : s.run = true ∧ s.xClk = false ∧ b = true
  · obtain ⟨hr, hclk, rfl⟩ := hedge
    cases hp : s.pend with
    | false => rw [setClock_of_edge hr hclk hp, setClock_of_edge (s := s.setXEn x) hr hclk hp]; rfl
    | true => rw [setClock_of_overrun hr hclk hp, setClock_of_overrun (s := s.setXEn x) hr hclk hp]; rfl
  · rw [setClock_of_not_edge hedge, setClock_of_not_edge (s := s.setXEn x) hedge]; rfl

theorem sampleBus_setXEn (x : Drive) (s : State) : sampleBus (s.setXEn x) = ((sampleBus s).1, (sampleBus s).2.setXEn x) := by
  obtain ⟨n, calls, h⟩ := sampleBus_state s
  have hlines := readLines_with busOrder (Lines.fill false) s x s.trace
  simp only [sampleBus] at h ⊢
  simp [State.setXEn, hlines, h]

/-- An operation of an agent that is neither MC.SAMPLE nor ENV.SET on the enable line answers the same whatever drives that
line (R91). -/
theorem exec_setXEn {i : Instr} (hi : i.isOperation = true) (hsample : ∀ a b, i ≠ .mcSample a b) (hen : ∀ y, i ≠ .envSet .en y)
    (x : Drive) (s : State) : exec i (s.setXEn x) = withEnable x (exec i s) := by
  cases i with
  | init => exact requires_setXEn (by simp [startUp_eq, State.setXEn])
  | mcSample a b => exact absurd rfl (hsample a b)
  | mcCommitNopSense | mcCommitNopDrive => exact requires_setXEn rfl
  | mcCommitDrv | mcCommitSns => exact requires_setXEn (by simp [commitTurn_eq, State.setXEn])
  | ehR => exact requires_setXEn (by rw [handleRead_interruptEntry, handleRead_interruptEntry, sampleBus_setXEn]; rfl)
  | ehW => exact requires_setXEn (by rw [handleWrite_interruptEntry, handleWrite_interruptEntry]; rfl)
  | mcCfg =>
    cases hg : s.params.granularity with
    | group => rw [exec_mcCfg_of_group hg, exec_mcCfg_of_group (s := s.setXEn x) hg, withEnable_refused]
    | perLine =>
      rw [exec_mcCfg_of_perLine hg, exec_mcCfg_of_perLine (s := s.setXEn x) hg]
      exact requires_setXEn rfl
  | mcFlag =>
    cases hg : s.params.granularity with
    | group => rw [exec_mcFlag_of_group hg, exec_mcFlag_of_group (s := s.setXEn x) hg, withEnable_refused]
    | perLine =>
      rw [exec_mcFlag_of_perLine hg, exec_mcFlag_of_perLine (s := s.setXEn x) hg]
      exact requires_setXEn rfl
  | cfgdir | rdlvl | wrlvl | trput => simp [Instr.isOperation, Instr.iface] at hi
  | envSet l y =>
    cases l with
    | bus | reserved => rfl
    | en => exact absurd rfl (hen y)
    | clk =>
      cases y with
      | z => rfl
      | d0 => exact setClock_setXEn false x s
      | d1 => exact setClock_setXEn true x s

/-- Settles O27: the sample after ENV.SET on the enable line, and `exec_setXEn` for every other operation. -/
theorem enableLineIsSeenBySampleOnly : Obligations.EnableLineIsSeenBySampleOnly := by
  refine fun s x => ⟨rfl, fun hr hm hpu => ?_, fun i hi hsample hen => ?_⟩
  · obtain ⟨t, ht, hmcs⟩ := execAll_setEnable_mcSample x hr hm hpu
    exact ⟨t, ht, by rw [hmcs]; cases x <;> rfl⟩
  · have hsame : exec i { s with xEn := x } = withEnable x (exec i s) := exec_setXEn hi hsample hen x s
    exact ⟨fun t h => by rw [hsame, h, withEnable_next]; rfl, fun r h => by rw [hsame, h, withEnable_refused]⟩

end Sys2Proof.Machine
end

section
/-! The bus as an output (43_environment.md R94): what it shows after a write service, and what reading it back answers. -/

namespace Sys2Proof.Machine

/-- Outside a turn line by line, a write service finds every line an output (R25, R75). -/
theorem mode_output_of_exec_ehW {s t : State} {sb : Bit} (hinv : s.directionInv) (hm : ∀ b k, s.mcs ≠ .cfg b k)
    (h : exec (.ehW sb) s = .next t) (i : Fin 8) : s.mode.get i = .output := by
  obtain ⟨⟨hr, _, hd, _⟩, _⟩ := exec_ehW_next.1 h
  obtain ⟨ha, _⟩ := hinv hr
  rw [(directionsAgree_iff_of_not_cfg hm).1 ha i, hd]
  rfl

/-- Settles O56: every line is an output that nothing else drives, so it shows its latch, which the service has written. -/
theorem drivenBusShowsTheCounter : Obligations.DrivenBusShowsTheCounter := by
  intro s t sb hinv hm hfree h i
  have hout := mode_output_of_exec_ehW hinv hm h i
  obtain ⟨_, rfl⟩ := exec_ehW_next.1 h
  rw [handleWrite_interruptEntry, level_bus_of_output, linesOfByte_get]
  · exact hout
  · exact hfree i hout

/-- A bus that shows a value is sampled as that value, and the sample changes the record of requests only (R77, R83). -/
theorem sampleBus_of_busShows {s : State} {v : Byte} (h : s.busShows v) :
    sampleBus s = (v, { s with gpio := s.gpio ++ busOrder.map fun i => .rdlvl (.bus i) (busBit v i) }) := by
  have hvalue : (sampleBus s).1 = v := byte_ext_busBit fun i => sampleBus_bit (h i)
  have hdraws : (sampleBus s).2.draws = s.draws := sampleBus_draws_of_levels fun i => by simp [h i]
  have hgpio := sampleBus_gpio s
  obtain ⟨n, calls, hstate⟩ := sampleBus_state s
  rw [hstate] at hdraws
  rw [hvalue, hstate] at hgpio
  refine Prod.ext hvalue ?_
  rw [hstate, ← hgpio, ← hdraws]

/-- Settles O57: the eight reads are the sample of a bus that shows the counter. -/
theorem drivenBusReadsBackTheCounter : Obligations.DrivenBusReadsBackTheCounter := by
  intro s t sb hinv hm hfree h
  have hshows : t.busShows t.cnt := drivenBusShowsTheCounter s t sb hinv hm hfree h
  have hsample := congrArg Prod.snd (sampleBus_of_busShows hshows)
  exact (execAll_rdlvl busOrder (Lines.fill false) t).trans (congrArg _ hsample)

end Sys2Proof.Machine
end

section
/-! The marks of a step (60_exceptions.md R106): the fetch refuses a reserved word or a turn nobody can take, and each operation
refuses with the marks of its own guard. -/

namespace Sys2Proof.Machine

/-! ### The refusals of the operations -/

/-- CFGDIR's only refusal is of the pairs R59 does not list (R82). -/
theorem exec_cfgdir_refused {ln : Line} {md : PinMode} {s : State} {r : Refusal} (h : exec (.cfgdir ln md) s = .refused r) :
    r = .reservedRequest := by
  have hl : ¬ legalCfg ln md = true := by
    intro hl
    obtain ⟨⟨i, rfl⟩, rfl | rfl⟩ | ⟨rfl, rfl⟩ | ⟨rfl, rfl⟩ := legalCfg_iff.1 hl <;> cases h
  rw [exec_cfgdir_of_not_legal hl] at h
  cases h
  rfl

/-- RDLVL's only refusal is of the lines R59 does not list (R81). -/
theorem exec_rdlvl_refused {ln : Line} {s : State} {r : Refusal} (h : exec (.rdlvl ln) s = .refused r) :
    r = .reservedRequest := by
  cases ln <;> cases h <;> rfl

/-- WRLVL's only refusal is of the lines R59 does not list (R81). -/
theorem exec_wrlvl_refused {ln : Line} {b : Bit} {s : State} {r : Refusal} (h : exec (.wrlvl ln b) s = .refused r) :
    r = .reservedRequest := by
  cases ln <;> cases h <;> rfl

theorem exec_trput_refused {b : Byte} {s : State} {r : Refusal} (h : exec (.trput b) s = .refused r) : r = .reservedWord := by
  by_cases hb : legalTraceByte s.params.nl b = true
  · rw [exec_trput_next.2 ⟨hb, rfl⟩] at h
    cases h
  · rw [exec_trput_of_not_legal hb] at h
    cases h
    rfl

/-- The clock's only refusal is the overrun (R105). -/
theorem setClock_refused {b : Level} {s : State} {r : Refusal} (h : setClock b s = .refused r) : r = .edgeOverrun := by
  unfold setClock at h
  split_ifs at h
  cases h
  rfl

/-- ENV.SET refuses an overrun, and the acts that have no legal word (R61, R92; log 20). -/
theorem exec_envSet_refused {ln : Line} {x : Drive} {s : State} {r : Refusal} (h : exec (.envSet ln x) s = .refused r) :
    r = .edgeOverrun ∨ r = .reservedWord := by
  cases ln with
  | bus | en => cases h
  | reserved => cases h; exact .inr rfl
  | clk => cases x with
    | z => cases h; exact .inr rfl
    | d0 | d1 => exact .inl (setClock_refused h)

/-- MC.CFG and MC.FLAG have no legal word under `group` and are guarded under `per_line` (R62, R72, R73). -/
theorem perLineGuard_refused {g : Granularity} {c : Bool} {t : State} {r : Refusal}
    (h : (if g = .perLine then requires c t else .refused .reservedWord) = .refused r) : r = .reservedWord ∨ r = .notEnabled := by
  split at h
  · exact .inr (requires_eq_refused.1 h).2
  · cases h
    exact .inl rfl

/-- The marks an operation can give: only a request to the GPIO bank is a reserved request (R81, R106). -/
theorem exec_refused {i : Instr} {s : State} {r : Refusal} (h : exec i s = .refused r) :
    r = .edgeOverrun ∨ r = .reservedWord ∨ r = .notEnabled ∨ (r = .reservedRequest ∧ i.iface = .p) := by
  cases i with
  | init | mcSample | mcCommitNopSense | mcCommitNopDrive | mcCommitDrv | mcCommitSns | ehR | ehW =>
    exact .inr (.inr (.inl (requires_eq_refused.1 h).2))
  | mcCfg | mcFlag => exact .inr ((perLineGuard_refused h).imp_right .inl)
  | cfgdir => exact .inr (.inr (.inr ⟨exec_cfgdir_refused h, rfl⟩))
  | rdlvl => exact .inr (.inr (.inr ⟨exec_rdlvl_refused h, rfl⟩))
  | wrlvl => exact .inr (.inr (.inr ⟨exec_wrlvl_refused h, rfl⟩))
  | trput => exact .inr (.inl (exec_trput_refused h))
  | envSet => exact (exec_envSet_refused h).imp_right .inl

/-! ### The refusals of the step -/

/-- The fetch refuses a reserved word, or a turn in which nothing is enabled (R62). -/
theorem fetch_error {s : State} {r : Refusal} (h : fetch s = .error r) : r = .reservedWord ∨ r = .notEnabled := by
  unfold fetch at h
  split at h <;> split at h <;> cases h
  · exact .inl rfl
  · exact .inr rfl

theorem step_refused_iff {s : State} {r : Refusal} :
    step s = .refused r ↔ fetch s = .error r ∨ ∃ i u, fetch s = .ok (i, u) ∧ exec i u = .refused r := by
  unfold step
  cases fetch s with
  | error e => simp
  | ok a => exact ⟨fun h => .inr ⟨a.1, a.2, rfl, h⟩, by rintro (h | ⟨_, _, h, hx⟩) <;> cases h; exact hx⟩

/-- A request to the GPIO bank is fetched from a word on the bank's interface: the free schedule makes none (R57; log 7). -/
theorem script_of_fetch_request {s u : State} {i : Instr} (h : fetch s = .ok (i, u)) (hi : i.iface = .p) :
    ∃ q rest, s.script = q :: rest ∧ q.iface = .p := by
  cases hs : s.script with
  | nil =>
    have hop := fetch_isOperation (s := s) (by simp [State.operationsOnly, hs]) h
    simp [Instr.isOperation, hi] at hop
  | cons q rest =>
    simp only [fetch, hs] at h
    split at h
    next j hd =>
      cases h
      exact ⟨q, rest, rfl, (decode_iface hd).symm.trans hi⟩
    next => cases h

/-- Settles O30: the marks of the fetch and those of the operation fetched. -/
theorem marksAreTheClosedList : Obligations.MarksAreTheClosedList := by
  intro s r h
  obtain hf | ⟨i, u, hf, hx⟩ := step_refused_iff.1 h
  · exact .inr ((fetch_error hf).imp_right .inl)
  · exact (exec_refused hx).imp_right (.imp_right (.imp_right fun ⟨hr, hi⟩ => ⟨hr, script_of_fetch_request hf hi⟩))

end Sys2Proof.Machine
end

section
/-! The step and the run of the free schedule (60_exceptions.md R100, R105, R113; log 6): the operation it takes in each state, and
that it goes on without a mark while edges are spaced. -/

namespace Sys2Proof.Machine

theorem fetch_of_scheduled {s : State} {i : Instr} (hs : s.script = []) (hi : scheduled s = some i) :
    fetch s = .ok (i, s.nextTick) := by
  simp [fetch, hs, hi]

theorem step_of_scheduled {s : State} {i : Instr} (hs : s.script = []) (hi : scheduled s = some i) :
    step s = exec i s.nextTick := by
  simp [step, fetch_of_scheduled hs hi]

/-! ### Runs -/

theorem operationsOnly_of_script_nil {s : State} (hs : s.script = []) : s.operationsOnly := by
  simp [State.operationsOnly, hs]

/-- Settles O46, by induction on the number of steps: the first completes (O45) and keeps the invariant (O40) and the empty
schedule. -/
theorem runsWithSpacedEdgesCarryNoMark : Obligations.RunsWithSpacedEdgesCarryNoMark := by
  intro k
  induction k with
  | zero => exact fun s _ _ _ => ⟨s, rfl⟩
  | succ k ih =>
    intro s hs hinv hspaced
    obtain ⟨t, ht⟩ := freeScheduleIsNeverRefused s hs hinv fun i hi =>
      hspaced 0 (Nat.succ_pos k) s rfl i s.nextTick (fetch_of_scheduled hs hi)
    obtain ⟨i, u, hf, hx⟩ := step_next_iff.1 ht
    obtain ⟨_, hspaced'⟩ := (EachStepFor.succ_iff hf hx).1 hspaced
    have hs' : t.script = [] := by simp [step_script ht, hs]
    have hinv' := stepKeepsDirections s t (operationsOnly_of_script_nil hs) hinv ht
    obtain ⟨v, hv⟩ := ih t hs' hinv' hspaced'
    have hstep : Sys2Proof.core.step s = .next t := ht
    exact ⟨v, by simpa only [Host.Core.run, hstep] using hv⟩

/-! ### The operation of each turn -/

theorem mcNext_of_idle {s : State} (hr : s.run = true) (hm : s.mcs = .idle) : mcNext s = some (.mcSample false s.dir) := by
  simp [mcNext, hr, hm, State.held]

/-- A sample is committed at once under `group` or where nothing changes, and line by line otherwise (R65). -/
theorem mcNext_of_sampled {s : State} {sb : Bit} (hr : s.run = true) (hm : s.mcs = .sampled sb) :
    mcNext s = some (if sb = s.dir ∨ s.params.granularity = .group then commitVariant sb s.dir else .mcCfg 0 sb s.dir) := by
  by_cases hsb : sb = s.dir
  · simp [mcNext, hr, hm, hsb]
  · cases hg : s.params.granularity <;> simp [mcNext, hr, hm, hsb, hg]

/-- A turn line by line goes on with the next line, and ends with the flag (R65). -/
theorem mcNext_of_cfg {s : State} {sb : Bit} {k : Nat} (hr : s.run = true) (hm : s.mcs = .cfg sb k) (ha : s.directionsAgree) :
    mcNext s = some (if h : k < 8 then .mcCfg ⟨k, h⟩ sb s.dir else .mcFlag sb s.dir) := by
  obtain ⟨hg, hk1, hk8, _, _⟩ := (directionsAgree_iff_of_cfg hm).1 ha
  by_cases hk : k < 8
  · simp [mcNext, hr, hm, hg, hk, hk1, Nat.ne_of_lt hk]
  · obtain rfl : k = 8 := by omega
    simp [mcNext, hr, hm, hg]

theorem edgeVariant_eq_ite (sb db : Bit) : edgeVariant sb db = if db then .ehW sb else .ehR sb := by cases db <;> rfl

/-- A turn of the block before start-up is INIT (R113). -/
theorem chosen_of_not_run {a : Agent} (e : EnvAct) {s : State} (ha : a ≠ .environment) (hr : s.run = false) :
    chosen a e s = some (.init false false) := by
  cases a with
  | environment => exact absurd rfl ha
  | edgeHandler => simp [chosen, ehNext, blockNext, hr]
  | modeController => simp [chosen, blockNext, hr]

/-- The Edge Handler's turn with an edge pending is the service the flag selects (R75). -/
theorem chosen_of_pending (e : EnvAct) {s : State} (hr : s.run = true) (hp : s.pend = true) :
    chosen .edgeHandler e s = some (edgeVariant s.held s.dir) := by
  simp [chosen, ehNext, hr, hp]

/-- Every other turn of the block is the Mode Controller's (R100). -/
theorem chosen_eq_mcNext {a : Agent} (e : EnvAct) {s : State} (ha : a ≠ .environment) (hr : s.run = true)
    (hp : ¬ (a = .edgeHandler ∧ s.pend = true)) : chosen a e s = mcNext s := by
  cases a with
  | environment => exact absurd rfl ha
  | edgeHandler =>
    have hp' : s.pend = false := by simpa using hp
    simp [chosen, ehNext, blockNext, hr, hp']
  | modeController => simp [chosen, blockNext, hr]

/-- Settles O29: one lemma per turn names the operation, and `step_of_scheduled` takes it. -/
theorem stepFollowsTheFreeSchedule : Obligations.StepFollowsTheFreeSchedule := by
  intro s hs hinv
  rw [← State.nextTick]
  by_cases hagent : Config.freeAgent s.ticks = .environment
  · rw [if_pos hagent]
    exact step_of_scheduled hs (by rw [scheduled, hagent]; rfl)
  rw [if_neg hagent]
  cases hr : s.run with
  | false => exact step_of_scheduled hs (chosen_of_not_run _ hagent hr)
  | true =>
    obtain ⟨ha, _⟩ := hinv hr
    rw [if_neg (by decide)]
    by_cases hservice : Config.freeAgent s.ticks = .edgeHandler ∧ s.pend = true
    · rw [if_pos hservice, ← edgeVariant_eq_ite]
      obtain ⟨heh, hp⟩ := hservice
      exact step_of_scheduled hs (by rw [scheduled, heh]; exact chosen_of_pending _ hr hp)
    rw [if_neg hservice]
    have hmc : scheduled s = mcNext s := chosen_eq_mcNext _ hagent hr hservice
    cases hm : s.mcs with
    | idle => exact step_of_scheduled hs (hmc.trans (mcNext_of_idle hr hm))
    | sampled sb =>
      rw [step_of_scheduled hs (hmc.trans (mcNext_of_sampled hr hm))]
      cases sb <;> cases s.dir <;> simp [commitVariant]
    | cfg sb k => exact step_of_scheduled hs (hmc.trans (mcNext_of_cfg hr hm ha))

end Sys2Proof.Machine
end

section
/-! Start-up (70_reset_and_hazards.md section 1): the power-on state, and what INIT leaves. -/

namespace Sys2Proof.Machine

/-! ### Power-on -/

/-- Before start-up the invariant of the directions says nothing (R12, R25). -/
theorem directionInv_of_not_run {s : State} (hr : s.run = false) : s.directionInv := by
  simp [State.directionInv, hr]

/-- Before start-up the history is the empty trace (R22). -/
theorem traceInv_of_not_run {s : State} (hr : s.run = false) (htrace : s.trace = []) : s.traceInv := by
  simp [State.traceInv, hr, htrace]

/-- Settles O44: at power-on no word is scheduled, `RUN` is 0, the trace is empty and no edge is noted. -/
theorem invariantsHoldAtPowerOn : Obligations.InvariantsHoldAtPowerOn := by
  intro p
  have htrace : { State.reset with params := p }.traceInv := traceInv_of_not_run rfl rfl
  exact ⟨operationsOnly_of_script_nil rfl, directionInv_of_not_run rfl, htrace, htrace.counterInv, edgeBusInv_of_none rfl⟩

/-! ### INIT -/

/-- Settles O1: the effect of INIT, with the banner and the ten requests written out. -/
theorem startUpLeavesResetTable : Obligations.StartUpLeavesResetTable := by
  refine fun s sb db => ⟨fun p => decode_encode (p := p) (i := .init sb db) rfl, fun hr => ?_,
    fun hr => requires_of_not (by simp [hr])⟩
  refine ⟨startUp s, exec_init_next.2 ⟨hr, rfl⟩, ?_, fun i => ?_⟩
  · rw [startUp_eq, List.append_assoc]
    rfl
  · rw [startUp_eq]
    exact ⟨Lines.get_fill _ i, linesOfByte_get _ i⟩

/-- Settles O2: INIT is enabled at power-on, appends the banner to an empty trace and leaves `X` alone. -/
theorem startUpFromPowerOnGivesBanner : Obligations.StartUpFromPowerOnGivesBanner := by
  intro p xb xc xe
  refine ⟨_, exec_init_next.2 ⟨rfl, rfl⟩, ?_, ?_, ?_, ?_, ?_, startUp_directionInv _, startUp_traceInv rfl⟩
  all_goals rw [startUp_eq]
  exact List.nil_append _

end Sys2Proof.Machine
end

section
/-! Orders between the agents (70_reset_and_hazards.md section 2, HZ1 and HZ2): an enable line that moves, and an edge that is
serviced, before, within and after a poll. -/

namespace Sys2Proof.Machine

/-! ### One operation each -/

theorem execAll_cons_refused {i : Instr} {is : List Instr} {s : State} {r : Refusal} (h : exec i s = .refused r) :
    execAll (i :: is) s = .refused r := by
  simp only [execAll, h, andThen]

/-- An enable line driven low is low, pulled up or not (R24). -/
theorem level_en_of_low {s : State} (hx : s.xEn = .d0) : s.level .en = some false := by
  simp [State.level, enableLevel, hx]

/-- An enable line driven high is high (R24). -/
theorem level_en_of_high {s : State} (hx : s.xEn = .d1) : s.level .en = some true := by
  simp [State.level, enableLevel, hx]

/-- The sample of an enable line driven low is 1 (R50, R66). -/
theorem exec_mcSample_of_low {s : State} {db : Bit} (hr : s.run = true) (hm : s.mcs = .idle) (hd : s.dir = db)
    (hx : s.xEn = .d0) :
    exec (.mcSample false db) s = .next { s with mcs := .sampled true, gpio := s.gpio ++ [.rdlvl .en false] } := by
  subst hd
  exact exec_mcSample_of_level hr hm (level_en_of_low hx)

theorem exec_mcCommitDrv_of_group {s : State} (hr : s.run = true) (hm : s.mcs = .sampled true) (hd : s.dir = false)
    (hg : s.params.granularity = .group) : exec .mcCommitDrv s = .next (commitTurn true s) :=
  exec_mcCommitDrv_next.2 ⟨⟨hr, hm, hd, hg⟩, rfl⟩

/-- A rising edge becomes pending where none is (R92). -/
theorem exec_envSet_clk_of_edge {s : State} (hr : s.run = true) (hclk : s.xClk = false) (hp : s.pend = false) :
    exec (.envSet .clk .d1) s = .next { s with xClk := true, pend := true, edgeBus := some s.xBus } :=
  setClock_of_edge hr hclk hp

/-- EH.W where it is enabled, and the whole of what it leaves (R76). -/
theorem exec_ehW_of_pending {s : State} {sb : Bit} (hr : s.run = true) (hp : s.pend = true) (hd : s.dir = true)
    (hsb : sb = s.held) :
    exec (.ehW sb) s =
      .next { s with
        pend := false, edgeBus := none, cnt := s.cnt + 1, olat := linesOfByte (s.cnt + 1)
        trace := s.trace ++ traceLine s.params.nl (s.cnt + 1) .w
        gpio := s.gpio ++ busOrder.map fun i => .wrlvl (.bus i) (busBit (s.cnt + 1) i) } := by
  rw [← handleWrite_interruptEntry]
  exact exec_ehW_next.2 ⟨⟨hr, hp, hd, hsb⟩, rfl⟩

/-- EH.R where it is enabled, and the whole of what it leaves (R77). -/
theorem exec_ehR_of_pending {s : State} {sb : Bit} (hr : s.run = true) (hp : s.pend = true) (hd : s.dir = false)
    (hsb : sb = s.held) :
    exec (.ehR sb) s =
      .next { s with
        pend := false, edgeBus := none, draws := (sampleBus s).2.draws
        trace := s.trace ++ traceLine s.params.nl (sampleBus s).1 .r
        gpio := s.gpio ++ busOrder.map fun i => .rdlvl (.bus i) (busBit (sampleBus s).1 i) } := by
  rw [← handleRead_interruptEntry]
  exact exec_ehR_next.2 ⟨⟨hr, hp, hd, hsb⟩, rfl⟩

/-! What MC holds, the `s` bit of a word, by its control state (R58). -/

theorem held_of_idle {s : State} (hm : s.mcs = .idle) : s.held = false := by simp [State.held, hm]

theorem held_of_sampled {s : State} {sb : Bit} (hm : s.mcs = .sampled sb) : s.held = sb := by simp [State.held, hm]

theorem held_of_cfg {s : State} {sb : Bit} {k : Nat} (hm : s.mcs = .cfg sb k) : s.held = sb := by simp [State.held, hm]

/-! ### HZ1: between the sample and the commit -/

/-- Settles O51: the commit looks at the sample, which was taken while the line was low. -/
theorem staleSampleIsCommitted : Obligations.StaleSampleIsCommitted := by
  intro s hr hm hd hx hg
  refine execAll_cons_exists (exec_mcSample_of_low hr hm hd hx) (execAll_cons_exists rfl ?_)
  refine execAll_cons_exists (exec_mcCommitDrv_of_group hr rfl hd hg) ⟨_, rfl, ?_⟩
  rw [commitTurn_eq]
  exact ⟨rfl, level_en_of_high rfl⟩

/-- Settles O52: the service writes neither `DIR` nor `MCS`, so the commit finds the sample it would have found before. -/
theorem edgeBeforeCommitIsHandledUnderOldDirection : Obligations.EdgeBeforeCommitIsHandledUnderOldDirection := by
  intro s hr hm hd hp hg
  refine ⟨(sampleBus s).1, execAll_cons_exists (exec_ehR_of_pending hr hp hd (held_of_sampled hm).symm) ?_⟩
  refine execAll_cons_exists (exec_mcCommitDrv_of_group hr hm hd hg) ⟨_, rfl, ?_⟩
  rw [commitTurn_eq]
  exact ⟨rfl, rfl, rfl⟩

/-! ### HZ2: between the enable line and the edge -/

/-- Settles O54: the poll turns the bus to drive, and the edge that comes then finds `DIR` = 1. -/
theorem polledEnableMakesNextEdgeAWrite : Obligations.PolledEnableMakesNextEdgeAWrite := by
  intro s hr hm hd hp hclk hg
  refine execAll_cons_exists rfl (execAll_cons_exists (exec_mcSample_of_low hr hm hd rfl) ?_)
  refine execAll_cons_exists (exec_mcCommitDrv_of_group hr rfl hd hg) ?_
  rw [commitTurn_eq]
  refine execAll_cons_exists (exec_envSet_clk_of_edge hr hclk hp) ?_
  exact execAll_cons_exists (exec_ehW_of_pending hr rfl rfl rfl) ⟨_, rfl, rfl, rfl⟩

/-- Settles O55: nothing has written `DIR`, so the edge finds it 0. -/
theorem unpolledEnableLeavesNextEdgeARead : Obligations.UnpolledEnableLeavesNextEdgeARead := by
  intro s hr hm hd hp hclk
  have hset : exec (.envSet .en .d0) s = .next (s.setXEn .d0) := rfl
  have hedge := exec_envSet_clk_of_edge (s := s.setXEn .d0) hr hclk hp
  refine ⟨fun sb => ?_, ?_⟩
  · rw [execAll_cons hset, execAll_cons hedge]
    refine execAll_cons_refused (requires_of_not (mt serviceEnabled_iff.1 ?_))
    rintro ⟨-, -, hdrive, -⟩
    cases hd.symm.trans hdrive
  · rw [execAll_cons hset, execAll_cons hedge]
    exact ⟨_, execAll_cons_exists (exec_ehR_of_pending hr rfl hd (held_of_idle hm).symm) ⟨_, rfl, rfl, rfl⟩⟩

end Sys2Proof.Machine
end

section
/-! The bus during a service (70_reset_and_hazards.md section 2): contention (R122), and the window of a turn line by line
(HZ10, R128). -/

namespace Sys2Proof.Machine

/-! ### Contention -/

/-- Settles O12: neither the guard of EH.W nor its effect looks at what the outside applies to the bus lines. -/
theorem writeServiceIgnoresTheBus : Obligations.WriteServiceIgnoresTheBus := by
  intro s xb sb t h
  obtain ⟨hguard, rfl⟩ := exec_ehW_next.1 h
  refine exec_ehW_next.2 ⟨hguard, ?_⟩
  rw [handleWrite_interruptEntry, handleWrite_interruptEntry]

/-! ### The window of a turn line by line -/

/-- Inside a turn towards `sb` the flag is still the other direction; the first `k` lines have the new one, the rest the
flag's (R25). -/
theorem window_directions {s : State} {sb : Bit} {k : Nat} (hinv : s.directionInv) (hr : s.run = true)
    (hm : s.mcs = .cfg sb k) :
    s.dir = (!sb) ∧ ∀ i : Fin 8, (i.val < k → s.mode.get i = pinDirOf sb) ∧ (k ≤ i.val → s.mode.get i = pinDirOf !sb) := by
  obtain ⟨ha, _⟩ := hinv hr
  obtain ⟨_, _, _, hsb, hmode⟩ := (directionsAgree_iff_of_cfg hm).1 ha
  have hd : s.dir = !sb := by cases sb <;> simpa using hsb.symm
  refine ⟨hd, fun i => ⟨fun hi => ?_, fun hi => ?_⟩⟩
  · rw [hmode i, if_pos hi]
  · rw [hmode i, if_neg (by omega), hd]

/-- Settles O59: the sampled bits are the levels of the lines: the latches of those turned, the outside on the others. -/
theorem perLineWindowReadsAMixture : Obligations.PerLineWindowReadsAMixture := by
  intro s x k hedge hheld hinv hm
  obtain ⟨hr, hp, rfl⟩ := hedge x hheld
  obtain ⟨hd, hmode⟩ := window_directions hinv hr hm
  refine ⟨(sampleBus s).1, _, exec_ehR_of_pending hr hp hd (held_of_cfg hm).symm, rfl, rfl, fun i => ?_⟩
  obtain ⟨hturned, hrest⟩ := hmode i
  have hdriven (hi : k ≤ i.val) (hx : s.xBus.get i ≠ .z) : busBit (sampleBus s).1 i = (s.xBus.get i == .d1) :=
    sampleBus_bit (level_bus_of_driven_input (hrest hi) hx)
  refine ⟨fun hi hx => sampleBus_bit (level_bus_of_output (hturned hi) hx), fun hi hx => ?_, fun hi hx => ?_⟩
  · rw [hdriven hi (by simp [hx]), hx]; rfl
  · rw [hdriven hi (by simp [hx]), hx]; rfl

/-- The level of an input line does not depend on the latches (R24). -/
theorem level_bus_of_input_congr {s t : State} {i : Fin 8} (hm : s.mode.get i = .input) (hmode : t.mode = s.mode)
    (hx : t.xBus = s.xBus) : t.level (.bus i) = s.level (.bus i) := by
  simp only [State.level, hmode, hx, hm]
  exact busLevel_input _ _ _

/-- Settles O60: all latches are written, and only the lines that are still outputs show theirs. -/
theorem perLineWindowWritesHiddenLatches : Obligations.PerLineWindowWritesHiddenLatches := by
  intro s k hr hinv hm hp
  obtain ⟨hd, hmode⟩ := window_directions hinv hr hm
  refine ⟨_, exec_ehW_of_pending hr hp hd (held_of_cfg hm).symm, rfl, rfl, rfl, rfl, fun i => ?_⟩
  obtain ⟨hturned, hrest⟩ := hmode i
  refine ⟨fun hi => level_bus_of_input_congr (hturned hi) rfl rfl, fun hi hx => ?_⟩
  rw [level_bus_of_output, linesOfByte_get]
  · exact hrest hi
  · exact hx

end Sys2Proof.Machine
end
